-- ==== Sys2Proof/Word.lean ====
section
/-! DEFINITION. The words of the EPU core: 32-bit registers and logical addresses, bytes, and the four-bit
fields that an instruction byte is made of (R6, R11, R13). -/

namespace Sys2Proof

/-- A 32-bit register value or logical address (XLEN, R5). -/
abbrev Word := BitVec 32

/-- One byte of memory or of an instruction (R25, R70). -/
abbrev Byte := BitVec 8

/-- Half a byte: a register index, an operand kind, a condition mode or mask as it is encoded (R6, R74). -/
abbrev Nibble := BitVec 4

/-- A context index, 0 to 255 (R10). -/
abbrev CtxId := Fin 256

end Sys2Proof
end

