-- ==== Sys2Proof/Syntax.lean ====
section
/-! DEFINITION. The instructions of the EPU core as syntax: one constructor of `Instr` per row of the opcode table
(R80, R84). Don't-care bits of an encoding (R71, R82) are no part of an instruction (log 10). -/

namespace Sys2Proof

/-- A general register index: RA to RH are 0 to 7, U0 to U7 are 8 to 15 (R11, R12). -/
abbrev Reg := Fin 16

/-- A floating-point register index (R19). Indices 4 to 15 can be encoded and are rejected by the decoder (R167). -/
abbrev FReg := Fin 4

/-- The operand size class, 1, 2 or 4 bytes (R72). -/
inductive SizeClass where
  | b
  | h
  | w
  deriving DecidableEq, Repr

/-- An operand of MOV, CMP, JMP or CALL, one constructor per kind (R75). -/
inductive Operand where
  /-- kind 0, a register -/
  | reg (r : Reg)
  /-- kind 1, `*Reg`: the byte at the address the register holds -/
  | ind (r : Reg)
  /-- kind 2, `*Imd`: the byte at a 4-byte absolute address -/
  | mem (addr : Word)
  /-- kind 3, `Imd`: `tz` immediate bytes, zero-extended -/
  | imm (v : Word)
  deriving DecidableEq, Repr

/-- The four operand addressing kinds (R75). -/
inductive Kind where
  | reg
  | ind
  | mem
  | imm
  deriving DecidableEq, Repr

/-- The right operand of an ALU instruction (R120): a register (`I = 0`) or an immediate (`I = 1`). -/
inductive AluSrc where
  | reg (r : Reg)
  | imm (v : Word)
  deriving DecidableEq, Repr

/-- The high nibble of JMP's condition byte (R180, R181). -/
inductive CondMode where
  /-- 0x0: jump if `cmp AND mask` is not 0 -/
  | ifAny
  /-- 0x1: jump if `cmp AND mask` is 0 -/
  | ifNone
  /-- 0x2 to 0xF: ILLEGAL_INSTRUCTION, found after the operand is resolved -/
  | reserved (mode : Nibble)
  deriving DecidableEq, Repr

/-- The instruction set: one constructor per row of the opcode table (R80). -/
inductive Instr where
  /-- HALT (R104) -/
  | halt
  /-- ADD (R121) -/
  | add (sc : SizeClass) (a : Reg) (b : AluSrc)
  /-- SUB (R122) -/
  | sub (sc : SizeClass) (a : Reg) (b : AluSrc)
  /-- MUL (R123) -/
  | mul (sc : SizeClass) (a : Reg) (b : AluSrc)
  /-- DIV (R124) -/
  | div (sc : SizeClass) (a : Reg) (b : AluSrc)
  /-- AND (R125) -/
  | and (sc : SizeClass) (a : Reg) (b : AluSrc)
  /-- OR (R126) -/
  | or (sc : SizeClass) (a : Reg) (b : AluSrc)
  /-- XOR (R127) -/
  | xor (sc : SizeClass) (a : Reg) (b : AluSrc)
  /-- MOV (R140) -/
  | mov (sc : SizeClass) (dst src : Operand)
  /-- ITOF: `d` a floating-point register, `s` a general one (R161) -/
  | itof (d : FReg) (s : Reg)
  /-- FTOI: `d` a general register, `s` a floating-point one (R162) -/
  | ftoi (d : Reg) (s : FReg)
  /-- FADD (R163) -/
  | fadd (d s : FReg)
  /-- FSUB (R164) -/
  | fsub (d s : FReg)
  /-- FMUL (R165) -/
  | fmul (d s : FReg)
  /-- FDIV (R166) -/
  | fdiv (d s : FReg)
  /-- JMP with its modifiers `A` (absolute) and `N` (negate), its condition and its operand (R180) -/
  | jmp (sc : SizeClass) (absolute negate : Bool) (mode : CondMode) (mask : Nibble) (op : Operand)
  /-- CMP with its modifiers `S` (signed) and `K` (keep); `dst` is the left operand (R195) -/
  | cmp (sc : SizeClass) (signed keep : Bool) (dst src : Operand)
  /-- INT (R210) -/
  | int (code : Word)
  /-- CALL (R232) -/
  | call (sc : SizeClass) (op : Operand)
  /-- RET (R233) -/
  | ret
  deriving DecidableEq, Repr

end Sys2Proof
end

