-- ==== Sys2Proof/Machine/Bits.lean ====
section
/-! DEFINITION. Bit fields, byte order and sizes: the helpers that the decoder, the router and the meanings share
(R6, R41, R46, R51, R72). -/

namespace Sys2Proof

/-- The low nibble of a byte, bits 3:0 (R6). -/
def lowNibble (b : Byte) : Nibble := b.extractLsb' 0 4

/-- The high nibble of a byte, bits 7:4 (R6). -/
def highNibble (b : Byte) : Nibble := b.extractLsb' 4 4

/-- The byte with nibbles `hi` and `lo`, `hi || lo` in R6's notation. -/
def ofNibbles (hi lo : Nibble) : Byte := hi ++ lo

/-- The register a nibble names: all 16 indices exist (R11). -/
def regOfNibble (n : Nibble) : Reg := ⟨n.toNat, n.isLt⟩

/-- The nibble that names a general register. -/
def nibbleOfReg (r : Reg) : Nibble := BitVec.ofNat 4 r.val

/-- The floating-point register a nibble names; indices 4 to 15 name none (R19, R167). -/
def fregOfNibble (n : Nibble) : Option FReg := if h : n.toNat < 4 then some ⟨n.toNat, h⟩ else none

/-- The nibble that names a floating-point register. -/
def nibbleOfFReg (r : FReg) : Nibble := BitVec.ofNat 4 r.val

/-- The kind a nibble encodes; 4 to 15 are reserved (R75, R81). -/
def kindOfNibble (n : Nibble) : Option Kind :=
  match n.toNat with
  | 0 => some .reg
  | 1 => some .ind
  | 2 => some .mem
  | 3 => some .imm
  | _ => none

/-- The nibble that encodes a kind (R75). -/
def Kind.nibble : Kind → Nibble
  | .reg => 0
  | .ind => 1
  | .mem => 2
  | .imm => 3

/-- The kind of an operand (R75). -/
def Operand.kind : Operand → Kind
  | .reg _ => .reg
  | .ind _ => .ind
  | .mem _ => .mem
  | .imm _ => .imm

/-- Kinds 1 and 2, the memory kinds (R141, R196). -/
def Kind.isMem : Kind → Bool
  | .ind => true
  | .mem => true
  | _ => false

/-- CMP's legality: not both operands in memory (R196). -/
def cmpLegal (dst src : Kind) : Bool := !(src.isMem && dst.isMem)

/-- MOV's legality: the destination is no immediate and not both operands are in memory (R141). -/
def movLegal (dst src : Kind) : Bool := dst != .imm && cmpLegal dst src

/-- The value of bytes in memory order, byte 0 least significant (R46, R51). -/
def leWord : List Byte → Word
  | [] => 0
  | b :: bs => b.setWidth 32 ||| (leWord bs <<< 8)

/-- The low `n` bytes of a word in memory order: byte `i` is `v[8i+7:8i]` (R47, R51). -/
def leBytes : Nat → Word → List Byte
  | 0, _ => []
  | n + 1, v => v.setWidth 8 :: leBytes n (v >>> 8)

/-- The byte width `tz` of a size class (R72). -/
def SizeClass.bytes : SizeClass → Nat
  | .b => 1
  | .h => 2
  | .w => 4

/-- The value mask `sz` of a size class (R72). -/
def SizeClass.mask : SizeClass → Word
  | .b => 0xFF
  | .h => 0xFFFF
  | .w => 0xFFFFFFFF

/-- A masked value read as a two's-complement number of `8 * tz` bits (R6, R197). -/
def SizeClass.signedValue (sc : SizeClass) (v : Word) : Int := (v.setWidth (8 * sc.bytes)).toInt

/-- `tag(A) = A[31:24]` (R41). -/
def addrTag (A : Word) : Byte := A.extractLsb' 24 8

/-- `sub(A) = A[23:16]`, the explicit context id of the privileged routes (R41, R44). -/
def addrSub (A : Word) : CtxId := ⟨(A.extractLsb' 16 8).toNat, (A.extractLsb' 16 8).isLt⟩

/-- `off(A) = A[15:0]` (R41). -/
def addrOff (A : Word) : BitVec 16 := A.extractLsb' 0 16

/-- `A[23:0]`, the offset into the boot image (R62). -/
def addrBootOff (A : Word) : BitVec 24 := A.extractLsb' 0 24

/-- `AddrAdd(A, d)`: the offset field moves and wraps, 24 bits of it for tag 0xFF and 16 for every other tag; the bits
above it stay (R45). -/
def addrAdd (A : Word) (d : Int) : Word :=
  if addrTag A = 0xFF then A.extractLsb' 24 8 ++ (A.extractLsb' 0 24 + BitVec.ofInt 24 d)
  else A.extractLsb' 16 16 ++ (A.extractLsb' 0 16 + BitVec.ofInt 16 d)

end Sys2Proof
end

