-- ==== Sys2Proof/WellFormed.lean ====
section
/-! DEFINITION. Which terms of `Instr` are instructions of the hardware: immediates fit their size class (R78), the
operand kinds form a legal pair (R141, R196), a reserved condition mode is a mode the encoding has (R181). -/

namespace Sys2Proof

/-- The value fits in the `tz` bytes of the size class (R78). -/
def SizeClass.fits (sc : SizeClass) (v : Word) : Bool := v &&& sc.mask == v

/-- An immediate operand fits its size class; the other kinds have nothing to check (R75, R78). -/
def Operand.fits (sc : SizeClass) : Operand → Bool
  | .imm v => sc.fits v
  | _ => true

/-- An immediate right operand fits its size class (R78, R120). -/
def AluSrc.fits (sc : SizeClass) : AluSrc → Bool
  | .imm v => sc.fits v
  | .reg _ => true

/-- A reserved condition mode is one of 2 to 15; 0 and 1 have names of their own (R180, R181). -/
def CondMode.valid : CondMode → Bool
  | .reserved n => decide (2 ≤ n.toNat)
  | _ => true

/-- The instruction can be written in the hardware's encoding with every field at the value it has here. -/
def Instr.wellFormed : Instr → Bool
  | .add sc _ b => b.fits sc
  | .sub sc _ b => b.fits sc
  | .mul sc _ b => b.fits sc
  | .div sc _ b => b.fits sc
  | .and sc _ b => b.fits sc
  | .or sc _ b => b.fits sc
  | .xor sc _ b => b.fits sc
  | .mov sc dst src => movLegal dst.kind src.kind && dst.fits sc && src.fits sc
  | .cmp sc _ _ dst src => cmpLegal dst.kind src.kind && dst.fits sc && src.fits sc
  | .jmp sc _ _ mode _ op => mode.valid && op.fits sc
  | .call sc op => op.fits sc
  | .halt => true
  | .itof _ _ => true
  | .ftoi _ _ => true
  | .fadd _ _ => true
  | .fsub _ _ => true
  | .fmul _ _ => true
  | .fdiv _ _ => true
  | .int _ => true
  | .ret => true

end Sys2Proof
end

