-- ==== Sys2Proof/Decode.lean ====
section
/-! DEFINITION. Instruction lengths, the decoder and the encoder, from the formats of R74 to R81. The decoder is total on
any list of bytes: it answers an instruction and the bytes after it, or rejects the encoding by name. -/

namespace Sys2Proof

/-! ### Lengths (R74, R79) -/

/-- The immediate bytes of an ALU instruction: `tz` when `I = 1` (R74, format A). -/
def AluSrc.length (sc : SizeClass) : AluSrc → Nat
  | .reg _ => 0
  | .imm _ => sc.bytes

/-- The operand bytes that follow JMP's or CALL's fixed bytes, the `m` of R74: 0, 0, 4 or `tz`. -/
def Operand.singleLength (sc : SizeClass) : Operand → Nat
  | .reg _ => 0
  | .ind _ => 0
  | .mem _ => 4
  | .imm _ => sc.bytes

/-- The source's operand bytes in format D, the `s` of R77. -/
def srcLength (sc : SizeClass) : Kind → Nat
  | .reg => 1
  | .ind => 1
  | .mem => 4
  | .imm => sc.bytes

/-- Whether the source has a selector byte, whose low nibble then names a register destination (R77). -/
def Kind.hasSelector : Kind → Bool
  | .reg => true
  | .ind => true
  | _ => false

/-- The destination's operand bytes in format D, the `d` of R77: none where the source's selector byte is reused. -/
def dstLength (sc : SizeClass) (src : Kind) : Kind → Nat
  | .reg => if src.hasSelector then 0 else 1
  | .ind => if src.hasSelector then 0 else 1
  | .mem => 4
  | .imm => sc.bytes

/-- The length of a MOV or CMP, `3 + s + d` (R74, R77). -/
def dualLength (sc : SizeClass) (dst src : Operand) : Nat := 3 + srcLength sc src.kind + dstLength sc src.kind dst.kind

/-- The length of an instruction in bytes (R79). -/
def Instr.length : Instr → Nat
  | .halt => 2
  | .add sc _ b => 4 + b.length sc
  | .sub sc _ b => 4 + b.length sc
  | .mul sc _ b => 4 + b.length sc
  | .div sc _ b => 4 + b.length sc
  | .and sc _ b => 4 + b.length sc
  | .or sc _ b => 4 + b.length sc
  | .xor sc _ b => 4 + b.length sc
  | .mov sc dst src => dualLength sc dst src
  | .itof _ _ => 3
  | .ftoi _ _ => 3
  | .fadd _ _ => 3
  | .fsub _ _ => 3
  | .fmul _ _ => 3
  | .fdiv _ _ => 3
  | .jmp sc _ _ _ _ op => 4 + op.singleLength sc
  | .cmp sc _ _ dst src => dualLength sc dst src
  | .int _ => 6
  | .call sc op => 3 + op.singleLength sc
  | .ret => 2

/-- The longest instruction, 11 bytes (R79). -/
def maxLength : Nat := 11

/-! ### Rejections (R81) -/

/-- Why the decoder rejects bytes: one name per row of R81 that is decided by the encoding alone. -/
inductive DecodeReject where
  /-- opcode 9 to 255 (R105) -/
  | undefinedOpcode
  /-- size class 3 to 15 in ALU, MOV, JMP, CMP, CALL (R73) -/
  | reservedSizeClass
  /-- ALU `op` 7 to 255 (R128) -/
  | reservedAluOp
  /-- MOV or CMP with both kinds in memory (R141, R196) -/
  | memoryMemory
  /-- MOV with destination kind 3 (R141) -/
  | immediateDestination
  /-- MOV or CMP with a kind 4 to 15 (R141, R196) -/
  | reservedDualKind
  /-- JMP with a kind 4 to 15 (R106) -/
  | reservedJmpKind
  /-- CALL with a kind 4 to 15 (R106) -/
  | reservedCallKind
  /-- FPU sub-op 3 to 7 (R167) -/
  | reservedFpuSubOp
  /-- FPU sub-op 2 with operation 4 to 31 (R167) -/
  | reservedFpuOp
  /-- a floating-point register index 4 to 15 (R167) -/
  | reservedFpuRegister
  /-- fewer bytes were given than the instruction has: no encoding of R81, and never the step's case, which gives the decoder
  the longest window -/
  | truncated
  deriving DecidableEq, Repr

/-- How many bytes have been fetched when the instruction aborts (the abort points of R81). -/
def DecodeReject.consumed : DecodeReject → Nat
  | .undefinedOpcode => 2
  | .reservedSizeClass => 2
  | .reservedAluOp => 3
  | .memoryMemory => 3
  | .immediateDestination => 3
  | .reservedDualKind => 3
  | .reservedJmpKind => 4
  | .reservedCallKind => 3
  | .reservedFpuSubOp => 2
  | .reservedFpuOp => 2
  | .reservedFpuRegister => 3
  | .truncated => 0

/-! ### Decoder -/

/-- The size class in `opflag[3:0]`, checked right after the instruction word (R72, R73, R103). -/
def decodeSize (opflag : Byte) : Except DecodeReject SizeClass :=
  match (lowNibble opflag).toNat with
  | 0 => .ok .b
  | 1 => .ok .h
  | 2 => .ok .w
  | _ => .error .reservedSizeClass

/-- `Fetch(1)` from the bytes that are left (R50). -/
def takeByte : List Byte → Except DecodeReject (Byte × List Byte)
  | [] => .error .truncated
  | b :: bs => .ok (b, bs)

/-- `Fetch(n)` from the bytes that are left, little-endian and zero-extended (R50, R78). -/
def takeWord (n : Nat) (bs : List Byte) : Except DecodeReject (Word × List Byte) :=
  if bs.length < n then .error .truncated else .ok (leWord (bs.take n), bs.drop n)

/-- Opcode 1, format A: the `op` byte is checked before the `io` byte is fetched (R74, R120, R128). -/
def decodeAlu (opflag : Byte) (bs : List Byte) : Except DecodeReject (Instr × List Byte) := do
  let sc ← decodeSize opflag
  let (op, bs) ← takeByte bs
  if 6 < op.toNat then .error .reservedAluOp
  else
    let (io, bs) ← takeByte bs
    let a := regOfNibble (lowNibble io)
    let (b, bs) ←
      if opflag.getLsbD 4 then (takeWord sc.bytes bs).map fun p => (AluSrc.imm p.1, p.2)
      else .ok (AluSrc.reg (regOfNibble (highNibble io)), bs)
    match op.toNat with
    | 0 => .ok (.add sc a b, bs)
    | 1 => .ok (.sub sc a b, bs)
    | 2 => .ok (.mul sc a b, bs)
    | 3 => .ok (.div sc a b, bs)
    | 4 => .ok (.and sc a b, bs)
    | 5 => .ok (.or sc a b, bs)
    | _ => .ok (.xor sc a b, bs)

/-- The source of format D, and the low nibble of its selector byte where it has one (R77, R107). -/
def decodeSrc (sc : SizeClass) (k : Kind) (bs : List Byte) : Except DecodeReject ((Operand × Nibble) × List Byte) :=
  match k with
  | .reg => (takeByte bs).map fun p => ((.reg (regOfNibble (highNibble p.1)), lowNibble p.1), p.2)
  | .ind => (takeByte bs).map fun p => ((.ind (regOfNibble (highNibble p.1)), lowNibble p.1), p.2)
  | .mem => (takeWord 4 bs).map fun p => ((.mem p.1, 0), p.2)
  | .imm => (takeWord sc.bytes bs).map fun p => ((.imm p.1, 0), p.2)

/-- The destination register's nibble in format D: the other nibble of the source's selector byte (`shared`) where the source
has one, else the low nibble of a byte of its own (R77, the byte-economy rule). -/
def decodeDstReg (src : Kind) (shared : Nibble) (bs : List Byte) : Except DecodeReject (Reg × List Byte) :=
  if src.hasSelector then .ok (regOfNibble shared, bs)
  else (takeByte bs).map fun p => (regOfNibble (lowNibble p.1), p.2)

/-- The destination of format D (R77, R107). -/
def decodeDst (sc : SizeClass) (src : Kind) (shared : Nibble) (k : Kind) (bs : List Byte) :
    Except DecodeReject (Operand × List Byte) :=
  match k with
  | .reg => (decodeDstReg src shared bs).map fun p => (.reg p.1, p.2)
  | .ind => (decodeDstReg src shared bs).map fun p => (.ind p.1, p.2)
  | .mem => (takeWord 4 bs).map fun p => (.mem p.1, p.2)
  | .imm => (takeWord sc.bytes bs).map fun p => (.imm p.1, p.2)

/-- `ParseDual`: the source's bytes, then the destination's; answers destination and source (R107). -/
def decodeDual (sc : SizeClass) (dk sk : Kind) (bs : List Byte) : Except DecodeReject ((Operand × Operand) × List Byte) := do
  let ((src, shared), bs) ← decodeSrc sc sk bs
  let (dst, bs) ← decodeDst sc sk shared dk bs
  .ok ((dst, src), bs)

/-- The kinds of format D's `io` byte, destination first; kinds 4 to 15 are rejected (R75, R81). -/
def decodeKinds (io : Byte) : Except DecodeReject (Kind × Kind) :=
  match kindOfNibble (lowNibble io), kindOfNibble (highNibble io) with
  | some dk, some sk => .ok (dk, sk)
  | _, _ => .error .reservedDualKind

/-- Opcode 2: the kinds are checked before any operand byte is fetched (R140, R141). -/
def decodeMov (opflag : Byte) (bs : List Byte) : Except DecodeReject (Instr × List Byte) := do
  let sc ← decodeSize opflag
  let (io, bs) ← takeByte bs
  let (dk, sk) ← decodeKinds io
  if dk = .imm then .error .immediateDestination
  else if movLegal dk sk then
    let ((dst, src), bs) ← decodeDual sc dk sk bs
    .ok (.mov sc dst src, bs)
  else .error .memoryMemory

/-- Opcode 5: only a memory-memory pair is illegal (R195, R196). -/
def decodeCmp (opflag : Byte) (bs : List Byte) : Except DecodeReject (Instr × List Byte) := do
  let sc ← decodeSize opflag
  let (io, bs) ← takeByte bs
  let (dk, sk) ← decodeKinds io
  if cmpLegal dk sk then
    let ((dst, src), bs) ← decodeDual sc dk sk bs
    .ok (.cmp sc (opflag.getLsbD 4) (opflag.getLsbD 5) dst src, bs)
  else .error .memoryMemory

/-- Opcode 3, format F: the sub-op and operation are checked before the `io` byte is fetched, the floating-point register
indices after it (R160, R167). -/
def decodeFpu (opflag : Byte) (bs : List Byte) : Except DecodeReject (Instr × List Byte) :=
  let fs := (opflag.extractLsb' 0 3).toNat
  let fo := (opflag.extractLsb' 3 5).toNat
  if 2 < fs then .error .reservedFpuSubOp
  else if fs = 2 ∧ 3 < fo then .error .reservedFpuOp
  else do
    let (io, bs) ← takeByte bs
    let d := lowNibble io
    let s := highNibble io
    match fs with
    | 0 =>
      match fregOfNibble d with
      | some fd => .ok (.itof fd (regOfNibble s), bs)
      | none => .error .reservedFpuRegister
    | 1 =>
      match fregOfNibble s with
      | some fs => .ok (.ftoi (regOfNibble d) fs, bs)
      | none => .error .reservedFpuRegister
    | _ =>
      match fregOfNibble d, fregOfNibble s with
      | some fd, some fs =>
        match fo with
        | 0 => .ok (.fadd fd fs, bs)
        | 1 => .ok (.fsub fd fs, bs)
        | 2 => .ok (.fmul fd fs, bs)
        | _ => .ok (.fdiv fd fs, bs)
      | _, _ => .error .reservedFpuRegister

/-- The operand of JMP and CALL: the kind and the register index are the two nibbles of `am`, address or immediate bytes
follow (R76, R106). -/
def decodeSingle (sc : SizeClass) (k : Kind) (am : Byte) (bs : List Byte) : Except DecodeReject (Operand × List Byte) :=
  match k with
  | .reg => .ok (.reg (regOfNibble (highNibble am)), bs)
  | .ind => .ok (.ind (regOfNibble (highNibble am)), bs)
  | .mem => (takeWord 4 bs).map fun p => (.mem p.1, p.2)
  | .imm => (takeWord sc.bytes bs).map fun p => (.imm p.1, p.2)

/-- The condition mode in `cond[7:4]` (R180, R181). -/
def condModeOf (n : Nibble) : CondMode :=
  match n.toNat with
  | 0 => .ifAny
  | 1 => .ifNone
  | _ => .reserved n

/-- Opcode 4, format J: `am` and `cond` are both fetched before the kind is checked (R106, R180, R183). -/
def decodeJmp (opflag : Byte) (bs : List Byte) : Except DecodeReject (Instr × List Byte) := do
  let sc ← decodeSize opflag
  let (am, bs) ← takeByte bs
  let (cond, bs) ← takeByte bs
  match kindOfNibble (lowNibble am) with
  | none => .error .reservedJmpKind
  | some k =>
    let (op, bs) ← decodeSingle sc k am bs
    .ok (.jmp sc (opflag.getLsbD 4) (opflag.getLsbD 5) (condModeOf (highNibble cond)) (lowNibble cond) op, bs)

/-- Opcode 7, format C (R232). -/
def decodeCall (opflag : Byte) (bs : List Byte) : Except DecodeReject (Instr × List Byte) := do
  let sc ← decodeSize opflag
  let (am, bs) ← takeByte bs
  match kindOfNibble (lowNibble am) with
  | none => .error .reservedCallKind
  | some k =>
    let (op, bs) ← decodeSingle sc k am bs
    .ok (.call sc op, bs)

/-- Opcode 6, format I: the code is four bytes whatever the size-class bits say (R210). -/
def decodeInt (bs : List Byte) : Except DecodeReject (Instr × List Byte) :=
  (takeWord 4 bs).map fun p => (.int p.1, p.2)

/-- The instruction that the bytes begin with and the bytes after it: byte 0 is the opcode, byte 1 the opflag
(R70, R80, R102). -/
def decode : List Byte → Except DecodeReject (Instr × List Byte)
  | opcode :: opflag :: bs =>
    match opcode.toNat with
    | 0 => .ok (.halt, bs)
    | 1 => decodeAlu opflag bs
    | 2 => decodeMov opflag bs
    | 3 => decodeFpu opflag bs
    | 4 => decodeJmp opflag bs
    | 5 => decodeCmp opflag bs
    | 6 => decodeInt bs
    | 7 => decodeCall opflag bs
    | 8 => .ok (.ret, bs)
    | _ => .error .undefinedOpcode
  | _ => .error .truncated

/-- The bytes, in memory order, of an instruction whose bits are `w`: the low `nbits` bits of `w`, zeros above, up to the
longest instruction. -/
def tableBytes (nbits w : Nat) : List Byte :=
  (List.range maxLength).map fun k : Nat => BitVec.ofNat 8 ((w % 2 ^ nbits) >>> (8 * k))

/-- The instruction the decoder reads from an opcode-table word (R86: bytes are numbered from the opcode byte up). -/
def decodeTableWord (nbits w : Nat) : Option Instr :=
  match decode (tableBytes nbits w) with
  | .ok (i, _) => some i
  | .error _ => none

/-! ### Encoder -/

/-- The size-class nibble (R72). -/
def SizeClass.nibble : SizeClass → Nibble
  | .b => 0
  | .h => 1
  | .w => 2

/-- An opflag with modifier bits 4 and 5 and a size class; bits 7:6 are don't-care and written as 0 (R71). -/
def opflagByte (sc : SizeClass) (bit4 bit5 : Bool) : Byte :=
  ofNibbles (BitVec.ofNat 4 (bit4.toNat + 2 * bit5.toNat)) sc.nibble

/-- Format A (R74). -/
def encodeAlu (op : Byte) (sc : SizeClass) (a : Reg) : AluSrc → List Byte
  | .reg r => [0x01, opflagByte sc false false, op, ofNibbles (nibbleOfReg r) (nibbleOfReg a)]
  | .imm v => [0x01, opflagByte sc true false, op, ofNibbles 0 (nibbleOfReg a)] ++ leBytes sc.bytes v

/-- The low nibble of the source's selector byte: the destination's register, or 0 where it is don't-care (R77, R82). -/
def sharedNibble : Operand → Nibble
  | .reg r => nibbleOfReg r
  | .ind r => nibbleOfReg r
  | _ => 0

/-- The source's operand bytes in format D (R77). -/
def encodeSrc (sc : SizeClass) (shared : Nibble) : Operand → List Byte
  | .reg r => [ofNibbles (nibbleOfReg r) shared]
  | .ind r => [ofNibbles (nibbleOfReg r) shared]
  | .mem a => leBytes 4 a
  | .imm v => leBytes sc.bytes v

/-- The destination's operand bytes in format D: none where the source's selector byte names its register (R77). -/
def encodeDst (sc : SizeClass) (src : Kind) : Operand → List Byte
  | .reg r => if src.hasSelector then [] else [ofNibbles 0 (nibbleOfReg r)]
  | .ind r => if src.hasSelector then [] else [ofNibbles 0 (nibbleOfReg r)]
  | .mem a => leBytes 4 a
  | .imm v => leBytes sc.bytes v

/-- Format D (R74, R77). -/
def encodeDual (opcode opflag : Byte) (sc : SizeClass) (dst src : Operand) : List Byte :=
  [opcode, opflag, ofNibbles src.kind.nibble dst.kind.nibble] ++ encodeSrc sc (sharedNibble dst) src
    ++ encodeDst sc src.kind dst

/-- Format F: `opflag` is `FO` above `FS` (R74, R160). -/
def encodeFpu (opflag : Byte) (s d : Nibble) : List Byte := [0x03, opflag, ofNibbles s d]

/-- The `am` byte of JMP and CALL (R76). -/
def amByte : Operand → Byte
  | .reg r => ofNibbles (nibbleOfReg r) 0
  | .ind r => ofNibbles (nibbleOfReg r) 1
  | .mem _ => ofNibbles 0 2
  | .imm _ => ofNibbles 0 3

/-- The address or immediate bytes of JMP's and CALL's operand (R74, R76). -/
def encodeSingle (sc : SizeClass) : Operand → List Byte
  | .reg _ => []
  | .ind _ => []
  | .mem a => leBytes 4 a
  | .imm v => leBytes sc.bytes v

/-- The condition mode's nibble (R181). -/
def CondMode.nibble : CondMode → Nibble
  | .ifAny => 0
  | .ifNone => 1
  | .reserved n => n

/-- The bytes of an instruction in memory order (R70, R74); don't-care bits are 0 (R71). -/
def encode : Instr → List Byte
  | .halt => [0x00, 0x00]
  | .add sc a b => encodeAlu 0 sc a b
  | .sub sc a b => encodeAlu 1 sc a b
  | .mul sc a b => encodeAlu 2 sc a b
  | .div sc a b => encodeAlu 3 sc a b
  | .and sc a b => encodeAlu 4 sc a b
  | .or sc a b => encodeAlu 5 sc a b
  | .xor sc a b => encodeAlu 6 sc a b
  | .mov sc dst src => encodeDual 0x02 (opflagByte sc false false) sc dst src
  | .itof d s => encodeFpu 0x00 (nibbleOfReg s) (nibbleOfFReg d)
  | .ftoi d s => encodeFpu 0x01 (nibbleOfFReg s) (nibbleOfReg d)
  | .fadd d s => encodeFpu 0x02 (nibbleOfFReg s) (nibbleOfFReg d)
  | .fsub d s => encodeFpu 0x0A (nibbleOfFReg s) (nibbleOfFReg d)
  | .fmul d s => encodeFpu 0x12 (nibbleOfFReg s) (nibbleOfFReg d)
  | .fdiv d s => encodeFpu 0x1A (nibbleOfFReg s) (nibbleOfFReg d)
  | .jmp sc absolute negate mode mask op =>
    [0x04, opflagByte sc absolute negate, amByte op, ofNibbles mode.nibble mask] ++ encodeSingle sc op
  | .cmp sc signed keep dst src => encodeDual 0x05 (opflagByte sc signed keep) sc dst src
  | .int code => [0x06, 0x00] ++ leBytes 4 code
  | .call sc op => [0x07, opflagByte sc false false, amByte op] ++ encodeSingle sc op
  | .ret => [0x08, 0x00]

end Sys2Proof
end

