-- ==== Sys2Proof/Config.lean ====
section
/-! DEFINITION. What an implementation fixes (R5) and the values the spec leaves open. An `opaque` constant has no body:
no proof can learn its value, so a theorem holds whatever it is. -/

namespace Sys2Proof.Config

/-- `BOOT_ENTRY`: the initial `pc` of context 0, at the spec's default (R5, R30, D28; log 4). -/
def bootEntry : Word := 0xFF000000

/-- `UNDEF_OPCODE_ILLEGAL`: opcodes 9 to 255 raise ILLEGAL_INSTRUCTION, the spec's default (R5, R105, D9; log 15). -/
def undefOpcodeIllegal : Bool := true

/-- `CODE_WRITABLE_SPECIFIC`: whether a privileged write to tag 0xE0 reaches a code pool; the spec's default is no
(R5, R43, C2, D29; log 16). -/
def codeWritableSpecific : Bool := false

/-- `QUANTUM`: instructions a context runs before the switch (R5, R253). -/
def quantum : Word := 16

/-- `FPU_SEED[0..3]`: the floating-point registers of context 0 after reset, which the spec leaves OPEN
(R5, R30, R169, D28, U3). DESIGN CHOICE: unknown constants (log 1). -/
opaque fpuSeed : Fin 4 → Word

/-- The bytes of `BOOT` that no load has delivered, by 24-bit offset; the spec leaves them OPEN (R5, R26, D30, U3).
DESIGN CHOICE, safe: unknown constants (log 2). -/
opaque bootByte : Nat → Byte

/-- `BOOT_LEN`: the loaded length, OPEN; no rule of the core reads it (R5, D30). -/
opaque bootLen : Word

/-- The stream of unspecified bytes: `unspecified_N` draws take the next bytes of it (R8, R48, U1, U4, U5).
DESIGN CHOICE, safe: an unknown stream (log 5). -/
opaque unspecByte : Nat → Byte

/-- The peripheral's answers, in the order in which the core asks (R215, R216, R219, U6). DESIGN CHOICE, safe: an unknown
stream (log 6). -/
opaque periphIn : Nat → Word

end Sys2Proof.Config
end

