-- ==== Sys2Proof/Machine/State.lean ====
section
/-! DEFINITION. The state of the machine as plain data: 256 contexts, the scheduler's two variables, the memories and the
three fields of the model's own (R10 to R30). -/

namespace Sys2Proof.Machine

/-- The register file of one context (R10 to R22). -/
structure Context where
  /-- the 16 general registers (R11) -/
  x : Vector Word 16
  /-- the 4 floating-point registers, as bit patterns (R19) -/
  f : Vector Word 4
  /-- the program counter, a full logical address (R13) -/
  pc : Word
  /-- the data-stack pointer, used by no instruction (R14) -/
  sp : Word
  /-- the call-stack pointer (R15) -/
  cp : Word
  /-- the sticky status bits (R16) -/
  flags : Word
  /-- the sticky comparison bits (R18) -/
  cmp : Byte
  /-- whether the context takes part in scheduling (R20) -/
  alive : Bool
  /-- instructions executed since the last switch (R21) -/
  quantumCount : Word
  /-- the context space id; 0 is privileged (R22) -/
  space : Word
  deriving DecidableEq, Repr

/-- The memories, as the bytes that differ from what an unlisted address reads as; the addresses are the physical numbering
of `Machine/Memory.lean` (R25, R26; log 12). -/
abbrev Memory := List Host.Cell

/-- The peripheral calls that leave the core (R219). -/
inductive PeriphFn where
  /-- call 0 (R212) -/
  | drawGlyph
  /-- call 1 (R213) -/
  | drawPixel
  /-- call 15 (R214) -/
  | flush
  deriving DecidableEq, Repr

/-- One output event `PeriphCall(n, x[0..7])` (R219). -/
structure PeriphCall where
  fn : PeriphFn
  /-- the registers RA to RH of the issuing context -/
  args : Vector Word 8
  deriving DecidableEq, Repr

/-- The whole machine (R10, R23 to R26, R29). -/
structure State where
  /-- the 256 contexts, by index (R10) -/
  ctxs : Vector Context 256
  /-- the current context (R23) -/
  cur : CtxId
  /-- the terminal state (R24) -/
  halted : Bool
  /-- the pools and the boot image (R25, R26) -/
  mem : Memory
  /-- the MODEL's: the peripheral calls made so far, oldest first (R219, R305; log 7) -/
  periphCalls : List PeriphCall
  /-- the MODEL's: how many unspecified bytes have been drawn (R8; log 5) -/
  draws : Nat
  /-- the MODEL's: how many answers of the peripheral have been taken (R219; log 6) -/
  periphReads : Nat
  deriving DecidableEq, Repr

/-- Why the machine stops with a fault. The hardware's own faults are flag bits, not stops (R289). -/
inductive Fault where
  /-- `step` raises it in a state that has `halted = true`, for which the spec defines no step (R256, U14; log 9). Safe: the
  hardware does not go on either. -/
  | machineHalted
  deriving DecidableEq, Repr

/-- Why the model gives no next state. -/
inductive Refusal where
  /-- `exec` would answer it for an instruction without a meaning; no instruction is in that case. Safe. -/
  | notModelled (mnemonic : String)
  /-- `step` would answer it if the decoder asked for more bytes than the longest instruction has; it is given that many, so
  no step answers it (log 8). Safe. -/
  | windowTooShort
  deriving DecidableEq, Repr

/-- A context after reset, other than context 0: every field zero (R30, R300). -/
def Context.zeroed : Context where
  x := Vector.replicate 16 0
  f := Vector.replicate 4 0
  pc := 0
  sp := 0
  cp := 0
  flags := 0
  cmp := 0
  alive := false
  quantumCount := 0
  space := 0

/-- Context 0 after reset: alive, at the boot entry, its floating-point registers seeded (R30, R300; log 1, log 4). -/
def Context.boot : Context :=
  { Context.zeroed with
    f := Vector.ofFn Config.fpuSeed
    pc := Config.bootEntry
    alive := true }

/-- The machine right after reset: the pools zero (nothing listed), the boot image as the loader left it (nothing listed: each
byte is the parameter `Config.bootByte`), context 0 current (R30, R300; log 2, log 3). -/
def State.reset : State where
  ctxs := (Vector.replicate 256 Context.zeroed).set 0 Context.boot
  cur := 0
  halted := false
  mem := []
  periphCalls := []
  draws := 0
  periphReads := 0

end Sys2Proof.Machine
end

