-- ==== Sys2Proof/Machine/Flags.lean ====
section
/-! DEFINITION. The status bits, the STOP mask, the comparison bits and the jump condition (R16 to R18, R181, R197). -/

namespace Sys2Proof.Machine

/-- The five status conditions (R16, R270). -/
inductive Flag where
  | done
  | halt
  | readError
  | writeError
  | illegalInstruction
  deriving DecidableEq, Repr

/-- The mask of a condition in `flags` (R16, R270, D1). -/
def Flag.mask : Flag → Word
  | .done => 0x01
  | .halt => 0x02
  | .readError => 0x04
  | .writeError => 0x08
  | .illegalInstruction => 0x10

/-- `STOP_MASK`, all five conditions and no other bit (R17, C10). -/
def stopMask : Word := 0x1F

/-- Whether a STOP-mask bit is set (R17, R253). -/
def stopping (flags : Word) : Bool := flags &&& stopMask != 0

/-- EQ in `cmp` (R18, D2). -/
def cmpEQ : Byte := 0x01

/-- LT in `cmp` (R18, D2). -/
def cmpLT : Byte := 0x02

/-- GT in `cmp` (R18, D2). -/
def cmpGT : Byte := 0x04

/-- The outcome bit of a comparison of two integers, exactly one of the three (R197). -/
def compareInts (l r : Int) : Byte := if l = r then cmpEQ else if l < r then cmpLT else cmpGT

/-- `Compare(vD, vS)`: the operands as unsigned numbers, or as two's-complement numbers of the size class's width (R197). -/
def compareBits (sc : SizeClass) (signed : Bool) (vD vS : Word) : Byte :=
  if signed then compareInts (sc.signedValue vD) (sc.signedValue vS) else compareInts vD.toNat vS.toNat

/-- Whether JMP jumps: the mask is a nibble over `cmp` (R180, R181). A reserved mode never does. -/
def condTaken (mode : CondMode) (mask : Nibble) (cmp : Byte) : Bool :=
  match mode with
  | .ifAny => cmp &&& mask.setWidth 8 != 0
  | .ifNone => cmp &&& mask.setWidth 8 == 0
  | .reserved _ => false

end Sys2Proof.Machine
end

