-- ==== Sys2Proof/Machine/Memory.lean ====
section
/-! DEFINITION. The memories as a sparse list of cells in one canonical form, and the physical numbering of their bytes
(R25, R26, R40; log 2, log 12). -/

namespace Sys2Proof.Machine

/-- The three pools of a context (R25). -/
inductive Pool where
  | data
  | code
  | ropd
  deriving DecidableEq, Repr

/-- Where a logical address leads: a pool of a context, or the boot image (R8, R42). -/
inductive Place where
  | pool (p : Pool) (j : CtxId)
  | boot
  deriving DecidableEq, Repr

/-- Bytes of one kind of pool over all 256 contexts, 256 * 65536. -/
def poolSpan : Nat := 0x1000000

/-- First physical address of a kind of pool (log 12). -/
def Pool.base : Pool → Nat
  | .data => 0
  | .code => poolSpan
  | .ropd => 2 * poolSpan

/-- First physical address of the boot image (log 12). -/
def bootBase : Nat := 3 * poolSpan

/-- One past the last physical address: three pools of 65536 bytes for 256 contexts and the 2^24 bytes of the boot image
(R25, R26, D30). -/
def memSize : Nat := 4 * poolSpan

/-- The physical address of the byte of a pool of context `j` at a 16-bit offset (R25). -/
def poolAddr (p : Pool) (j : CtxId) (off : BitVec 16) : Nat := p.base + j.val * 65536 + off.toNat

/-- The physical address of the boot image's byte at a 24-bit offset (R62). -/
def bootAddr (off : BitVec 24) : Nat := bootBase + off.toNat

/-- The byte of a place that a logical address names: `off(A)` in a pool, `A[23:0]` in the boot image (R42, R62). -/
def Place.addr (A : Word) : Place → Nat
  | .pool p j => poolAddr p j (addrOff A)
  | .boot => bootAddr (addrBootOff A)

/-- What an unlisted address reads as: 0 in the pools, which reset zeroes (R30), and an unknown byte in the boot image, whose
contents the spec leaves open (R26, U3; log 2). -/
def Memory.unlisted (a : Nat) : Byte := if a < bootBase then 0 else Config.bootByte (a - bootBase)

/-- A cell that canonical form leaves out, because its address would read the same unlisted: a zero in a pool. A boot byte is
never left out, since what it would read as is unknown (log 2). -/
def Memory.redundant (a : Nat) (v : Byte) : Bool := decide (a < bootBase) && v == 0

/-- One byte. -/
def Memory.read : Memory → Nat → Byte
  | [], a => unlisted a
  | (k, v) :: m, a => if k = a then v else read m a

/-- The list with one cell put at its place in the rising order. -/
def Memory.insert (a : Nat) (v : Byte) : Memory → Memory
  | [] => [(a, v)]
  | (k, w) :: m => if a < k then (a, v) :: (k, w) :: m else if a = k then (a, v) :: m else (k, w) :: insert a v m

/-- The list without an address. -/
def Memory.erase (a : Nat) (m : Memory) : Memory := m.filter fun c => c.1 != a

/-- One byte becomes `v`; canonical form is kept. -/
def Memory.write (m : Memory) (a : Nat) (v : Byte) : Memory :=
  if redundant a v then erase a m else insert a v m

/-- Canonical form: addresses strictly rising and inside the memories, no redundant cell. -/
abbrev Memory.wf (m : Memory) : Prop :=
  m.Pairwise (fun c d => c.1 < d.1) ∧ ∀ c ∈ m, c.1 < memSize ∧ Memory.redundant c.1 c.2 = false

/-- The `n` bytes of a place from a logical address on; the address of byte `i` is `AddrAdd(A, i)` (R46). -/
def Memory.load (m : Memory) (p : Place) (A : Word) (n : Nat) : List Byte :=
  (List.range n).map fun i : Nat => m.read (p.addr (addrAdd A i))

/-- Bytes stored in a place, the first of them at `AddrAdd(A, i)` (R47). -/
def Memory.store (p : Place) (A : Word) (i : Nat) : List Byte → Memory → Memory
  | [], m => m
  | b :: bs, m => Memory.store p A (i + 1) bs (m.write (p.addr (addrAdd A i)) b)

end Sys2Proof.Machine
end

