-- ==== Sys2Proof/Machine/Ops.lean ====
section
/-! DEFINITION. The operations that every meaning is written in: the register file of the current context, raising a flag, the
Address Router, sized reads and writes, the program counter's advance, push and pop. -/

namespace Sys2Proof.Machine

/-! ### The register file -/

/-- Context `c` (R10). -/
def State.ctx (s : State) (c : CtxId) : Context := s.ctxs[c.val]

/-- The state with context `c` replaced. -/
def State.setCtx (s : State) (c : CtxId) (k : Context) : State := { s with ctxs := s.ctxs.set c.val k }

/-- The current context, the one that executes (R23, R251). -/
def State.own (s : State) : Context := s.ctx s.cur

/-- The state with the current context replaced. -/
def State.setOwn (s : State) (k : Context) : State := s.setCtx s.cur k

/-- `x[r]` of the current context (R7, R11). -/
def State.x (s : State) (r : Reg) : Word := s.own.x[r.val]

/-- `f[r]` of the current context (R7, R19). -/
def State.f (s : State) (r : FReg) : Word := s.own.f[r.val]

/-- `x[r] <- v`; no register is hardwired (R11). -/
def State.setX (s : State) (r : Reg) (v : Word) : State := s.setOwn { s.own with x := s.own.x.set r.val v }

/-- `f[r] <- v` (R19). -/
def State.setF (s : State) (r : FReg) (v : Word) : State := s.setOwn { s.own with f := s.own.f.set r.val v }

/-- `pc <- t` (R13). -/
def State.setPc (s : State) (t : Word) : State := s.setOwn { s.own with pc := t }

/-- `cp <- t` (R15). -/
def State.setCp (s : State) (t : Word) : State := s.setOwn { s.own with cp := t }

/-- `sp <- t`; no instruction does it (R14, R235). -/
def State.setSp (s : State) (t : Word) : State := s.setOwn { s.own with sp := t }

/-- `cmp <- v` (R18). -/
def State.setCmp (s : State) (v : Byte) : State := s.setOwn { s.own with cmp := v }

/-- The advance of `pc` over `n` fetched bytes (R13, R50). -/
def State.advance (s : State) (n : Nat) : State := s.setPc (addrAdd s.own.pc n)

/-! ### Exceptions -/

/-- `raise F`, the whole of raising an exception: the condition's bit is ORed into `flags` of the executing context. Control
goes nowhere, nothing is saved; the trap is taken by the scheduler at the end of the step (R8, R270, R279; `schedulerCheck`).
There is no return from it (R281). -/
def State.raise (s : State) (F : Flag) : State := s.setOwn { s.own with flags := s.own.flags ||| F.mask }

/-- ILLEGAL_INSTRUCTION and `abort` after `n` fetched bytes: `pc` stays behind them and nothing else happens
(R81, R108). -/
def State.illegalAfter (s : State) (n : Nat) : State := (s.advance n).raise .illegalInstruction

/-! ### Unspecified values -/

/-- The next `n` bytes of the free stream, an `unspecified_(8n)` draw (R8, R48; log 5). -/
def State.unspecBytes (s : State) (n : Nat) : List Byte := (List.range n).map fun i : Nat => Config.unspecByte (s.draws + i)

/-- The next four bytes of the free stream as a word, an `unspecified_32` draw (R8; log 5). -/
def State.unspecWord (s : State) : Word := leWord (s.unspecBytes 4)

/-- `n` bytes of the free stream have been drawn, so the next draw is fresh (R48; log 5). -/
def State.drawn (s : State) (n : Nat) : State := { s with draws := s.draws + n }

/-! ### The Address Router -/

/-- A context is privileged exactly when its `space` is 0 (R22, R44). -/
def Context.privileged (k : Context) : Bool := k.space == 0

/-- `Route(A, R)` for issuing context `c`; `none` is `Fail` (R42, R44, R55). -/
def routeRead (c : CtxId) (privileged : Bool) (A : Word) : Option Place :=
  let t := (addrTag A).toNat
  if t ≤ 0x0F then some (.pool .data c)
  else if t = 0x10 then some (.pool .code c)
  else if t = 0x11 then some (.pool .ropd c)
  else if !privileged then none
  else if 0xD0 ≤ t ∧ t ≤ 0xDF then some (.pool .data (addrSub A))
  else if t = 0xE0 then some (.pool .code (addrSub A))
  else if t = 0xE1 then some (.pool .ropd (addrSub A))
  else if t = 0xFF then some .boot
  else none

/-- `Route(A, W)` for issuing context `c`; `none` is `Fail`. The row of tag 0xE0 exists only under the switch
(R43, R44, D29; log 16). -/
def routeWrite (c : CtxId) (privileged : Bool) (A : Word) : Option Place :=
  let t := (addrTag A).toNat
  if t ≤ 0x0F then some (.pool .data c)
  else if !privileged then none
  else if 0xD0 ≤ t ∧ t ≤ 0xDF then some (.pool .data (addrSub A))
  else if Config.codeWritableSpecific ∧ t = 0xE0 then some (.pool .code (addrSub A))
  else none

/-- The route of a read by the current context (R42, R44). -/
def State.readRoute (s : State) (A : Word) : Option Place := routeRead s.cur s.own.privileged A

/-- The route of a write by the current context (R43, R44). -/
def State.writeRoute (s : State) (A : Word) : Option Place := routeWrite s.cur s.own.privileged A

/-! ### Sized accesses -/

/-- The bytes a read at `A` yields: those of the place it routes to, or an unspecified draw (R46, R48). -/
def State.readBytes (s : State) (A : Word) (n : Nat) : List Byte :=
  match s.readRoute A with
  | some p => s.mem.load p A n
  | none => s.unspecBytes n

/-- What a read at `A` does to the state: nothing, or on a failed route READ_ERROR and the draw (R46, R48). -/
def State.afterRead (s : State) (A : Word) (n : Nat) : State :=
  match s.readRoute A with
  | some _ => s
  | none => (s.drawn n).raise .readError

/-- `MemRead(A, n)`: the little-endian value, zero-extended, and the state after it (R46, R48). -/
def State.memRead (s : State) (A : Word) (n : Nat) : Word × State := (leWord (s.readBytes A n), s.afterRead A n)

/-- `MemWrite(A, n, v)`: the low `n` bytes of `v` little-endian, or on a failed route WRITE_ERROR and nothing stored
(R47, R49). -/
def State.memWrite (s : State) (A : Word) (n : Nat) (v : Word) : State :=
  match s.writeRoute A with
  | some p => { s with mem := Memory.store p A 0 (leBytes n v) s.mem }
  | none => s.raise .writeError

/-! ### Stacks -/

/-- The pointer registers that push and pop are defined for (R14, R230, R231). -/
inductive StackPointer where
  | cp
  | sp
  deriving DecidableEq, Repr

/-- The pointer register's value. -/
def State.pointer (s : State) : StackPointer → Word
  | .cp => s.own.cp
  | .sp => s.own.sp

/-- The pointer register moved. -/
def State.setPointer (s : State) (P : StackPointer) (t : Word) : State :=
  match P with
  | .cp => s.setCp t
  | .sp => s.setSp t

/-- `Push(P, n, v)`: the write, then the pointer moves up, also when the write failed (R230). -/
def State.push (s : State) (P : StackPointer) (n : Nat) (v : Word) : State :=
  (s.memWrite (s.pointer P) n v).setPointer P (addrAdd (s.pointer P) n)

/-- `Pop(P, n)`: the pointer moves down, then the read (R231). -/
def State.pop (s : State) (P : StackPointer) (n : Nat) : Word × State :=
  (s.setPointer P (addrAdd (s.pointer P) (-n))).memRead (addrAdd (s.pointer P) (-n)) n

end Sys2Proof.Machine
end

