-- ==== Sys2Proof/Machine/Operands.lean ====
section
/-! DEFINITION. The operand forms: the value of an operand of each kind, the ALU's right operand, MOV's destination
(R75, R106, R107, R120, R143). -/

namespace Sys2Proof.Machine

/-- `ReadOperand`, which is also the value of `ResolveSingle`: `tz` bytes, zero-extended, and the state after the memory read
(R75, R106, R107). -/
def State.readOperand (s : State) (sc : SizeClass) : Operand → Word × State
  | .reg r => (s.x r &&& sc.mask, s)
  | .ind r => s.memRead (s.x r) sc.bytes
  | .mem A => s.memRead A sc.bytes
  | .imm v => (v, s)

/-- The ALU's right operand: all 32 bits of a register, or the zero-extended immediate (R120). -/
def State.aluSource (s : State) : AluSrc → Word
  | .reg r => s.x r
  | .imm v => v

/-- MOV's destination write; a register is replaced whole. An immediate is no destination: `movLegal` excludes it, and nothing
is written (R141, R143). -/
def State.writeDest (s : State) (sc : SizeClass) (v : Word) : Operand → State
  | .reg r => s.setX r v
  | .ind r => s.memWrite (s.x r) sc.bytes v
  | .mem A => s.memWrite A sc.bytes v
  | .imm _ => s

end Sys2Proof.Machine
end

