-- ==== Sys2Proof/Machine/Control.lean ====
section
/-! DEFINITION. HALT, JMP, CALL and RET (R104, R180, R232, R233). -/

namespace Sys2Proof.Machine

/-- The outcome of a meaning. -/
abbrev Out := Host.Outcome State Fault Refusal

/-- HALT: raises HALT; the context dies at the scheduler's check (R104). -/
def execHalt (s : State) : Out := .next ((s.advance (Instr.length .halt)).raise .halt)

/-- JMP's `base`: `pc` after the instruction word and before the `am` byte (R180, R182, D22). -/
def jumpBase (s : State) : Word := addrAdd s.own.pc 2

/-- JMP's target, a sum modulo 2^32 of whole addresses (R180, R182). -/
def jumpTarget (absolute negate : Bool) (base offset : Word) : Word :=
  (if absolute then 0 else base) + (if negate then -offset else offset)

/-- JMP after its operand is resolved: the condition, then the write of `pc` (R180, R183). -/
def jumpOn (mode : CondMode) (mask : Nibble) (target : Word) (s : State) : State :=
  match mode with
  | .reserved _ => s.raise .illegalInstruction
  | _ => if condTaken mode mask s.own.cmp then s.setPc target else s

/-- JMP: the operand is resolved whether or not the jump is taken; a reserved condition mode is found after that and leaves
`pc` behind the operand (R180 to R184). -/
def execJmp (sc : SizeClass) (absolute negate : Bool) (mode : CondMode) (mask : Nibble) (op : Operand) (s : State) : Out :=
  let r := (s.advance (Instr.length (.jmp sc absolute negate mode mask op))).readOperand sc op
  .next (jumpOn mode mask (jumpTarget absolute negate (jumpBase s) r.1) r.2)

/-- CALL: the target is the operand's value; the address of the next instruction is pushed on the call stack (R232). -/
def execCall (sc : SizeClass) (op : Operand) (s : State) : Out :=
  let r := (s.advance (Instr.length (.call sc op))).readOperand sc op
  .next ((r.2.push .cp 4 r.2.own.pc).setPc r.1)

/-- RET: `pc` is popped from the call stack (R233). -/
def execRet (s : State) : Out :=
  let r := (s.advance (Instr.length .ret)).pop .cp 4
  .next (r.2.setPc r.1)

end Sys2Proof.Machine
end

