-- ==== Sys2Proof/Machine/Alu.lean ====
section
/-! DEFINITION. The ALU instructions (R120 to R130): seven operations in one frame. -/

namespace Sys2Proof.Machine

/-- The common frame: `x[a] <- op(x[a], b) AND sz`, operands not masked, after `length` bytes (R120). -/
def aluFrame (op : Word → Word → Word) (length : Nat) (sc : SizeClass) (a : Reg) (b : AluSrc) (s : State) : State :=
  (s.advance length).setX a (op (s.x a) (s.aluSource b) &&& sc.mask)

/-- ADD (R121). -/
def execAdd (sc : SizeClass) (a : Reg) (b : AluSrc) (s : State) : Out :=
  .next (aluFrame (fun u v => u + v) (Instr.length (.add sc a b)) sc a b s)

/-- SUB (R122). -/
def execSub (sc : SizeClass) (a : Reg) (b : AluSrc) (s : State) : Out :=
  .next (aluFrame (fun u v => u - v) (Instr.length (.sub sc a b)) sc a b s)

/-- MUL, the low 32 bits of the product (R123). -/
def execMul (sc : SizeClass) (a : Reg) (b : AluSrc) (s : State) : Out :=
  .next (aluFrame (fun u v => u * v) (Instr.length (.mul sc a b)) sc a b s)

/-- DIV: unsigned and truncating, of the unmasked operands; a zero divisor raises ILLEGAL_INSTRUCTION after all operand bytes
and leaves the destination (R124). -/
def execDiv (sc : SizeClass) (a : Reg) (b : AluSrc) (s : State) : Out :=
  if s.aluSource b = 0 then .next (s.illegalAfter (Instr.length (.div sc a b)))
  else .next (aluFrame (fun u v => u / v) (Instr.length (.div sc a b)) sc a b s)

/-- AND (R125). -/
def execAnd (sc : SizeClass) (a : Reg) (b : AluSrc) (s : State) : Out :=
  .next (aluFrame (fun u v => u &&& v) (Instr.length (.and sc a b)) sc a b s)

/-- OR (R126). -/
def execOr (sc : SizeClass) (a : Reg) (b : AluSrc) (s : State) : Out :=
  .next (aluFrame (fun u v => u ||| v) (Instr.length (.or sc a b)) sc a b s)

/-- XOR (R127). -/
def execXor (sc : SizeClass) (a : Reg) (b : AluSrc) (s : State) : Out :=
  .next (aluFrame (fun u v => u ^^^ v) (Instr.length (.xor sc a b)) sc a b s)

end Sys2Proof.Machine
end

