-- ==== Sys2Proof/Machine/Float.lean ====
section
/-! DEFINITION. Binary32 arithmetic: the int32 conversions and add, subtract, multiply, divide, computed exactly and rounded
once to nearest, ties to even (R161 to R168, D19; G1 to G3 are general knowledge, so PRESUMED: log 18). -/

namespace Sys2Proof.Machine

/-- What a binary32 pattern stands for (R168). A finite value is `m * 2^e`, negated if `neg`. -/
inductive FpValue where
  | nan
  | inf (neg : Bool)
  | finite (neg : Bool) (m : Nat) (e : Int)
  deriving DecidableEq, Repr

/-- The result of an operation: a pattern, or a NaN whose sign and payload the spec leaves open (R168, U5). -/
inductive FpResult where
  | pattern (w : Word)
  | nan
  deriving DecidableEq, Repr

/-- Sign bit 31, exponent bits 30:23 with bias 127, fraction bits 22:0, subnormals kept (R168). -/
def fpUnpack (w : Word) : FpValue :=
  let neg := w.getLsbD 31
  let ex := (w.extractLsb' 23 8).toNat
  let frac := (w.extractLsb' 0 23).toNat
  if ex = 255 then (if frac = 0 then .inf neg else .nan)
  else if ex = 0 then .finite neg frac (-149)
  else .finite neg (0x800000 + frac) ((ex : Int) - 150)

/-- A pattern from a sign and the 31 bits below it. -/
def fpPack (neg : Bool) (magnitude : Nat) : Word := BitVec.ofNat 32 ((if neg then 0x80000000 else 0) + magnitude)

/-- The 31 magnitude bits of an infinity. -/
def fpInfBits : Nat := 0x7F800000

/-- `m / 2^k` rounded to nearest, ties to even; `sticky` says that the true value lies a little above `m` (R168). -/
def roundShift (m k : Nat) (sticky : Bool) : Nat :=
  let q := m >>> k
  let r := m % 2 ^ k
  let half := 2 ^ k / 2
  if half < r ∨ (r = half ∧ 0 < k ∧ (sticky ∨ q % 2 = 1)) then q + 1 else q

/-- The exponent of the last place of the binary32 numbers around `m * 2^e`, never below that of the subnormals. -/
def ulpExponent (m : Nat) (e : Int) : Int := max (e + (m.log2 : Int) - 23) (-149)

/-- The binary32 pattern nearest to `m * 2^e`, ties to even, overflow to infinity (R161, R165, R168). `sticky` says that the
true magnitude lies a little above; then `m` has more bits than a significand, so that it is shifted right. -/
def fpRound (neg : Bool) (m : Nat) (e : Int) (sticky : Bool) : Word :=
  if m = 0 then fpPack neg 0
  else
    let t := ulpExponent m e
    let q := if e ≤ t then roundShift m (t - e).toNat sticky else m <<< (e - t).toNat
    let bits := (t + 149).toNat * 0x800000 + q
    fpPack neg (if fpInfBits ≤ bits then fpInfBits else bits)

/-- `IntToFloat(v)`: the binary32 value nearest to the int32 (R161, G1). -/
def intToFloat (v : Word) : Word := fpRound (decide (v.toInt < 0)) v.toInt.natAbs 0 false

/-- The magnitude `m * 2^e` rounded towards zero (R162). -/
def truncMagnitude (m : Nat) (e : Int) : Nat := if 0 ≤ e then m <<< e.toNat else m >>> (-e).toNat

/-- `FloatToInt(w)`: the truncated value in two's complement; `none` for a NaN, an infinity or a value out of range, where the
spec gives no value (R162, G2, U4). -/
def floatToInt (w : Word) : Option Word :=
  match fpUnpack w with
  | .finite neg m e =>
    let t : Int := if neg then -(truncMagnitude m e : Int) else truncMagnitude m e
    if -0x80000000 ≤ t ∧ t ≤ 0x7FFFFFFF then some (BitVec.ofInt 32 t) else none
  | _ => none

/-- A significand and sign as an integer. -/
def signedMagnitude (neg : Bool) (m : Nat) : Int := if neg then -(m : Int) else m

/-- The sum (R163, R168): finite values are added exactly and rounded; an exact zero is `-0` only if both operands are. -/
def fpAdd (a b : Word) : FpResult :=
  match fpUnpack a, fpUnpack b with
  | .nan, _ => .nan
  | _, .nan => .nan
  | .inf na, .inf nb => if na = nb then .pattern (fpPack na fpInfBits) else .nan
  | .inf na, .finite _ _ _ => .pattern (fpPack na fpInfBits)
  | .finite _ _ _, .inf nb => .pattern (fpPack nb fpInfBits)
  | .finite na ma ea, .finite nb mb eb =>
    let e := min ea eb
    let v := signedMagnitude na (ma <<< (ea - e).toNat) + signedMagnitude nb (mb <<< (eb - e).toNat)
    .pattern (if v = 0 then fpPack (na && nb) 0 else fpRound (decide (v < 0)) v.natAbs e false)

/-- The pattern with its sign bit flipped. -/
def fpNeg (w : Word) : Word := w ^^^ 0x80000000

/-- The difference, as the sum with the right operand's sign flipped (R164, R168). -/
def fpSub (a b : Word) : FpResult := fpAdd a (fpNeg b)

/-- The product (R165, R168). -/
def fpMul (a b : Word) : FpResult :=
  match fpUnpack a, fpUnpack b with
  | .nan, _ => .nan
  | _, .nan => .nan
  | .inf na, .inf nb => .pattern (fpPack (na != nb) fpInfBits)
  | .inf na, .finite nb m _ => if m = 0 then .nan else .pattern (fpPack (na != nb) fpInfBits)
  | .finite na m _, .inf nb => if m = 0 then .nan else .pattern (fpPack (na != nb) fpInfBits)
  | .finite na ma ea, .finite nb mb eb => .pattern (fpRound (na != nb) (ma * mb) (ea + eb) false)

/-- Bits added below the dividend, so that every quotient has more bits than a significand. -/
def divGuardBits : Nat := 64

/-- The quotient (R166, R168): a finite non-zero value over a zero is an infinity, `0 / 0` and `inf / inf` are NaN. -/
def fpDiv (a b : Word) : FpResult :=
  match fpUnpack a, fpUnpack b with
  | .nan, _ => .nan
  | _, .nan => .nan
  | .inf _, .inf _ => .nan
  | .inf na, .finite nb _ _ => .pattern (fpPack (na != nb) fpInfBits)
  | .finite na _ _, .inf nb => .pattern (fpPack (na != nb) 0)
  | .finite na ma ea, .finite nb mb eb =>
    if mb = 0 then (if ma = 0 then .nan else .pattern (fpPack (na != nb) fpInfBits))
    else
      let n := ma <<< divGuardBits
      .pattern (fpRound (na != nb) (n / mb) (ea - eb - divGuardBits) (decide (n % mb ≠ 0)))

/-- A NaN pattern made from a free word: its sign bit, exponent all ones, its fraction kept from being 0. Every NaN pattern
comes from some word (R168, U5; log 14). -/
def nanFrom (w : Word) : Word :=
  (w ||| 0x7F800000) ||| (if w.extractLsb' 0 23 = 0 then 1 else 0)

/-- The word an operation writes, `free` supplying the open bits of a NaN (R168, U5). -/
def FpResult.value (free : Word) : FpResult → Word
  | .pattern w => w
  | .nan => nanFrom free

/-- How many bytes of the free stream the result takes. -/
def FpResult.drawCount : FpResult → Nat
  | .pattern _ => 0
  | .nan => 4

end Sys2Proof.Machine
end

