-- ==== Sys2Proof/Machine/Fpu.lean ====
section
/-! DEFINITION. The FPU instructions (R160 to R169). -/

namespace Sys2Proof.Machine

/-- ITOF: `f[d] <- IntToFloat(x[s])` (R161). -/
def execItof (d : FReg) (src : Reg) (s : State) : Out :=
  .next ((s.advance (Instr.length (.itof d src))).setF d (intToFloat (s.x src)))

/-- FTOI: `x[d] <- FloatToInt(f[s])`, a free word where the spec gives no value (R162, U4; log 13). -/
def execFtoi (d : Reg) (src : FReg) (s : State) : Out :=
  let v := floatToInt (s.f src)
  .next (((s.advance (Instr.length (.ftoi d src))).setX d (v.getD s.unspecWord)).drawn (if v.isNone then 4 else 0))

/-- The frame of the four binary operations: `f[d] <- op(f[d], f[s])`, a NaN's open bits drawn freely (R160, R168; log 14). -/
def fpuFrame (op : Word → Word → FpResult) (length : Nat) (d src : FReg) (s : State) : State :=
  let v := op (s.f d) (s.f src)
  ((s.advance length).setF d (v.value s.unspecWord)).drawn v.drawCount

/-- FADD (R163). -/
def execFadd (d src : FReg) (s : State) : Out := .next (fpuFrame fpAdd (Instr.length (.fadd d src)) d src s)

/-- FSUB (R164). -/
def execFsub (d src : FReg) (s : State) : Out := .next (fpuFrame fpSub (Instr.length (.fsub d src)) d src s)

/-- FMUL (R165). -/
def execFmul (d src : FReg) (s : State) : Out := .next (fpuFrame fpMul (Instr.length (.fmul d src)) d src s)

/-- FDIV: division by zero is no fault (R166). -/
def execFdiv (d src : FReg) (s : State) : Out := .next (fpuFrame fpDiv (Instr.length (.fdiv d src)) d src s)

end Sys2Proof.Machine
end

