-- ==== Sys2Proof/Machine/Interrupt.lean ====
section
/-! DEFINITION. INT and the boundary to the peripheral (R210 to R222). -/

namespace Sys2Proof.Machine

/-- `x[0..7]` of the current context, the argument slots of a peripheral call (R211, R219). -/
def State.periphArgs (s : State) : Vector Word 8 := Vector.ofFn fun i : Fin 8 => s.x ⟨i.val, by omega⟩

/-- `PeriphCall(n, x[0..7])`: an output event; nothing else of the core changes (R219; log 7). -/
def State.periphCall (s : State) (fn : PeriphFn) : State :=
  { s with periphCalls := s.periphCalls ++ [{ fn := fn, args := s.periphArgs }] }

/-- `PeriphIn()`: the next answer of the peripheral (R219; log 6). -/
def State.periphAnswer (s : State) (i : Nat) : Word := Config.periphIn (s.periphReads + i)

/-- `n` answers of the peripheral have been taken. -/
def State.periphTaken (s : State) (n : Nat) : State := { s with periphReads := s.periphReads + n }

/-- The peripheral calls that INT makes (R211). -/
inductive PeriphRequest where
  /-- calls 0, 1 and 15: an output event (R212 to R214) -/
  | emit (fn : PeriphFn)
  /-- call 16 (R215) -/
  | lastKey
  /-- call 17 (R216) -/
  | pressedKeys
  /-- every other code: no effect (R217, R218) -/
  | nothing
  deriving DecidableEq, Repr

/-- What an interrupt code asks for: the range test is on all 32 bits, the dispatch on the low byte (R210, R211, D26). -/
def periphRequest (code : Word) : PeriphRequest :=
  if 0xFF00 ≤ code.toNat ∧ code.toNat ≤ 0xFFFF then
    match code.toNat - 0xFF00 with
    | 0 => .emit .drawGlyph
    | 1 => .emit .drawPixel
    | 15 => .emit .flush
    | 16 => .lastKey
    | 17 => .pressedKeys
    | _ => .nothing
  else .nothing

/-- `Peripheral(n)` on the issuing context (R211 to R217). -/
def State.peripheral (s : State) : PeriphRequest → State
  | .emit fn => s.periphCall fn
  | .lastKey => (s.setX 0 (s.periphAnswer 0)).periphTaken 1
  | .pressedKeys => ((s.setX 0 (s.periphAnswer 0)).setX 1 (s.periphAnswer 1)).periphTaken 2
  | .nothing => s

/-- INT: a synchronous call out of the core; it raises nothing and transfers control nowhere (R210). -/
def execInt (code : Word) (s : State) : Out := .next ((s.advance (Instr.length (.int code))).peripheral (periphRequest code))

end Sys2Proof.Machine
end

