-- ==== Sys2Proof/Machine/Move.lean ====
section
/-! DEFINITION. MOV and CMP, the two instructions of format D (R140 to R146, R195 to R200). -/

namespace Sys2Proof.Machine

/-- MOV: the source is read, then the destination written. The kind pairs that R141 makes illegal abort after the `io` byte;
the decoder rejects them already, so no decoded instruction takes that branch (R140, R141, R143; log 19). -/
def execMov (sc : SizeClass) (dst src : Operand) (s : State) : Out :=
  if movLegal dst.kind src.kind then
    let r := (s.advance (Instr.length (.mov sc dst src))).readOperand sc src
    .next (r.2.writeDest sc r.1 dst)
  else .next (s.illegalAfter 3)

/-- CMP: the source-position operand is read first, then the destination-position one, which is the left side; `K = 0` clears
`cmp` before the outcome is ORed in. Illegal kind pairs as for MOV, with `cmp` untouched (R195 to R198; log 19). -/
def execCmp (sc : SizeClass) (signed keep : Bool) (dst src : Operand) (s : State) : Out :=
  if cmpLegal dst.kind src.kind then
    let r := (s.advance (Instr.length (.cmp sc signed keep dst src))).readOperand sc src
    let l := r.2.readOperand sc dst
    .next (l.2.setCmp ((if keep then l.2.own.cmp else 0) ||| compareBits sc signed l.1 r.1))
  else .next (s.illegalAfter 3)

end Sys2Proof.Machine
end

