-- ==== Sys2Proof/Machine/Dispatch.lean ====
section
/-! DEFINITION. `exec`: one instruction of the current context, whose `pc` is at the instruction's first byte; the meaning
advances `pc` over the instruction's bytes (R100, R102). -/

namespace Sys2Proof.Machine

def exec (i : Instr) (s : State) : Host.Outcome State Fault Refusal :=
  match i with
  | .halt => Sys2Proof.Machine.execHalt s
  | .add sc a b => Sys2Proof.Machine.execAdd sc a b s
  | .sub sc a b => Sys2Proof.Machine.execSub sc a b s
  | .mul sc a b => Sys2Proof.Machine.execMul sc a b s
  | .div sc a b => Sys2Proof.Machine.execDiv sc a b s
  | .and sc a b => Sys2Proof.Machine.execAnd sc a b s
  | .or sc a b => Sys2Proof.Machine.execOr sc a b s
  | .xor sc a b => Sys2Proof.Machine.execXor sc a b s
  | .mov sc dst src => Sys2Proof.Machine.execMov sc dst src s
  | .itof d src => Sys2Proof.Machine.execItof d src s
  | .ftoi d src => Sys2Proof.Machine.execFtoi d src s
  | .fadd d src => Sys2Proof.Machine.execFadd d src s
  | .fsub d src => Sys2Proof.Machine.execFsub d src s
  | .fmul d src => Sys2Proof.Machine.execFmul d src s
  | .fdiv d src => Sys2Proof.Machine.execFdiv d src s
  | .jmp sc absolute negate mode mask op => Sys2Proof.Machine.execJmp sc absolute negate mode mask op s
  | .cmp sc signed keep dst src => Sys2Proof.Machine.execCmp sc signed keep dst src s
  | .int code => Sys2Proof.Machine.execInt code s
  | .call sc op => Sys2Proof.Machine.execCall sc op s
  | .ret => Sys2Proof.Machine.execRet s

end Sys2Proof.Machine
end

