-- ==== Sys2Proof/Machine/Fetch.lean ====
section
/-! DEFINITION. Fetching an instruction's bytes through the router, what an undecodable encoding does, and the placing of bytes
where the next fetch reads (R81, R101, R105). -/

namespace Sys2Proof.Machine

/-- The bytes at `pc`, as many as the longest instruction has. All of them take one route, so this agrees with fetching them
group by group: what is beyond the instruction has no effect (R46, R101, R110; log 8). -/
def State.fetchWindow (s : State) : List Byte := s.readBytes s.own.pc maxLength

/-- The state after the fetch: unchanged, or READ_ERROR raised and the draw made if the fetch fails (R48, R101; log 8). -/
def State.afterFetch (s : State) : State := s.afterRead s.own.pc maxLength

/-- An encoding that is no instruction: ILLEGAL_INSTRUCTION and abort at R81's point. An undefined opcode is a 2-byte no-op
when the switch says so (R81, R105, R108). -/
def State.rejectEffect (s : State) (e : DecodeReject) : State :=
  if e = .undefinedOpcode ∧ Config.undefOpcodeIllegal = false then s.advance e.consumed
  else s.illegalAfter e.consumed

/-- Bytes put at the physical addresses from which the current context's fetch at `pc` reads; nothing where the fetch would
fail (log 3). -/
def State.placeAtPc (s : State) (bytes : List Byte) : State :=
  match s.readRoute s.own.pc with
  | some p => { s with mem := Memory.store p s.own.pc 0 bytes s.mem }
  | none => s

end Sys2Proof.Machine
end

