-- ==== Sys2Proof/Machine/Scheduler.lean ====
section
/-! DEFINITION. The scheduler's check at the end of every instruction: quantum, context death, the search, the halt
(R250 to R259). This is where a trap is taken (R279). -/

namespace Sys2Proof.Machine

/-- The search from the context after `c`: the first alive one of the next `n` indices, modulo 256 (R254, R255). -/
def searchAlive (s : State) : Nat → CtxId → CtxId
  | 0, c => c
  | n + 1, c => if (s.ctx (c + 1)).alive then c + 1 else searchAlive s n (c + 1)

/-- `alive[c] <- false` if `stop`, and `quantum_count[c] <- 0`: the end of a quantum (R253, R279). -/
def Context.endQuantum (k : Context) (stop : Bool) : Context :=
  { k with quantumCount := 0, alive := k.alive && !stop }

/-- The switch: halt if context 0 is no longer alive, else the search (R252 to R254). -/
def switchContext (s : State) : State :=
  if (s.ctx 0).alive then { s with cur := searchAlive s 256 s.cur } else { s with halted := true }

/-- Steps 2 and 3 of the machine step, after the instruction of the current context (R250, R252, R253). -/
def schedulerCheck (s : State) : State :=
  if (s.ctx 0).alive then
    if s.own.quantumCount + 1 = Config.quantum ∨ stopping s.own.flags then
      switchContext (s.setOwn (s.own.endQuantum (stopping s.own.flags)))
    else s.setOwn { s.own with quantumCount := s.own.quantumCount + 1 }
  else { s with halted := true }

end Sys2Proof.Machine
end

