-- ==== Sys2Proof/Machine/Execute.lean ====
section
/-! DEFINITION. One instruction, fetched, decoded and executed, and the scheduler's check after it (R100 to R102, R250). -/

namespace Sys2Proof.Machine

/-- The scheduler's check after an instruction that has completed. -/
def thenSchedule : Host.Outcome State Fault Refusal → Host.Outcome State Fault Refusal
  | .next s => .next (schedulerCheck s)
  | .fault r => .fault r
  | .refused r => .refused r

/-- `Step(c)` on the current context: fetch, decode, execute (R100 to R102). -/
def instructionStep (s : State) : Host.Outcome State Fault Refusal :=
  match decode s.fetchWindow with
  | .ok (i, _) => exec i s.afterFetch
  | .error .truncated => .refused .windowTooShort
  | .error e => .next (s.afterFetch.rejectEffect e)

end Sys2Proof.Machine
end

