-- ==== Sys2Proof/Machine/Step.lean ====
section
/-! DEFINITION. The machine step: one instruction of the current context, then the scheduler's check (R100, R250). -/

namespace Sys2Proof.Machine

/-- `MachineStep`, defined only while `halted` is false (R250, R256). -/
def step (s : State) : Host.Outcome State Fault Refusal :=
  if s.halted then .fault .machineHalted else thenSchedule (instructionStep s)

/-- The state with an instruction, given as an opcode-table word, where the next step fetches (log 3). -/
def State.withFetchWord (s : State) (nbits w : Nat) : State := s.placeAtPc (tableBytes nbits w)

end Sys2Proof.Machine
end

