-- ==== Sys2Proof/Machine/Launch.lean ====
section
/-! DEFINITION. The host's side: the boot load, the launch state, the host's one move during a run (R301, R302, R306). -/

namespace Sys2Proof.Machine

/-- The external loader's delivery: bytes of the boot image from offset `i` on (R26, R302; log 3). The spec gives the length as a
u32 and the capacity as 2^24 bytes, and does not say what a longer image does. DESIGN CHOICE, unsafe: the offset wraps modulo
2^24, so later bytes replace the first ones (log 22). -/
def Memory.loadBoot (i : Nat) : List Byte → Memory → Memory
  | [], m => m
  | b :: bs, m => Memory.loadBoot (i + 1) bs (m.write (bootAddr (BitVec.ofNat 24 i)) b)

/-- The state with a boot image delivered (R302); one longer than 2^24 bytes wraps (log 22). -/
def State.loadBoot (s : State) (image : List Byte) : State := { s with mem := Memory.loadBoot 0 image s.mem }

/-- What a launch state must satisfy (R301). Everything else the host may have preset. -/
def State.Launch (s : State) : Prop :=
  (s.ctx 0).alive = true ∧ (s.ctx s.cur).alive = true ∧ s.halted = false ∧
  ∀ c : CtxId,
    ((s.ctx c).alive = true → (s.ctx c).flags &&& stopMask = 0) ∧ (s.ctx c).quantumCount = 0 ∧
    (s.ctx c).flags.extractLsb' 5 27 = 0 ∧ (s.ctx c).cmp.extractLsb' 3 5 = 0

/-- The host's move between two machine steps: `alive[0] <- false` (R306). -/
def State.hostKill (s : State) : State := s.setCtx 0 { s.ctx 0 with alive := false }

end Sys2Proof.Machine
end

