-- ==== Sys2Proof/Safety.lean ====
section
/-! DEFINITION. What claims call a proper state and an orderly end (R28, R259, R289, R305), and the vocabulary of frames: what
an instruction leaves as it was. -/

namespace Sys2Proof.Machine

/-- The invariants of a running machine and of each context, with the canonical form of the memory (R28, R259). -/
structure State.Proper (s : State) : Prop where
  /-- the memory is in canonical form -/
  memory : s.mem.wf
  /-- while the machine runs, context 0 and the current context are alive -/
  running : s.halted = false → (s.ctx 0).alive = true ∧ s.own.alive = true
  /-- an alive context has no STOP-mask flag set -/
  unstopped : ∀ c, (s.ctx c).alive = true → (s.ctx c).flags &&& stopMask = 0
  /-- the count is 0 in every context but the current one -/
  countElsewhere : ∀ c, c ≠ s.cur → (s.ctx c).quantumCount = 0
  /-- the count is 0 to 15 -/
  countBound : s.own.quantumCount.toNat < 16
  /-- `flags[31:5]` stay 0 -/
  flagsReserved : ∀ c, (s.ctx c).flags.extractLsb' 5 27 = 0
  /-- `cmp[7:3]` stay 0 -/
  cmpReserved : ∀ c, (s.ctx c).cmp.extractLsb' 3 5 = 0

/-- A context ended by a fault: a STOP flag other than HALT or DONE is set (R270, R289). -/
def Context.faulted (k : Context) : Bool := k.flags &&& 0x1C != 0

/-- No byte of any memory differs. -/
def State.SameBytes (s t : State) : Prop := ∀ a, t.mem.read a = s.mem.read a

/-- No byte differs outside the `n` bytes of place `p` from `A` on. -/
def State.SameBytesBut (p : Place) (A : Word) (n : Nat) (s t : State) : Prop :=
  ∀ a, (∀ i < n, a ≠ p.addr (addrAdd A (i : Nat))) → t.mem.read a = s.mem.read a

/-- No peripheral call, no peripheral answer, no unspecified draw. -/
def State.SameEvents (s t : State) : Prop :=
  t.periphCalls = s.periphCalls ∧ t.periphReads = s.periphReads ∧ t.draws = s.draws

/-- The register file except `pc`, `cp`, `flags`, `cmp` of the current context and the registers listed: every other general and
floating-point register, `sp`, the scheduling fields, every other context, `cur` and `halted` are as before. -/
structure State.Frame (xs : List Reg) (fs : List FReg) (s t : State) : Prop where
  x : ∀ r, r ∉ xs → t.x r = s.x r
  f : ∀ r, r ∉ fs → t.f r = s.f r
  sp : t.own.sp = s.own.sp
  alive : t.own.alive = s.own.alive
  quantumCount : t.own.quantumCount = s.own.quantumCount
  space : t.own.space = s.own.space
  others : ∀ c, c ≠ s.cur → t.ctx c = s.ctx c
  cur : t.cur = s.cur
  halted : t.halted = s.halted

/-- Status, comparison bits, call stack pointer, memory and events are as before. -/
structure State.Quiet (s t : State) : Prop where
  flags : t.own.flags = s.own.flags
  cmp : t.own.cmp = s.own.cmp
  cp : t.own.cp = s.own.cp
  bytes : s.SameBytes t
  events : s.SameEvents t

/-- ILLEGAL_INSTRUCTION and an abort after `n` fetched bytes: the flag, the `pc`, and nothing else (R81, R108). -/
structure State.Aborted (n : Nat) (s t : State) : Prop where
  flags : t.own.flags = s.own.flags ||| 0x10
  pc : t.own.pc = addrAdd s.own.pc n
  frame : s.Frame [] [] t
  cmp : t.own.cmp = s.own.cmp
  cp : t.own.cp = s.own.cp
  bytes : s.SameBytes t
  events : s.SameEvents t

/-- The step of `s` ends its instruction with ILLEGAL_INSTRUCTION after `n` fetched bytes and then runs the scheduler's check. -/
def State.StepAborts (s : State) (n : Nat) : Prop :=
  ∃ u, s.afterFetch.Aborted n u ∧ step s = .next (schedulerCheck u)

/-- A memory operand whose address routes nowhere for a read (R48). -/
def State.unreadable (s : State) : Operand → Bool
  | .ind r => (s.readRoute (s.x r)).isNone
  | .mem A => (s.readRoute A).isNone
  | _ => false

/-- The bit that reading an operand adds to `flags`: READ_ERROR if it is unreadable (R48, R271). -/
def State.readErrorBit (s : State) (op : Operand) : Word := if s.unreadable op then 0x04 else 0

/-- How many unspecified bytes reading an operand draws (R48). -/
def State.readDraws (s : State) (sc : SizeClass) (op : Operand) : Nat := if s.unreadable op then sc.bytes else 0

/-- The address that a memory operand of MOV stores to (R143). -/
def State.storeAddress (s : State) : Operand → Option Word
  | .ind r => some (s.x r)
  | .mem A => some A
  | _ => none

/-- The places after `cur` are searched in increasing order, modulo 256, and `next` is the first alive one (R254). -/
def State.FirstAliveAfter (s : State) (next : CtxId) : Prop :=
  ∃ k : Nat, 1 ≤ k ∧ k ≤ 256 ∧ next = s.cur + Fin.ofNat 256 k ∧ (s.ctx next).alive = true ∧
    ∀ j : Nat, 1 ≤ j → j < k → (s.ctx (s.cur + Fin.ofNat 256 j)).alive = false

/-- A NaN pattern: exponent all ones, fraction not 0 (R168, U5). -/
def isNaN (w : Word) : Prop := w.extractLsb' 23 8 = 0xFF ∧ w.extractLsb' 0 23 ≠ 0

/-- The rational number a finite pattern stands for; 0 for the others (R168). -/
def fpRat (w : Word) : ℚ :=
  match fpUnpack w with
  | .finite neg m e => (signedMagnitude neg m : ℚ) * (2 : ℚ) ^ e
  | _ => 0

/-- The pattern stands for a finite number. -/
def fpFinite (w : Word) : Prop := ∃ neg m e, fpUnpack w = .finite neg m e

/-- `w` is a finite pattern nearest to `q`: no finite pattern is nearer, and one equally near does not differ unless `w`'s
fraction is even (R168: round to nearest, ties to even). -/
def NearestEven (q : ℚ) (w : Word) : Prop :=
  fpFinite w ∧ ∀ u, fpFinite u →
    |fpRat w - q| ≤ |fpRat u - q| ∧ (|fpRat u - q| = |fpRat w - q| → fpRat u = fpRat w ∨ w.getLsbD 0 = false)

/-- `w` is the pattern that a rounded operation with the exact value `q` gives: the nearest finite number, ties to even, or an
infinity from half a place beyond the largest finite number on; its sign bit is the sign of `q`, where `q` has one (R168). -/
structure RoundedTo (q : ℚ) (w : Word) : Prop where
  nearest : fpFinite w → NearestEven q w
  overflow : ¬ fpFinite w ↔ (2 ^ 128 - 2 ^ 103 : ℚ) ≤ |q|
  infinite : ¬ fpFinite w → fpUnpack w = .inf (w.getLsbD 31)
  sign : q ≠ 0 → (w.getLsbD 31 = true ↔ q < 0)

/-- The pattern of a zero with a sign (R168). -/
def signedZero (neg : Bool) : Word := if neg then 0x80000000 else 0

/-- A rational number truncated towards zero (R162). -/
def truncZero (q : ℚ) : ℤ := if q < 0 then ⌈q⌉ else ⌊q⌋

/-- An orderly end of the run: halted, and HALT alone in the flags of context 0 (R305). -/
def State.orderlyEnd (s : State) : Bool := s.halted && (s.ctx 0).flags == 0x02

end Sys2Proof.Machine
end

