-- ==== Sys2Proof/Certificates/Slice0/Obligations.lean ====
section
/-! DEFINITION. The statements for the provers. Each docstring names the rules of spec/ that the statement formalises. -/

open Sys2Proof Sys2Proof.Machine

/-! ### Encoding -/

/-- Decoding the encoding of a well-formed instruction gives it back, whatever bytes follow (R70 to R80). -/
def Obligations.DecodeOfEncodeIsIdentity : Prop :=
  ∀ (i : Instr) (rest : List Byte), i.wellFormed = true → decode (encode i ++ rest) = .ok (i, rest)

/-- What the decoder answers is well-formed, and it consumes exactly the instruction's length, a prefix of its bytes
(R79, R146). -/
def Obligations.DecodeYieldsWellFormedAndConsumesItsLength : Prop :=
  ∀ (bs : List Byte) (i : Instr) (rest : List Byte), decode bs = .ok (i, rest) →
    i.wellFormed = true ∧ i.length ≤ bs.length ∧ rest = bs.drop i.length

/-- Worked encodings decode to the instructions they stand for: every row of R87, one encoding of every other instruction and of
the forms and sizes that R87 leaves out (R70 to R80, R120), and words with don't-care bits set, which the decoder ignores
(R71, R82, D13; log 10). -/
def Obligations.WorkedEncodingsDecode : Prop :=
  (∀ p ∈ ([([0x00, 0x00], .halt),
      ([0x01, 0x10, 0x00, 0x00, 0xFF], .add .b 0 (.imm 0xFF)),
      ([0x01, 0x02, 0x01, 0x12], .sub .w 2 (.reg 1)),
      ([0x02, 0x02, 0x30, 0x78, 0x56, 0x34, 0x12, 0x00], .mov .w (.reg 0) (.imm 0x12345678)),
      ([0x02, 0x02, 0x00, 0x01], .mov .w (.reg 1) (.reg 0)),
      ([0x02, 0x00, 0x10, 0x10], .mov .b (.reg 0) (.ind 1)),
      ([0x02, 0x02, 0x02, 0x00, 0x00, 0x01, 0x00, 0x00], .mov .w (.mem 0x100) (.reg 0)),
      ([0x05, 0x02, 0x00, 0x10], .cmp .w false false (.reg 0) (.reg 1)),
      ([0x05, 0x10, 0x30, 0x80, 0x00], .cmp .b true false (.reg 0) (.imm 0x80)),
      ([0x04, 0x00, 0x03, 0x10, 0x04], .jmp .b false false .ifNone 0 (.imm 4)),
      ([0x04, 0x20, 0x03, 0x11, 0x10], .jmp .b false true .ifNone 1 (.imm 0x10)),
      ([0x04, 0x12, 0x20, 0x10], .jmp .w true false .ifNone 0 (.reg 2)),
      ([0x06, 0x00, 0x10, 0xFF, 0x00, 0x00], .int 0xFF10),
      ([0x07, 0x02, 0x03, 0x20, 0x00, 0x00, 0xFF], .call .w (.imm 0xFF000020)),
      ([0x08, 0x00], .ret),
      ([0x03, 0x00, 0x11], .itof 1 1),
      ([0x03, 0x01, 0x02], .ftoi 2 0),
      ([0x03, 0x12, 0x10], .fmul 0 1)] :
      List (List Byte × Instr)), decode p.1 = .ok (p.2, [])) ∧
  (∀ p ∈ ([([0x01, 0x02, 0x02, 0x10], .mul .w 0 (.reg 1)),
      ([0x01, 0x12, 0x03, 0x00, 0x07, 0x00, 0x00, 0x00], .div .w 0 (.imm 7)),
      ([0x01, 0x10, 0x04, 0x00, 0x0F], .and .b 0 (.imm 0x0F)),
      ([0x01, 0x01, 0x05, 0x10], .or .h 0 (.reg 1)),
      ([0x01, 0x12, 0x06, 0x00, 0xFF, 0xFF, 0xFF, 0xFF], .xor .w 0 (.imm 0xFFFFFFFF)),
      ([0x02, 0x01, 0x20, 0x02, 0x01, 0x00, 0x00, 0x02], .mov .h (.reg 2) (.mem 0x102)),
      ([0x02, 0x01, 0x32, 0xEF, 0xBE, 0x10, 0x00, 0x05, 0xD0], .mov .h (.mem 0xD0050010) (.imm 0xBEEF)),
      ([0x02, 0x00, 0x31, 0x41, 0x01], .mov .b (.ind 1) (.imm 0x41)),
      ([0x03, 0x02, 0x10], .fadd 0 1),
      ([0x03, 0x0A, 0x10], .fsub 0 1),
      ([0x03, 0x1A, 0x10], .fdiv 0 1),
      ([0x04, 0x01, 0x03, 0x10, 0xFF, 0xFF], .jmp .h false false .ifNone 0 (.imm 0xFFFF)),
      ([0x04, 0x12, 0x02, 0x10, 0x00, 0x02, 0x00, 0x00], .jmp .w true false .ifNone 0 (.mem 0x200)),
      ([0x04, 0x00, 0x03, 0x01, 0x08], .jmp .b false false .ifAny 1 (.imm 8)),
      ([0x04, 0x00, 0x03, 0x20, 0x08], .jmp .b false false (.reserved 2) 0 (.imm 8)),
      ([0x05, 0x01, 0x23, 0x00, 0x01, 0x00, 0x00, 0x34, 0x12], .cmp .h false false (.imm 0x1234) (.mem 0x100)),
      ([0x05, 0x30, 0x00, 0x10], .cmp .b true true (.reg 0) (.reg 1)),
      ([0x07, 0x01, 0x03, 0x34, 0x12], .call .h (.imm 0x1234)),
      ([0x07, 0x02, 0x11], .call .w (.ind 1))] :
      List (List Byte × Instr)), decode p.1 = .ok (p.2, [])) ∧
  (∀ p ∈ ([([0x00, 0xFF], .halt),
      ([0x01, 0xE0, 0x00, 0x8F], .add .b 15 (.reg 8)),
      ([0x01, 0x11, 0x00, 0x70, 0x34, 0x12], .add .h 0 (.imm 0x1234)),
      ([0x02, 0xF2, 0x00, 0x01], .mov .w (.reg 1) (.reg 0)),
      ([0x02, 0x01, 0x30, 0xFF, 0xFF, 0xAF], .mov .h (.reg 15) (.imm 0xFFFF)),
      ([0x02, 0x00, 0x20, 0x00, 0x03, 0x00, 0x00, 0xF4], .mov .b (.reg 4) (.mem 0x300)),
      ([0x02, 0x02, 0x02, 0x0F, 0x00, 0x01, 0x00, 0x00], .mov .w (.mem 0x100) (.reg 0)),
      ([0x03, 0xF8, 0x10], .itof 0 1),
      ([0x03, 0xF9, 0x02], .ftoi 2 0),
      ([0x04, 0xC0, 0xF3, 0x10, 0x04], .jmp .b false false .ifNone 0 (.imm 4)),
      ([0x04, 0xD2, 0x72, 0x10, 0x00, 0x02, 0x00, 0x00], .jmp .w true false .ifNone 0 (.mem 0x200)),
      ([0x05, 0xC2, 0x00, 0x10], .cmp .w false false (.reg 0) (.reg 1)),
      ([0x05, 0xC0, 0x03, 0x1F, 0x00], .cmp .b false false (.imm 0) (.reg 1)),
      ([0x06, 0xFF, 0x0F, 0xFF, 0x00, 0x00], .int 0xFF0F),
      ([0x07, 0xF2, 0x03, 0x00, 0x20, 0x00, 0x00], .call .w (.imm 0x2000)),
      ([0x07, 0x02, 0xA3, 0x00, 0x20, 0x00, 0x00], .call .w (.imm 0x2000)),
      ([0x08, 0xFF], .ret)] :
      List (List Byte × Instr)), decode p.1 = .ok (p.2, []))

/-! ### Reserved encodings -/

/-- Opcodes 9 to 255 raise ILLEGAL_INSTRUCTION after the word, with the switch at its default (R105, R81). With
UNDEF_OPCODE_ILLEGAL at the spec's default (log 15). -/
def Obligations.UndefinedOpcodeAborts : Prop :=
  ∀ (s : State) (opcode : Byte) (bs : List Byte), s.halted = false → s.fetchWindow = opcode :: bs → 9 ≤ opcode.toNat →
    s.StepAborts 2

/-- A reserved size class aborts right after the word, in the five opcodes that use the size class (R73). -/
def Obligations.ReservedSizeClassAborts : Prop :=
  ∀ (s : State) (opcode opflag : Byte) (bs : List Byte), s.halted = false → s.fetchWindow = opcode :: opflag :: bs →
    opcode.toNat ∈ [1, 2, 4, 5, 7] → 3 ≤ (opflag.extractLsb' 0 4).toNat → s.StepAborts 2

/-- A reserved ALU operation aborts after the `op` byte (R128). -/
def Obligations.ReservedAluOperationAborts : Prop :=
  ∀ (s : State) (opflag op : Byte) (bs : List Byte), s.halted = false → s.fetchWindow = 0x01 :: opflag :: op :: bs →
    (opflag.extractLsb' 0 4).toNat < 3 → 7 ≤ op.toNat → s.StepAborts 3

/-- MOV with a reserved kind, an immediate destination or two memory operands aborts after the `io` byte (R141). -/
def Obligations.IllegalMovOperandsAbort : Prop :=
  ∀ (s : State) (opflag io : Byte) (bs : List Byte), s.halted = false → s.fetchWindow = 0x02 :: opflag :: io :: bs →
    (opflag.extractLsb' 0 4).toNat < 3 →
    (3 < (io.extractLsb' 4 4).toNat ∨ 3 < (io.extractLsb' 0 4).toNat ∨ (io.extractLsb' 0 4).toNat = 3 ∨
      ((io.extractLsb' 4 4).toNat ∈ [1, 2] ∧ (io.extractLsb' 0 4).toNat ∈ [1, 2])) →
    s.StepAborts 3

/-- CMP with a reserved kind or two memory operands aborts after the `io` byte and leaves `cmp` (R196). -/
def Obligations.IllegalCmpOperandsAbort : Prop :=
  ∀ (s : State) (opflag io : Byte) (bs : List Byte), s.halted = false → s.fetchWindow = 0x05 :: opflag :: io :: bs →
    (opflag.extractLsb' 0 4).toNat < 3 →
    (3 < (io.extractLsb' 4 4).toNat ∨ 3 < (io.extractLsb' 0 4).toNat ∨
      ((io.extractLsb' 4 4).toNat ∈ [1, 2] ∧ (io.extractLsb' 0 4).toNat ∈ [1, 2])) →
    s.StepAborts 3

/-- Reserved FPU sub-ops and operations abort after the word, reserved register indices after the `io` byte (R167). -/
def Obligations.ReservedFpuEncodingsAbort : Prop :=
  ∀ (s : State) (opflag io : Byte) (bs : List Byte), s.halted = false → s.fetchWindow = 0x03 :: opflag :: io :: bs →
    let fs := (opflag.extractLsb' 0 3).toNat
    let fo := (opflag.extractLsb' 3 5).toNat
    let d := (io.extractLsb' 0 4).toNat
    let r := (io.extractLsb' 4 4).toNat
    ((3 ≤ fs ∨ (fs = 2 ∧ 4 ≤ fo)) → s.StepAborts 2) ∧
    (((fs = 0 ∧ 4 ≤ d) ∨ (fs = 1 ∧ 4 ≤ r) ∨ (fs = 2 ∧ fo ≤ 3 ∧ (4 ≤ d ∨ 4 ≤ r))) → s.StepAborts 3)

/-- A reserved operand kind aborts JMP after the `cond` byte and CALL after the `am` byte (R81, R106). -/
def Obligations.ReservedSingleKindAborts : Prop :=
  ∀ (s : State) (opcode opflag am : Byte) (bs : List Byte), s.halted = false →
    s.fetchWindow = opcode :: opflag :: am :: bs → (opflag.extractLsb' 0 4).toNat < 3 → 4 ≤ (am.extractLsb' 0 4).toNat →
    (opcode = 0x04 → s.StepAborts 4) ∧ (opcode = 0x07 → s.StepAborts 3)

/-! ### The step -/

/-- When the bytes at `pc` decode to an instruction, the step is `exec` of it and then the scheduler's check (R100, R250). -/
def Obligations.StepRunsTheDecodedInstruction : Prop :=
  ∀ (s : State) (p : Place) (i : Instr) (rest : List Byte), s.halted = false → s.readRoute s.own.pc = some p →
    decode (s.mem.load p s.own.pc maxLength) = .ok (i, rest) →
    ∃ t, exec i s = .next t ∧ step s = .next (schedulerCheck t)

/-- A well-formed instruction whose encoding stands in memory at `pc` is what the step runs (R70, R101, R250). -/
def Obligations.StepRunsTheEncodedInstruction : Prop :=
  ∀ (s : State) (p : Place) (i : Instr), s.halted = false → s.readRoute s.own.pc = some p → i.wellFormed = true →
    s.mem.load p s.own.pc i.length = encode i → ∃ t, exec i s = .next t ∧ step s = .next (schedulerCheck t)

/-- A step answers a next state exactly while the machine is not halted; then it faults by name (R100, R256). The fault of a
halted machine's step is the model's choice (log 9). -/
def Obligations.StepAnswersUnlessHalted : Prop :=
  (∀ s : State, s.halted = false → ∃ t, step s = .next t) ∧
  (∀ s : State, s.halted = true → step s = .fault .machineHalted)

/-- A failed instruction fetch raises READ_ERROR, and the context is dead after that step (R101, R253). -/
def Obligations.FailedFetchKillsTheContext : Prop :=
  ∀ s : State, s.halted = false → (s.ctx 0).alive = true → s.readRoute s.own.pc = none →
    ∃ t, step s = .next t ∧ (t.ctx s.cur).alive = false ∧ (t.ctx s.cur).flags &&& 0x04 = 0x04

/-! ### The router and the sized accesses -/

/-- The read routing table, with the address of the byte in the place, and the sub-selector, bits 23:16, that names the context
(R41, R42); the current context's reads take the privileged routes exactly when its `space` is 0 (R44). -/
def Obligations.ReadRoutingTable : Prop :=
  ∀ (c : CtxId) (privileged : Bool) (A : Word),
    let t := (A.extractLsb' 24 8).toNat
    let specific (p : Pool) := if privileged then some (Place.pool p (addrSub A)) else none
    (t ≤ 0x0F → routeRead c privileged A = some (.pool .data c)) ∧
    (t = 0x10 → routeRead c privileged A = some (.pool .code c)) ∧
    (t = 0x11 → routeRead c privileged A = some (.pool .ropd c)) ∧
    (0xD0 ≤ t ∧ t ≤ 0xDF → routeRead c privileged A = specific .data) ∧
    (t = 0xE0 → routeRead c privileged A = specific .code) ∧
    (t = 0xE1 → routeRead c privileged A = specific .ropd) ∧
    (t = 0xFF → routeRead c privileged A = if privileged then some .boot else none) ∧
    (0x12 ≤ t ∧ t ≤ 0xCF ∨ 0xE2 ≤ t ∧ t ≤ 0xFE → routeRead c privileged A = none) ∧
    (∀ (p : Pool) (j : CtxId), (Place.pool p j).addr A = poolAddr p j (A.extractLsb' 0 16)) ∧
    Place.boot.addr A = bootAddr (A.extractLsb' 0 24) ∧
    (addrSub A).val = (A.extractLsb' 16 8).toNat ∧
    ∀ s : State, s.readRoute A = routeRead s.cur (decide (s.own.space = 0)) A

/-- The write routing table, with the sub-selector, bits 23:16, that names the context; the current context's writes take the
privileged routes exactly when its `space` is 0 (R41, R43, R44). With CODE_WRITABLE_SPECIFIC at the spec's default (log 16). -/
def Obligations.WriteRoutingTable : Prop :=
  ∀ (c : CtxId) (privileged : Bool) (A : Word),
    let t := (A.extractLsb' 24 8).toNat
    (t ≤ 0x0F → routeWrite c privileged A = some (.pool .data c)) ∧
    (0xD0 ≤ t ∧ t ≤ 0xDF → routeWrite c privileged A = if privileged then some (.pool .data (addrSub A)) else none) ∧
    (0x10 ≤ t ∧ t ≤ 0xCF ∨ 0xE0 ≤ t → routeWrite c privileged A = none) ∧
    (addrSub A).val = (A.extractLsb' 16 8).toNat ∧
    ∀ s : State, s.writeRoute A = routeWrite s.cur (decide (s.own.space = 0)) A

/-- Bound data addresses that agree in the 16-bit offset, bits 15:0, are one byte, whatever the tag's low nibble and the
sub-selector are; and it is the byte a privileged context, one whose `space` is 0, reaches by naming its own index in bits 23:16
(R41, R44, R55). -/
def Obligations.BoundDataAddressesAlias : Prop :=
  ∀ (s : State) (A B : Word), (A.extractLsb' 24 8).toNat ≤ 0x0F → A.extractLsb' 0 16 = B.extractLsb' 0 16 →
    ((B.extractLsb' 24 8).toNat ≤ 0x0F ∨
      (s.own.space = 0 ∧ 0xD0 ≤ (B.extractLsb' 24 8).toNat ∧ (B.extractLsb' 24 8).toNat ≤ 0xDF ∧
        (B.extractLsb' 16 8).toNat = s.cur.val)) →
    ∃ p, s.readRoute A = some p ∧ s.readRoute B = some p ∧ s.writeRoute A = some p ∧ s.writeRoute B = some p ∧ p.addr A = p.addr B

/-- `AddrAdd` keeps the bits above the offset field and moves the field modulo its width (R45). -/
def Obligations.AddrAddWrapsInsideTheOffset : Prop :=
  ∀ (A : Word) (d : Int),
    (A.extractLsb' 24 8 = 0xFF → (addrAdd A d).extractLsb' 24 8 = 0xFF ∧
      (((addrAdd A d).extractLsb' 0 24).toNat : Int) = (((A.extractLsb' 0 24).toNat : Int) + d) % 2 ^ 24) ∧
    (A.extractLsb' 24 8 ≠ 0xFF → (addrAdd A d).extractLsb' 16 16 = A.extractLsb' 16 16 ∧
      (((addrAdd A d).extractLsb' 0 16).toNat : Int) = (((A.extractLsb' 0 16).toNat : Int) + d) % 2 ^ 16)

/-- A read that routes is the little-endian sum of its bytes, all of one route, and changes nothing (R46). -/
def Obligations.ReadIsLittleEndian : Prop :=
  ∀ (s : State) (A : Word) (n : Nat) (p : Place), n ∈ [1, 2, 4] → s.readRoute A = some p →
    (s.memRead A n).2 = s ∧ (∀ d : Int, s.readRoute (addrAdd A d) = some p) ∧
    (s.memRead A n).1.toNat =
      ((List.range n).map fun i : Nat => (s.mem.read (p.addr (addrAdd A i))).toNat * 256 ^ i).sum

/-- A write that routes goes to a data pool, stores byte `i` of the value at `AddrAdd(A, i)` and changes nothing else (R47). -/
def Obligations.WriteStoresLittleEndian : Prop :=
  ∀ (s : State) (A : Word) (n : Nat) (v : Word) (p : Place), n ∈ [1, 2, 4] → s.writeRoute A = some p →
    (∃ j, p = .pool .data j) ∧ ∃ m, s.memWrite A n v = { s with mem := m } ∧
      (∀ i < n, m.read (p.addr (addrAdd A (i : Nat))) = v.extractLsb' (8 * i) 8) ∧
      (∀ a, (∀ i < n, a ≠ p.addr (addrAdd A (i : Nat))) → m.read a = s.mem.read a)

/-- A failed read raises READ_ERROR and yields a freshly drawn value of at most `8n` bits; a failed write raises WRITE_ERROR
and stores nothing (R48, R49). The counter of drawn bytes is the model's (log 5). -/
def Obligations.FailedAccessesRaiseTheirFlag : Prop :=
  ∀ (s : State) (A : Word) (n : Nat) (v : Word), n ∈ [1, 2, 4] →
    (s.readRoute A = none → (s.memRead A n).1.toNat < 256 ^ n ∧ (s.memRead A n).2.own = { s.own with flags := s.own.flags ||| 0x04 } ∧
      (s.memRead A n).2.draws = s.draws + n ∧ s.Frame [] [] (s.memRead A n).2 ∧ s.SameBytes (s.memRead A n).2) ∧
    (s.writeRoute A = none → (s.memWrite A n v).own = { s.own with flags := s.own.flags ||| 0x08 } ∧
      s.Frame [] [] (s.memWrite A n v) ∧ s.SameBytes (s.memWrite A n v) ∧ s.SameEvents (s.memWrite A n v))

/-- Push then pop restores the pointer, yields the value and leaves only the four bytes changed, for either pointer and any
writable address; and a RET after a CALL, with `cp` and the four stack bytes as the CALL left them, resumes behind the CALL and
restores `cp` (R234). -/
def Obligations.StackRoundTrip : Prop :=
  (∀ (s : State) (P : StackPointer) (v : Word) (p : Place), s.writeRoute (s.pointer P) = some p →
    ((s.push P 4 v).pop P 4).1 = v ∧
    ∃ m, ((s.push P 4 v).pop P 4).2 = { s with mem := m } ∧
      ∀ a, (∀ i < 4, a ≠ p.addr (addrAdd (s.pointer P) (i : Nat))) → m.read a = s.mem.read a) ∧
  (∀ (s t u : State) (sc : SizeClass) (op : Operand) (p : Place), s.writeRoute s.own.cp = some p →
    exec (.call sc op) s = .next t → u.cur = s.cur → u.own.space = s.own.space → u.own.cp = t.own.cp →
    (∀ i < 4, u.mem.read (p.addr (addrAdd s.own.cp (i : Nat))) = t.mem.read (p.addr (addrAdd s.own.cp (i : Nat)))) →
    ∃ w, exec .ret u = .next w ∧ w.own.pc = addrAdd s.own.pc (3 + op.singleLength sc : Nat) ∧ w.own.cp = s.own.cp)

/-- The value of an operand of each kind: the masked register, the little-endian memory bytes, the immediate; a register
operand and an immediate change nothing. The ALU's right operand is a whole register, all 32 bits, or the immediate (R75,
R106, R107, R120). -/
def Obligations.OperandValues : Prop :=
  ∀ (s : State) (sc : SizeClass),
    (∀ r, (s.readOperand sc (.reg r)).1.toNat = (s.x r).toNat % 2 ^ (8 * sc.bytes) ∧ (s.readOperand sc (.reg r)).2 = s) ∧
    (∀ v, s.readOperand sc (.imm v) = (v, s)) ∧
    (∀ op A p, s.storeAddress op = some A → s.readRoute A = some p →
      (s.readOperand sc op).2 = s ∧ (s.readOperand sc op).1.toNat =
        ((List.range sc.bytes).map fun i : Nat => (s.mem.read (p.addr (addrAdd A i))).toNat * 256 ^ i).sum) ∧
    (∀ op, s.unreadable op = true → (s.readOperand sc op).1.toNat < 2 ^ (8 * sc.bytes)) ∧
    (∀ r, s.aluSource (.reg r) = s.x r) ∧ (∀ v, s.aluSource (.imm v) = v)

/-! ### ALU -/

/-- ADD, SUB and MUL: the exact result modulo the size class's width, the whole register written, nothing else changed but `pc`
(R121, R122, R123). -/
def Obligations.AddSubMulResults : Prop :=
  ∀ (s : State) (sc : SizeClass) (a : Reg) (b : AluSrc),
    (∃ t, exec (.add sc a b) s = .next t ∧
      (t.x a).toNat = ((s.x a).toNat + (s.aluSource b).toNat) % 2 ^ (8 * sc.bytes) ∧
      t.own.pc = addrAdd s.own.pc (4 + b.length sc : Nat) ∧ s.Frame [a] [] t ∧ s.Quiet t) ∧
    (∃ t, exec (.sub sc a b) s = .next t ∧
      ((t.x a).toNat : Int) = (((s.x a).toNat : Int) - ((s.aluSource b).toNat : Int)) % (2 : Int) ^ (8 * sc.bytes) ∧
      t.own.pc = addrAdd s.own.pc (4 + b.length sc : Nat) ∧ s.Frame [a] [] t ∧ s.Quiet t) ∧
    (∃ t, exec (.mul sc a b) s = .next t ∧
      (t.x a).toNat = ((s.x a).toNat * (s.aluSource b).toNat) % 2 ^ (8 * sc.bytes) ∧
      t.own.pc = addrAdd s.own.pc (4 + b.length sc : Nat) ∧ s.Frame [a] [] t ∧ s.Quiet t)

/-- AND, OR and XOR: bitwise, masked to the size class's width, nothing else changed but `pc` (R125, R126, R127). -/
def Obligations.AndOrXorResults : Prop :=
  ∀ (s : State) (sc : SizeClass) (a : Reg) (b : AluSrc),
    (∃ t, exec (.and sc a b) s = .next t ∧
      (∀ i, (t.x a).getLsbD i = (decide (i < 8 * sc.bytes) && ((s.x a).getLsbD i && (s.aluSource b).getLsbD i))) ∧
      t.own.pc = addrAdd s.own.pc (4 + b.length sc : Nat) ∧ s.Frame [a] [] t ∧ s.Quiet t) ∧
    (∃ t, exec (.or sc a b) s = .next t ∧
      (∀ i, (t.x a).getLsbD i = (decide (i < 8 * sc.bytes) && ((s.x a).getLsbD i || (s.aluSource b).getLsbD i))) ∧
      t.own.pc = addrAdd s.own.pc (4 + b.length sc : Nat) ∧ s.Frame [a] [] t ∧ s.Quiet t) ∧
    (∃ t, exec (.xor sc a b) s = .next t ∧
      (∀ i, (t.x a).getLsbD i = (decide (i < 8 * sc.bytes) && ((s.x a).getLsbD i ^^ (s.aluSource b).getLsbD i))) ∧
      t.own.pc = addrAdd s.own.pc (4 + b.length sc : Nat) ∧ s.Frame [a] [] t ∧ s.Quiet t)

/-- DIV: the unsigned quotient of the unmasked operands, masked; a zero divisor aborts after all operand bytes with the
destination unchanged (R124). -/
def Obligations.DivResults : Prop :=
  ∀ (s : State) (sc : SizeClass) (a : Reg) (b : AluSrc),
    (s.aluSource b ≠ 0 → ∃ t, exec (.div sc a b) s = .next t ∧
      (t.x a).toNat = ((s.x a).toNat / (s.aluSource b).toNat) % 2 ^ (8 * sc.bytes) ∧
      t.own.pc = addrAdd s.own.pc (4 + b.length sc : Nat) ∧ s.Frame [a] [] t ∧ s.Quiet t) ∧
    (s.aluSource b = 0 → ∃ t, exec (.div sc a b) s = .next t ∧ s.Aborted (4 + b.length sc) t)

/-- After every ALU instruction that writes its destination, the destination's bits above the size class are zero (R130). -/
def Obligations.AluClearsUpperBits : Prop :=
  ∀ (s t : State) (sc : SizeClass) (a : Reg) (b : AluSrc) (i : Instr),
    i ∈ [Instr.add sc a b, .sub sc a b, .mul sc a b, .div sc a b, .and sc a b, .or sc a b, .xor sc a b] →
    (i = .div sc a b → s.aluSource b ≠ 0) → exec i s = .next t → t.x a &&& ~~~ sc.mask = 0

/-! ### MOV and CMP -/

/-- MOV into a register, from every kind of source: the whole register becomes the operand's value; an unreadable source
raises READ_ERROR and the move goes on (R143, R144, R145). The counter of drawn bytes is the model's choice (log 5). -/
def Obligations.MovIntoRegister : Prop :=
  ∀ (s : State) (sc : SizeClass) (rd : Reg) (src : Operand),
    ∃ t, exec (.mov sc (.reg rd) src) s = .next t ∧ t.x rd = (s.readOperand sc src).1 ∧
      t.own.pc = addrAdd s.own.pc (dualLength sc (.reg rd) src : Nat) ∧ s.Frame [rd] [] t ∧
      t.own.flags = s.own.flags ||| s.readErrorBit src ∧ t.own.cmp = s.own.cmp ∧ t.own.cp = s.own.cp ∧ s.SameBytes t ∧
      t.periphCalls = s.periphCalls ∧ t.periphReads = s.periphReads ∧ t.draws = s.draws + s.readDraws sc src

/-- MOV into memory, from a register or an immediate: where the address routes, the low `tz` bytes of the value are stored there
and every other byte stays; where it does not, WRITE_ERROR and nothing is stored (R143, R144, R145). -/
def Obligations.MovIntoMemory : Prop :=
  ∀ (s : State) (sc : SizeClass) (dst src : Operand) (A : Word), s.storeAddress dst = some A → src.kind.isMem = false →
    ∃ t, exec (.mov sc dst src) s = .next t ∧ s.Frame [] [] t ∧ t.own.cmp = s.own.cmp ∧ t.own.cp = s.own.cp ∧ s.SameEvents t ∧
      t.own.pc = addrAdd s.own.pc (dualLength sc dst src : Nat) ∧
      (∀ p, s.writeRoute A = some p → t.own.flags = s.own.flags ∧ s.SameBytesBut p A sc.bytes t ∧
        ∀ i < sc.bytes, t.mem.read (p.addr (addrAdd A (i : Nat))) = (s.readOperand sc src).1.extractLsb' (8 * i) 8) ∧
      (s.writeRoute A = none → t.own.flags = s.own.flags ||| 0x08 ∧ s.SameBytes t)

/-- A value stored by MOV and loaded back by MOV from the same address is the stored register, masked to the width (R47, R144). -/
def Obligations.MovStoreThenLoad : Prop :=
  ∀ (s t : State) (sc : SizeClass) (A : Word) (rs rd : Reg), (s.writeRoute A).isSome = true →
    exec (.mov sc (.mem A) (.reg rs)) s = .next t →
    ∃ u, exec (.mov sc (.reg rd) (.mem A)) t = .next u ∧ u.x rd = s.x rs &&& sc.mask ∧ u.own.flags = s.own.flags

/-- CMP of two operands that are not both in memory: exactly one outcome bit, of the unsigned or the signed comparison with
the destination-position operand on the left, replaces `cmp` or is ORed into it (R195, R197, R198). The counter of drawn bytes
is the model's choice (log 5). -/
def Obligations.CmpOutcome : Prop :=
  ∀ (s : State) (sc : SizeClass) (signed keep : Bool) (dst src : Operand), cmpLegal dst.kind src.kind = true →
    let vD := (s.readOperand sc dst).1
    let vS := (s.readOperand sc src).1
    let l : Int := if signed then (vD.setWidth (8 * sc.bytes)).toInt else vD.toNat
    let r : Int := if signed then (vS.setWidth (8 * sc.bytes)).toInt else vS.toNat
    ∃ t, exec (.cmp sc signed keep dst src) s = .next t ∧
      t.own.cmp = (if keep then s.own.cmp else 0) ||| (if l = r then 0x01 else if l < r then 0x02 else 0x04) ∧
      t.own.pc = addrAdd s.own.pc (dualLength sc dst src : Nat) ∧ s.Frame [] [] t ∧
      t.own.flags = s.own.flags ||| s.readErrorBit src ||| s.readErrorBit dst ∧ t.own.cp = s.own.cp ∧ s.SameBytes t ∧
      t.periphCalls = s.periphCalls ∧ t.periphReads = s.periphReads ∧
      t.draws = s.draws + s.readDraws sc src + s.readDraws sc dst

/-! ### FPU -/

/-- ITOF and the in-range FTOI: the conversion of the whole register, nothing else changed but `pc` (R161, R162). -/
def Obligations.ConversionResults : Prop :=
  ∀ s : State,
    (∀ (d : FReg) (r : Reg), ∃ t, exec (.itof d r) s = .next t ∧ t.f d = intToFloat (s.x r) ∧
      t.own.pc = addrAdd s.own.pc 3 ∧ s.Frame [] [d] t ∧ s.Quiet t) ∧
    (∀ (d : Reg) (r : FReg) (v : Word), floatToInt (s.f r) = some v → ∃ t, exec (.ftoi d r) s = .next t ∧ t.x d = v ∧
      t.own.pc = addrAdd s.own.pc 3 ∧ s.Frame [d] [] t ∧ s.Quiet t)

/-- FTOI of a NaN, an infinity or a value out of range writes its destination, with no flag, and changes nothing else but
`pc`; the value is left open (R162, U4). The free value, four bytes of the free stream, and its counter are the model's
choices (log 13, log 5). -/
def Obligations.FtoiOutOfRangeCompletes : Prop :=
  ∀ (s : State) (d : Reg) (r : FReg), floatToInt (s.f r) = none → ∃ t, exec (.ftoi d r) s = .next t ∧
    t.own.pc = addrAdd s.own.pc 3 ∧ s.Frame [d] [] t ∧ t.own.flags = s.own.flags ∧ t.own.cmp = s.own.cmp ∧
    t.own.cp = s.own.cp ∧ s.SameBytes t ∧ t.periphCalls = s.periphCalls ∧ t.periphReads = s.periphReads ∧
    t.draws = s.draws + 4

/-- FADD, FSUB, FMUL and FDIV write the operation's pattern, or some NaN where the operation gives a NaN, to the destination,
with no flag, and change nothing else but `pc` (R163 to R166, R168). The NaN made from four bytes of the free stream and their
counter are the model's choices (log 14, log 5). -/
def Obligations.FloatInstructionResults : Prop :=
  ∀ (s : State) (d r : FReg) (i : Instr) (op : Word → Word → FpResult),
    (i, op) ∈ [(Instr.fadd d r, fpAdd), (.fsub d r, fpSub), (.fmul d r, fpMul), (.fdiv d r, fpDiv)] →
    ∃ t, exec i s = .next t ∧ t.own.pc = addrAdd s.own.pc 3 ∧ s.Frame [] [d] t ∧
      t.own.flags = s.own.flags ∧ t.own.cmp = s.own.cmp ∧ t.own.cp = s.own.cp ∧ s.SameBytes t ∧
      t.periphCalls = s.periphCalls ∧ t.periphReads = s.periphReads ∧
      (∀ w, op (s.f d) (s.f r) = .pattern w → t.f d = w ∧ t.draws = s.draws) ∧
      (op (s.f d) (s.f r) = .nan → isNaN (t.f d) ∧ t.draws = s.draws + 4)

/-- Add, subtract, multiply and divide of finite numbers give a pattern, rounded once to nearest with ties to even; it is an
infinity exactly when the exact value is at least half a place beyond the largest finite number, and it has the exact value's
sign (R163 to R166, R168, D19). Round-to-nearest-even is the spec's reading marked as general knowledge (D19; log 18). -/
def Obligations.FloatArithmeticRoundsToNearestEven : Prop :=
  ∀ a b : Word, fpFinite a → fpFinite b →
    (∃ w, fpAdd a b = .pattern w ∧ RoundedTo (fpRat a + fpRat b) w) ∧
    (∃ w, fpSub a b = .pattern w ∧ RoundedTo (fpRat a - fpRat b) w) ∧
    (∃ w, fpMul a b = .pattern w ∧ RoundedTo (fpRat a * fpRat b) w) ∧
    (fpRat b ≠ 0 → ∃ w, fpDiv a b = .pattern w ∧ RoundedTo (fpRat a / fpRat b) w)

/-- Int32 values convert to the nearest binary32 number, ties to even, and 0 to +0.0 (R161). The rounding is the spec's
reading marked as general knowledge (G1; log 18). -/
def Obligations.IntToFloatRoundsToNearestEven : Prop :=
  (∀ v : Word, NearestEven (v.toInt : ℚ) (intToFloat v)) ∧ intToFloat 0 = 0

/-- Integers of magnitude up to 2^24 convert to float exactly, and back to themselves (R161, R162). -/
def Obligations.SmallIntegersConvertExactly : Prop :=
  ∀ v : Word, v.toInt.natAbs ≤ 2 ^ 24 → fpRat (intToFloat v) = v.toInt ∧ floatToInt (intToFloat v) = some v

/-- An operation with a NaN operand gives a NaN, and so do the invalid operations `inf - inf`, `0 * inf`, `0 / 0` and `inf /
inf`; a finite non-zero value over a zero is an infinity with the exclusive-or of the signs. A valid operation with an
infinite operand gives an infinity, or a zero where the divisor is infinite. An exact zero sum is `+0.0` unless both terms are
negative zeros, so `x + (-x)` is `+0.0`; a zero product or quotient has the exclusive-or of the signs (R163 to R166, R168).
IEEE behaviour is the spec's reading marked as general knowledge (D19; log 14, log 18). -/
def Obligations.SpecialFloatOperands : Prop :=
  (∀ a b, fpUnpack a = .nan ∨ fpUnpack b = .nan → fpAdd a b = .nan ∧ fpSub a b = .nan ∧ fpMul a b = .nan ∧ fpDiv a b = .nan) ∧
  (∀ a b n m, fpUnpack a = .inf n → fpUnpack b = .inf m →
    (n ≠ m → fpAdd a b = .nan) ∧ (n = m → fpSub a b = .nan) ∧ fpDiv a b = .nan) ∧
  (∀ a b n m e, fpUnpack a = .inf n → fpUnpack b = .finite m 0 e → fpMul a b = .nan ∧ fpMul b a = .nan) ∧
  (∀ a b n m e e', fpUnpack a = .finite n 0 e → fpUnpack b = .finite m 0 e' → fpDiv a b = .nan) ∧
  (∀ a b n m k e e', fpUnpack a = .finite n k e → k ≠ 0 → fpUnpack b = .finite m 0 e' →
    ∃ w, fpDiv a b = .pattern w ∧ fpUnpack w = .inf (n != m)) ∧
  (∀ a b n, fpUnpack a = .inf n → fpUnpack b = .inf n ∨ fpFinite b → fpAdd a b = .pattern a ∧ fpAdd b a = .pattern a) ∧
  (∀ a b n, fpUnpack a = .inf n → fpUnpack b = .inf (!n) ∨ fpFinite b → fpSub a b = .pattern a) ∧
  (∀ a b n, fpUnpack a = .inf n → fpFinite b → fpSub b a = .pattern (a ^^^ 0x80000000)) ∧
  (∀ a b n m, fpUnpack a = .inf n → (fpUnpack b = .inf m ∨ ∃ k e, fpUnpack b = .finite m k e ∧ k ≠ 0) →
    ∃ w, fpMul a b = .pattern w ∧ fpMul b a = .pattern w ∧ fpUnpack w = .inf (n != m)) ∧
  (∀ a b n m k e, fpUnpack a = .inf n → fpUnpack b = .finite m k e →
    (∃ w, fpDiv a b = .pattern w ∧ fpUnpack w = .inf (n != m)) ∧ fpDiv b a = .pattern (signedZero (n != m))) ∧
  (∀ a b, fpFinite a → fpFinite b →
    (fpRat a + fpRat b = 0 → fpAdd a b = .pattern (signedZero (a.getLsbD 31 && b.getLsbD 31))) ∧
    (fpRat a - fpRat b = 0 → fpSub a b = .pattern (signedZero (a.getLsbD 31 && !b.getLsbD 31))) ∧
    (fpRat a * fpRat b = 0 → fpMul a b = .pattern (signedZero (a.getLsbD 31 != b.getLsbD 31))) ∧
    (fpRat a = 0 → fpRat b ≠ 0 → fpDiv a b = .pattern (signedZero (a.getLsbD 31 != b.getLsbD 31)))) ∧
  (∀ w, isNaN w ↔ fpUnpack w = .nan) ∧ (∀ w, isNaN w ↔ ∃ v, w = nanFrom v)

/-! ### JMP, CALL, RET, HALT, INT -/

/-- JMP with a legal condition mode: the operand is always resolved; `pc` is the sum modulo 2^32 if the condition holds, and
behind the operand if not (R180, R182, R183). The counter of drawn bytes is the model's choice (log 5). -/
def Obligations.JmpResult : Prop :=
  ∀ (s : State) (sc : SizeClass) (absolute negate : Bool) (mode : CondMode) (mask : Nibble) (op : Operand),
    mode = .ifAny ∨ mode = .ifNone →
    let offset := (s.readOperand sc op).1
    let base := if absolute then 0 else addrAdd s.own.pc 2
    let target := if negate then base - offset else base + offset
    let hit := s.own.cmp &&& mask.setWidth 8
    ∃ t, exec (.jmp sc absolute negate mode mask op) s = .next t ∧
      t.own.pc = (if (mode = .ifAny ∧ hit ≠ 0) ∨ (mode = .ifNone ∧ hit = 0) then target
        else addrAdd s.own.pc (4 + op.singleLength sc : Nat)) ∧
      s.Frame [] [] t ∧ t.own.flags = s.own.flags ||| s.readErrorBit op ∧ t.own.cmp = s.own.cmp ∧ t.own.cp = s.own.cp ∧
      s.SameBytes t ∧ t.periphCalls = s.periphCalls ∧ t.periphReads = s.periphReads ∧ t.draws = s.draws + s.readDraws sc op

/-- JMP with a reserved condition mode raises ILLEGAL_INSTRUCTION after its operand is resolved, and does not jump (R180,
R183). A term whose reserved mode is 0 or 1 has no encoding: its stop is the model's choice (log 19), and so is the counter of
drawn bytes (log 5). -/
def Obligations.JmpReservedModeIsIllegal : Prop :=
  ∀ (s : State) (sc : SizeClass) (absolute negate : Bool) (mode mask : Nibble) (op : Operand),
    ∃ t, exec (.jmp sc absolute negate (.reserved mode) mask op) s = .next t ∧
      t.own.pc = addrAdd s.own.pc (4 + op.singleLength sc : Nat) ∧
      t.own.flags = s.own.flags ||| s.readErrorBit op ||| 0x10 ∧
      s.Frame [] [] t ∧ t.own.cmp = s.own.cmp ∧ t.own.cp = s.own.cp ∧ s.SameBytes t ∧
      t.periphCalls = s.periphCalls ∧ t.periphReads = s.periphReads ∧ t.draws = s.draws + s.readDraws sc op

/-- CALL: `pc` becomes the operand's value, `cp` moves up by 4, and the address of the next instruction is stored
little-endian where `cp` pointed; if that route fails, WRITE_ERROR and nothing stored (R230, R232). The counter of drawn bytes
is the model's choice (log 5). -/
def Obligations.CallResult : Prop :=
  ∀ (s : State) (sc : SizeClass) (op : Operand),
    ∃ t, exec (.call sc op) s = .next t ∧ t.own.pc = (s.readOperand sc op).1 ∧ t.own.cp = addrAdd s.own.cp 4 ∧
      s.Frame [] [] t ∧ t.own.cmp = s.own.cmp ∧ t.periphCalls = s.periphCalls ∧ t.periphReads = s.periphReads ∧
      t.draws = s.draws + s.readDraws sc op ∧
      (∀ p, s.writeRoute s.own.cp = some p → t.own.flags = s.own.flags ||| s.readErrorBit op ∧
        s.SameBytesBut p s.own.cp 4 t ∧
        ∀ i < 4, t.mem.read (p.addr (addrAdd s.own.cp (i : Nat))) =
          (addrAdd s.own.pc (3 + op.singleLength sc : Nat)).extractLsb' (8 * i) 8) ∧
      (s.writeRoute s.own.cp = none → t.own.flags = s.own.flags ||| s.readErrorBit op ||| 0x08 ∧ s.SameBytes t)

/-- RET: `cp` moves down by 4 and `pc` becomes the four bytes there; if that read fails, READ_ERROR and an open `pc` (R231,
R233). The counter of drawn bytes is the model's choice (log 5). -/
def Obligations.RetResult : Prop :=
  ∀ s : State, ∃ t, exec .ret s = .next t ∧ t.own.cp = addrAdd s.own.cp (-4) ∧ s.Frame [] [] t ∧ t.own.cmp = s.own.cmp ∧
    s.SameBytes t ∧ t.periphCalls = s.periphCalls ∧ t.periphReads = s.periphReads ∧
    (∀ p, s.readRoute s.own.cp = some p → t.own.flags = s.own.flags ∧ t.draws = s.draws ∧ t.own.pc.toNat =
      ((List.range 4).map fun i : Nat =>
        (s.mem.read (p.addr (addrAdd (addrAdd s.own.cp (-4)) i))).toNat * 256 ^ i).sum) ∧
    (s.readRoute s.own.cp = none → t.own.flags = s.own.flags ||| 0x04 ∧ t.draws = s.draws + 4)

/-- HALT sets the HALT flag and nothing else (R104). -/
def Obligations.HaltRaisesHalt : Prop :=
  ∀ s : State, ∃ t, exec .halt s = .next t ∧ t.own.flags = s.own.flags ||| 0x02 ∧ t.own.pc = addrAdd s.own.pc 2 ∧
    s.Frame [] [] t ∧ t.own.cmp = s.own.cmp ∧ t.own.cp = s.own.cp ∧ s.SameBytes t ∧ s.SameEvents t

/-- INT with a drawing code emits its call with the registers RA to RH and changes nothing else but `pc` (R212 to R214, R219).
The list of calls made is the model's record of the output events (log 7). -/
def Obligations.IntDrawingCalls : Prop :=
  ∀ (s : State) (code : Word) (fn : PeriphFn),
    (code, fn) ∈ [((0xFF00 : Word), PeriphFn.drawGlyph), (0xFF01, .drawPixel), (0xFF0F, .flush)] →
    ∃ t args, exec (.int code) s = .next t ∧ t.periphCalls = s.periphCalls ++ [⟨fn, args⟩] ∧
      (∀ i : Fin 8, args[i.val] = s.x ⟨i.val, by omega⟩) ∧ t.own.pc = addrAdd s.own.pc 6 ∧ s.Frame [] [] t ∧
      t.own.flags = s.own.flags ∧ t.own.cmp = s.own.cmp ∧ t.own.cp = s.own.cp ∧ s.SameBytes t ∧
      t.periphReads = s.periphReads ∧ t.draws = s.draws

/-- INT with code 0xFF10 writes the peripheral's answer to RA, with code 0xFF11 two answers to RA and RB; nothing else changes
but `pc` (R215, R216). The stream of answers and its counter are the model's choice (log 6). -/
def Obligations.IntInputCalls : Prop :=
  ∀ s : State,
    (∃ t, exec (.int 0xFF10) s = .next t ∧ t.x 0 = s.periphAnswer 0 ∧ t.periphReads = s.periphReads + 1 ∧ s.Frame [0] [] t ∧
      t.own.pc = addrAdd s.own.pc 6 ∧ t.own.flags = s.own.flags ∧ t.own.cmp = s.own.cmp ∧ t.own.cp = s.own.cp ∧
      s.SameBytes t ∧ t.periphCalls = s.periphCalls ∧ t.draws = s.draws) ∧
    (∃ t, exec (.int 0xFF11) s = .next t ∧ t.x 0 = s.periphAnswer 0 ∧ t.x 1 = s.periphAnswer 1 ∧
      t.periphReads = s.periphReads + 2 ∧ s.Frame [0, 1] [] t ∧
      t.own.pc = addrAdd s.own.pc 6 ∧ t.own.flags = s.own.flags ∧ t.own.cmp = s.own.cmp ∧ t.own.cp = s.own.cp ∧
      s.SameBytes t ∧ t.periphCalls = s.periphCalls ∧ t.draws = s.draws)

/-- INT with any other code only advances `pc` by 6 (R217, R218). -/
def Obligations.IntReservedCodesDoNothing : Prop :=
  ∀ (s : State) (code : Word), code ∉ [(0xFF00 : Word), 0xFF01, 0xFF0F, 0xFF10, 0xFF11] →
    ∃ t, exec (.int code) s = .next t ∧ t.own.pc = addrAdd s.own.pc 6 ∧ s.Frame [] [] t ∧ s.Quiet t

/-! ### The scheduler and the traps -/

/-- A STOP flag on a current context other than 0 kills it at the scheduler's check: not alive, count 0, all else as the
instruction left it, and the next alive context becomes current (R253, R254, R279). -/
def Obligations.StopFlagKillsTheContext : Prop :=
  ∀ s : State, (s.ctx 0).alive = true → s.cur ≠ 0 → s.own.flags &&& 0x1F ≠ 0 →
    ∃ next, schedulerCheck s = { s.setOwn { s.own with alive := false, quantumCount := 0 } with cur := next } ∧
      (s.setOwn { s.own with alive := false, quantumCount := 0 }).FirstAliveAfter next

/-- A STOP flag on context 0 halts the machine: context 0 is not alive, its count is 0, `cur` still names it (R252, R256). -/
def Obligations.KernelDeathHaltsTheMachine : Prop :=
  ∀ s : State, (s.ctx 0).alive = true → s.cur = 0 → s.own.flags &&& 0x1F ≠ 0 →
    schedulerCheck s = { s.setOwn { s.own with alive := false, quantumCount := 0 } with halted := true }

/-- Without a STOP flag, the 16th instruction of a quantum ends it: the count returns to 0, the context stays as it was, and the
next alive context becomes current (R253, R254). -/
def Obligations.QuantumExpirySwitches : Prop :=
  ∀ s : State, (s.ctx 0).alive = true → s.own.flags &&& 0x1F = 0 → s.own.quantumCount = 15 →
    ∃ next, schedulerCheck s = { s.setOwn { s.own with quantumCount := 0 } with cur := next } ∧ s.FirstAliveAfter next

/-- Without a STOP flag, an earlier instruction of a quantum only counts (R253). -/
def Obligations.WithinTheQuantumOnlyTheCountMoves : Prop :=
  ∀ s : State, (s.ctx 0).alive = true → s.own.flags &&& 0x1F = 0 → s.own.quantumCount.toNat < 15 →
    ∃ t, schedulerCheck s = t ∧ t = s.setOwn { s.own with quantumCount := s.own.quantumCount + 1 } ∧
      t.own.quantumCount.toNat = s.own.quantumCount.toNat + 1

/-- After the host has cleared `alive[0]`, the next step executes one instruction in full and then halts, without counting it
(R252, R306). -/
def Obligations.HostKillHaltsAfterOneInstruction : Prop :=
  ∀ s : State, s.halted = false →
    ∃ u, instructionStep s.hostKill = .next u ∧ step s.hostKill = .next { u with halted := true } ∧
      u.own.quantumCount = s.own.quantumCount

/-! ### Invariants and whole-machine rules -/

/-- Every step keeps the invariants of R28 and R259 and the memory's canonical form. The memory's canonical form is the
model's (log 12). -/
def Obligations.StepKeepsTheInvariants : Prop := ∀ s t : State, s.Proper → step s = .next t → t.Proper

/-- The reset state has those invariants and is a launch state (R28, R259, R301). -/
def Obligations.ResetHasTheInvariants : Prop := State.reset.Proper ∧ State.reset.Launch

/-- A launch state with its memory in canonical form has the invariants (R301). -/
def Obligations.LaunchStatesHaveTheInvariants : Prop := ∀ s : State, s.Launch → s.mem.wf → s.Proper

/-- The values after reset: every field of every context, every pool byte, `cur` and `halted`, as the table of R30 gives them.
The `pc` of context 0 is the default of an open parameter (log 4), the seed of its floating-point registers and the bytes of
the boot image are unknown constants of the model (log 1, log 2). -/
def Obligations.ResetValues : Prop :=
  (∀ c : CtxId, (∀ r : Reg, (State.reset.ctx c).x[r.val] = 0) ∧ (State.reset.ctx c).sp = 0 ∧ (State.reset.ctx c).cp = 0 ∧
    (State.reset.ctx c).flags = 0 ∧ (State.reset.ctx c).cmp = 0 ∧ (State.reset.ctx c).quantumCount = 0 ∧
    (State.reset.ctx c).space = 0 ∧ ((State.reset.ctx c).alive = true ↔ c = 0) ∧
    (State.reset.ctx c).pc = (if c = 0 then 0xFF000000 else 0) ∧
    ∀ r : FReg, (State.reset.ctx c).f[r.val] = if c = 0 then Config.fpuSeed r else 0) ∧
  (∀ (p : Pool) (j : CtxId) (off : BitVec 16), State.reset.mem.read (poolAddr p j off) = 0) ∧
  (∀ off : BitVec 24, State.reset.mem.read (bootAddr off) = Config.bootByte off.toNat) ∧
  State.reset.cur = 0 ∧ State.reset.halted = false

/-- No step brings a context to life, clears a bit of `flags`, or sets DONE (R16, R259, R275). -/
def Obligations.FlagsStickAndAliveNeverReturns : Prop :=
  ∀ (s t : State) (c : CtxId), step s = .next t →
    ((t.ctx c).alive = true → (s.ctx c).alive = true) ∧ (s.ctx c).flags &&& (t.ctx c).flags = (s.ctx c).flags ∧
    ((t.ctx c).flags &&& 0x01 = (s.ctx c).flags &&& 0x01)

/-- A step changes no field of a context other than the current one, never `sp` or `space`, and no byte of a code pool, a
read-only-data pool or the boot image (R22, R25, R26, R100). Those bytes are the physical addresses from `poolSpan` on, the
model's numbering (log 12); for code pools this holds at the default of the switch for writes to tag 0xE0, the model's choice
(log 16). -/
def Obligations.StepTouchesOnlyTheCurrentContextAndData : Prop :=
  ∀ s t : State, step s = .next t →
    (∀ c, c ≠ s.cur → t.ctx c = s.ctx c) ∧
    (t.ctx s.cur).sp = s.own.sp ∧ (t.ctx s.cur).space = s.own.space ∧
    ∀ a, poolSpan ≤ a → t.mem.read a = s.mem.read a

/-- A step of an unprivileged context changes no byte of another context's pools, of its own code or read-only-data pool or of
the boot image, and none outside its own data pool (R25, R43, R44, R283). The physical numbering of the bytes is the model's
(log 12). -/
def Obligations.UnprivilegedStoresStayInTheOwnPool : Prop :=
  ∀ s t : State, s.own.space ≠ 0 → step s = .next t →
    (∀ (p : Pool) (j : CtxId) (off : BitVec 16), p ≠ .data ∨ j ≠ s.cur →
      t.mem.read (poolAddr p j off) = s.mem.read (poolAddr p j off)) ∧
    (∀ off : BitVec 24, t.mem.read (bootAddr off) = s.mem.read (bootAddr off)) ∧
    ∀ a, (∀ off, a ≠ poolAddr .data s.cur off) → t.mem.read a = s.mem.read a

/-- What an unprivileged context does depends only on its own registers and pools and on the values drawn from outside: two
states that agree on those give the same registers, the same pools and the same new peripheral calls after one instruction,
and still agree on what they must agree on, whatever the rest of memory and the other contexts hold (R42, R43, R44, R219,
R283). The streams drawn from, their counters and the list of calls are the model's (log 5, log 6, log 7). -/
def Obligations.UnprivilegedInstructionSeesOnlyItsOwnPools : Prop :=
  ∀ s s' t t' : State, s.own.space ≠ 0 → s'.cur = s.cur → s'.own = s.own → s'.draws = s.draws → s'.periphReads = s.periphReads →
    (∀ (p : Pool) (off : BitVec 16), s'.mem.read (poolAddr p s.cur off) = s.mem.read (poolAddr p s.cur off)) →
    instructionStep s = .next t → instructionStep s' = .next t' →
    t'.cur = t.cur ∧ t'.own = t.own ∧ t'.draws = t.draws ∧ t'.periphReads = t.periphReads ∧
    (∃ calls, t.periphCalls = s.periphCalls ++ calls ∧ t'.periphCalls = s'.periphCalls ++ calls) ∧
    ∀ (p : Pool) (off : BitVec 16), t'.mem.read (poolAddr p s.cur off) = t.mem.read (poolAddr p s.cur off)

/-! ### The conversion to an integer -/

/-- `FloatToInt` of a finite number gives a value exactly when the number truncated towards zero lies in -2^31 .. 2^31 - 1, and
the value is that integer in two's complement; it gives none for an infinity or a NaN (R162). -/
def Obligations.FloatToIntTruncates : Prop :=
  ∀ w : Word,
    (fpFinite w → ∀ v : Word, floatToInt w = some v ↔
      -2 ^ 31 ≤ truncZero (fpRat w) ∧ truncZero (fpRat w) ≤ 2 ^ 31 - 1 ∧ v.toInt = truncZero (fpRat w)) ∧
    (¬ fpFinite w → floatToInt w = none)
end

