-- ==== Sys2Proof/Laws/State.lean ====
section
/-! SUPPORT. One lemma per field per update, so that no later proof unfolds a record update; the register file reads as the
last update wrote it. -/

namespace Sys2Proof.Machine

variable (s : State) (c : CtxId) (k : Context) (n : Nat)

/-! ### The register file -/

theorem ctx_setCtx (d : CtxId) : (s.setCtx c k).ctx d = if d = c then k else s.ctx d := by
  simp only [State.ctx, State.setCtx, Vector.getElem_set, Fin.ext_iff, eq_comm]

@[simp] theorem ctx_setCtx_same : (s.setCtx c k).ctx c = k := by simp [ctx_setCtx]

theorem ctx_setCtx_other (d : CtxId) (h : d ≠ c) : (s.setCtx c k).ctx d = s.ctx d := by simp [ctx_setCtx, h]

@[simp] theorem own_setOwn : (s.setOwn k).own = k := ctx_setCtx_same s s.cur k

theorem ctx_setOwn (d : CtxId) : (s.setOwn k).ctx d = if d = s.cur then k else s.ctx d := ctx_setCtx s s.cur k d

theorem ctx_setOwn_other (d : CtxId) (h : d ≠ s.cur) : (s.setOwn k).ctx d = s.ctx d := ctx_setCtx_other s s.cur k d h

@[simp] theorem setOwn_setOwn (l : Context) : (s.setOwn k).setOwn l = s.setOwn l := by
  simp [State.setOwn, State.setCtx]

@[simp] theorem setOwn_own : s.setOwn s.own = s := by
  simp [State.setOwn, State.setCtx, State.own, State.ctx]

/-- Two states are equal if they agree on every context and every other field. -/
theorem State.ext_ctx {s t : State} (hctx : ∀ c, s.ctx c = t.ctx c) (hcur : s.cur = t.cur) (hh : s.halted = t.halted)
    (hm : s.mem = t.mem) (hp : s.periphCalls = t.periphCalls) (hd : s.draws = t.draws) (hr : s.periphReads = t.periphReads) :
    s = t := by
  cases s
  cases t
  simp only [State.mk.injEq]
  refine ⟨?_, hcur, hh, hm, hp, hd, hr⟩
  ext1 i hi
  exact hctx ⟨i, hi⟩

@[simp] theorem setCtx_cur : (s.setCtx c k).cur = s.cur := rfl
@[simp] theorem setCtx_halted : (s.setCtx c k).halted = s.halted := rfl
@[simp] theorem setCtx_mem : (s.setCtx c k).mem = s.mem := rfl
@[simp] theorem setCtx_periphCalls : (s.setCtx c k).periphCalls = s.periphCalls := rfl
@[simp] theorem setCtx_draws : (s.setCtx c k).draws = s.draws := rfl
@[simp] theorem setCtx_periphReads : (s.setCtx c k).periphReads = s.periphReads := rfl

@[simp] theorem setOwn_cur : (s.setOwn k).cur = s.cur := rfl
@[simp] theorem setOwn_halted : (s.setOwn k).halted = s.halted := rfl
@[simp] theorem setOwn_mem : (s.setOwn k).mem = s.mem := rfl
@[simp] theorem setOwn_periphCalls : (s.setOwn k).periphCalls = s.periphCalls := rfl
@[simp] theorem setOwn_draws : (s.setOwn k).draws = s.draws := rfl
@[simp] theorem setOwn_periphReads : (s.setOwn k).periphReads = s.periphReads := rfl

@[simp] theorem setOwn_x (r : Reg) : (s.setOwn k).x r = k.x[r.val] := by simp [State.x]

@[simp] theorem setOwn_f (r : FReg) : (s.setOwn k).f r = k.f[r.val] := by simp [State.f]

@[simp] theorem ctx_cur : s.ctx s.cur = s.own := rfl

@[simp] theorem own_x (r : Reg) : s.own.x[r.val] = s.x r := rfl

@[simp] theorem own_f (r : FReg) : s.own.f[r.val] = s.f r := rfl

/-! ### The named updates of the current context -/

@[simp] theorem setX_own (r : Reg) (v : Word) : (s.setX r v).own = { s.own with x := s.own.x.set r.val v } := own_setOwn s _
theorem setX_ctx (r : Reg) (v : Word) (d : CtxId) (h : d ≠ s.cur) : (s.setX r v).ctx d = s.ctx d := ctx_setOwn_other s _ d h
@[simp] theorem setX_cur (r : Reg) (v : Word) : (s.setX r v).cur = s.cur := rfl
@[simp] theorem setX_halted (r : Reg) (v : Word) : (s.setX r v).halted = s.halted := rfl
@[simp] theorem setX_mem (r : Reg) (v : Word) : (s.setX r v).mem = s.mem := rfl
@[simp] theorem setX_periphCalls (r : Reg) (v : Word) : (s.setX r v).periphCalls = s.periphCalls := rfl
@[simp] theorem setX_draws (r : Reg) (v : Word) : (s.setX r v).draws = s.draws := rfl
@[simp] theorem setX_periphReads (r : Reg) (v : Word) : (s.setX r v).periphReads = s.periphReads := rfl

@[simp] theorem setF_own (r : FReg) (v : Word) : (s.setF r v).own = { s.own with f := s.own.f.set r.val v } := own_setOwn s _
theorem setF_ctx (r : FReg) (v : Word) (d : CtxId) (h : d ≠ s.cur) : (s.setF r v).ctx d = s.ctx d := ctx_setOwn_other s _ d h
@[simp] theorem setF_cur (r : FReg) (v : Word) : (s.setF r v).cur = s.cur := rfl
@[simp] theorem setF_halted (r : FReg) (v : Word) : (s.setF r v).halted = s.halted := rfl
@[simp] theorem setF_mem (r : FReg) (v : Word) : (s.setF r v).mem = s.mem := rfl
@[simp] theorem setF_periphCalls (r : FReg) (v : Word) : (s.setF r v).periphCalls = s.periphCalls := rfl
@[simp] theorem setF_draws (r : FReg) (v : Word) : (s.setF r v).draws = s.draws := rfl
@[simp] theorem setF_periphReads (r : FReg) (v : Word) : (s.setF r v).periphReads = s.periphReads := rfl

@[simp] theorem setPc_own (t : Word) : (s.setPc t).own = { s.own with pc := t } := own_setOwn s _
theorem setPc_ctx (t : Word) (d : CtxId) (h : d ≠ s.cur) : (s.setPc t).ctx d = s.ctx d := ctx_setOwn_other s _ d h
@[simp] theorem setPc_cur (t : Word) : (s.setPc t).cur = s.cur := rfl
@[simp] theorem setPc_halted (t : Word) : (s.setPc t).halted = s.halted := rfl
@[simp] theorem setPc_mem (t : Word) : (s.setPc t).mem = s.mem := rfl
@[simp] theorem setPc_periphCalls (t : Word) : (s.setPc t).periphCalls = s.periphCalls := rfl
@[simp] theorem setPc_draws (t : Word) : (s.setPc t).draws = s.draws := rfl
@[simp] theorem setPc_periphReads (t : Word) : (s.setPc t).periphReads = s.periphReads := rfl

@[simp] theorem setCp_own (t : Word) : (s.setCp t).own = { s.own with cp := t } := own_setOwn s _
theorem setCp_ctx (t : Word) (d : CtxId) (h : d ≠ s.cur) : (s.setCp t).ctx d = s.ctx d := ctx_setOwn_other s _ d h
@[simp] theorem setCp_cur (t : Word) : (s.setCp t).cur = s.cur := rfl
@[simp] theorem setCp_halted (t : Word) : (s.setCp t).halted = s.halted := rfl
@[simp] theorem setCp_mem (t : Word) : (s.setCp t).mem = s.mem := rfl
@[simp] theorem setCp_periphCalls (t : Word) : (s.setCp t).periphCalls = s.periphCalls := rfl
@[simp] theorem setCp_draws (t : Word) : (s.setCp t).draws = s.draws := rfl
@[simp] theorem setCp_periphReads (t : Word) : (s.setCp t).periphReads = s.periphReads := rfl

@[simp] theorem setSp_own (t : Word) : (s.setSp t).own = { s.own with sp := t } := own_setOwn s _
theorem setSp_ctx (t : Word) (d : CtxId) (h : d ≠ s.cur) : (s.setSp t).ctx d = s.ctx d := ctx_setOwn_other s _ d h
@[simp] theorem setSp_cur (t : Word) : (s.setSp t).cur = s.cur := rfl
@[simp] theorem setSp_halted (t : Word) : (s.setSp t).halted = s.halted := rfl
@[simp] theorem setSp_mem (t : Word) : (s.setSp t).mem = s.mem := rfl
@[simp] theorem setSp_periphCalls (t : Word) : (s.setSp t).periphCalls = s.periphCalls := rfl
@[simp] theorem setSp_draws (t : Word) : (s.setSp t).draws = s.draws := rfl
@[simp] theorem setSp_periphReads (t : Word) : (s.setSp t).periphReads = s.periphReads := rfl

@[simp] theorem setCmp_own (v : Byte) : (s.setCmp v).own = { s.own with cmp := v } := own_setOwn s _
theorem setCmp_ctx (v : Byte) (d : CtxId) (h : d ≠ s.cur) : (s.setCmp v).ctx d = s.ctx d := ctx_setOwn_other s _ d h
@[simp] theorem setCmp_cur (v : Byte) : (s.setCmp v).cur = s.cur := rfl
@[simp] theorem setCmp_halted (v : Byte) : (s.setCmp v).halted = s.halted := rfl
@[simp] theorem setCmp_mem (v : Byte) : (s.setCmp v).mem = s.mem := rfl
@[simp] theorem setCmp_periphCalls (v : Byte) : (s.setCmp v).periphCalls = s.periphCalls := rfl
@[simp] theorem setCmp_draws (v : Byte) : (s.setCmp v).draws = s.draws := rfl
@[simp] theorem setCmp_periphReads (v : Byte) : (s.setCmp v).periphReads = s.periphReads := rfl

@[simp] theorem advance_own (n : Nat) : (s.advance n).own = { s.own with pc := addrAdd s.own.pc n } := own_setOwn s _
theorem advance_ctx (n : Nat) (d : CtxId) (h : d ≠ s.cur) : (s.advance n).ctx d = s.ctx d := ctx_setOwn_other s _ d h
@[simp] theorem advance_cur (n : Nat) : (s.advance n).cur = s.cur := rfl
@[simp] theorem advance_halted (n : Nat) : (s.advance n).halted = s.halted := rfl
@[simp] theorem advance_mem (n : Nat) : (s.advance n).mem = s.mem := rfl
@[simp] theorem advance_periphCalls (n : Nat) : (s.advance n).periphCalls = s.periphCalls := rfl
@[simp] theorem advance_draws (n : Nat) : (s.advance n).draws = s.draws := rfl
@[simp] theorem advance_periphReads (n : Nat) : (s.advance n).periphReads = s.periphReads := rfl

@[simp] theorem raise_own (F : Flag) : (s.raise F).own = { s.own with flags := s.own.flags ||| F.mask } := own_setOwn s _
theorem raise_ctx (F : Flag) (d : CtxId) (h : d ≠ s.cur) : (s.raise F).ctx d = s.ctx d := ctx_setOwn_other s _ d h
@[simp] theorem raise_cur (F : Flag) : (s.raise F).cur = s.cur := rfl
@[simp] theorem raise_halted (F : Flag) : (s.raise F).halted = s.halted := rfl
@[simp] theorem raise_mem (F : Flag) : (s.raise F).mem = s.mem := rfl
@[simp] theorem raise_periphCalls (F : Flag) : (s.raise F).periphCalls = s.periphCalls := rfl
@[simp] theorem raise_draws (F : Flag) : (s.raise F).draws = s.draws := rfl
@[simp] theorem raise_periphReads (F : Flag) : (s.raise F).periphReads = s.periphReads := rfl

theorem setX_x (r q : Reg) (v : Word) : (s.setX r v).x q = if q = r then v else s.x q := by
  simp only [State.x, setX_own, Vector.getElem_set, Fin.ext_iff, eq_comm]

@[simp] theorem setX_x_same (r : Reg) (v : Word) : (s.setX r v).x r = v := by simp [setX_x]

theorem setF_f (r q : FReg) (v : Word) : (s.setF r v).f q = if q = r then v else s.f q := by
  simp only [State.f, setF_own, Vector.getElem_set, Fin.ext_iff, eq_comm]

@[simp] theorem setF_f_same (r : FReg) (v : Word) : (s.setF r v).f r = v := by simp [setF_f]

@[simp] theorem setX_f (r : Reg) (q : FReg) (v : Word) : (s.setX r v).f q = s.f q := by simp only [State.f, setX_own]

@[simp] theorem setF_x (r : FReg) (q : Reg) (v : Word) : (s.setF r v).x q = s.x q := by simp only [State.x, setF_own]

@[simp] theorem setPc_x (t : Word) (q : Reg) : (s.setPc t).x q = s.x q := by simp only [State.x, setPc_own]
@[simp] theorem setPc_f (t : Word) (q : FReg) : (s.setPc t).f q = s.f q := by simp only [State.f, setPc_own]
@[simp] theorem setCp_x (t : Word) (q : Reg) : (s.setCp t).x q = s.x q := by simp only [State.x, setCp_own]
@[simp] theorem setCp_f (t : Word) (q : FReg) : (s.setCp t).f q = s.f q := by simp only [State.f, setCp_own]
@[simp] theorem setSp_x (t : Word) (q : Reg) : (s.setSp t).x q = s.x q := by simp only [State.x, setSp_own]
@[simp] theorem setSp_f (t : Word) (q : FReg) : (s.setSp t).f q = s.f q := by simp only [State.f, setSp_own]
@[simp] theorem setCmp_x (v : Byte) (q : Reg) : (s.setCmp v).x q = s.x q := by simp only [State.x, setCmp_own]
@[simp] theorem setCmp_f (v : Byte) (q : FReg) : (s.setCmp v).f q = s.f q := by simp only [State.f, setCmp_own]
@[simp] theorem advance_x (n : Nat) (q : Reg) : (s.advance n).x q = s.x q := by simp only [State.x, advance_own]
@[simp] theorem advance_f (n : Nat) (q : FReg) : (s.advance n).f q = s.f q := by simp only [State.f, advance_own]
@[simp] theorem raise_x (F : Flag) (q : Reg) : (s.raise F).x q = s.x q := by simp only [State.x, raise_own]
@[simp] theorem raise_f (F : Flag) (q : FReg) : (s.raise F).f q = s.f q := by simp only [State.f, raise_own]

/-! ### Updates of the machine's other fields -/

@[simp] theorem drawn_ctx (n : Nat) (d : CtxId) : (s.drawn n).ctx d = s.ctx d := rfl
@[simp] theorem drawn_own (n : Nat) : (s.drawn n).own = s.own := rfl
@[simp] theorem drawn_x (n : Nat) (q : Reg) : (s.drawn n).x q = s.x q := rfl
@[simp] theorem drawn_f (n : Nat) (q : FReg) : (s.drawn n).f q = s.f q := rfl
@[simp] theorem drawn_cur (n : Nat) : (s.drawn n).cur = s.cur := rfl
@[simp] theorem drawn_halted (n : Nat) : (s.drawn n).halted = s.halted := rfl
@[simp] theorem drawn_mem (n : Nat) : (s.drawn n).mem = s.mem := rfl
@[simp] theorem drawn_periphCalls (n : Nat) : (s.drawn n).periphCalls = s.periphCalls := rfl
@[simp] theorem drawn_draws (n : Nat) : (s.drawn n).draws = s.draws + n := rfl
@[simp] theorem drawn_periphReads (n : Nat) : (s.drawn n).periphReads = s.periphReads := rfl

@[simp] theorem periphTaken_ctx (n : Nat) (d : CtxId) : (s.periphTaken n).ctx d = s.ctx d := rfl
@[simp] theorem periphTaken_own (n : Nat) : (s.periphTaken n).own = s.own := rfl
@[simp] theorem periphTaken_x (n : Nat) (q : Reg) : (s.periphTaken n).x q = s.x q := rfl
@[simp] theorem periphTaken_f (n : Nat) (q : FReg) : (s.periphTaken n).f q = s.f q := rfl
@[simp] theorem periphTaken_cur (n : Nat) : (s.periphTaken n).cur = s.cur := rfl
@[simp] theorem periphTaken_halted (n : Nat) : (s.periphTaken n).halted = s.halted := rfl
@[simp] theorem periphTaken_mem (n : Nat) : (s.periphTaken n).mem = s.mem := rfl
@[simp] theorem periphTaken_periphCalls (n : Nat) : (s.periphTaken n).periphCalls = s.periphCalls := rfl
@[simp] theorem periphTaken_draws (n : Nat) : (s.periphTaken n).draws = s.draws := rfl
@[simp] theorem periphTaken_periphReads (n : Nat) : (s.periphTaken n).periphReads = s.periphReads + n := rfl

@[simp] theorem periphCall_ctx (fn : PeriphFn) (d : CtxId) : (s.periphCall fn).ctx d = s.ctx d := rfl
@[simp] theorem periphCall_own (fn : PeriphFn) : (s.periphCall fn).own = s.own := rfl
@[simp] theorem periphCall_x (fn : PeriphFn) (q : Reg) : (s.periphCall fn).x q = s.x q := rfl
@[simp] theorem periphCall_f (fn : PeriphFn) (q : FReg) : (s.periphCall fn).f q = s.f q := rfl
@[simp] theorem periphCall_cur (fn : PeriphFn) : (s.periphCall fn).cur = s.cur := rfl
@[simp] theorem periphCall_halted (fn : PeriphFn) : (s.periphCall fn).halted = s.halted := rfl
@[simp] theorem periphCall_mem (fn : PeriphFn) : (s.periphCall fn).mem = s.mem := rfl
@[simp] theorem periphCall_periphCalls (fn : PeriphFn) : (s.periphCall fn).periphCalls = s.periphCalls ++ [PeriphCall.mk fn s.periphArgs] := rfl
@[simp] theorem periphCall_draws (fn : PeriphFn) : (s.periphCall fn).draws = s.draws := rfl
@[simp] theorem periphCall_periphReads (fn : PeriphFn) : (s.periphCall fn).periphReads = s.periphReads := rfl

end Sys2Proof.Machine
end

