-- ==== Sys2Proof/Laws/Address.lean ====
section
/-! SUPPORT. Logical addresses under `AddrAdd`: the fields above the offset stay, the offset moves modulo its width, moves
compose, and so all bytes of one access take one route (R45, R46). -/

namespace Sys2Proof

theorem extract_append_high {m n : Nat} (a : BitVec m) (b : BitVec n) (k w : Nat) :
    (a ++ b).extractLsb' (n + k) w = a.extractLsb' k w := by
  ext i hi
  simp [BitVec.getLsbD_append, show ¬ n + k + i < n by omega, show n + k + i - n = k + i by omega]

theorem extract_append_low {m n : Nat} (a : BitVec m) (b : BitVec n) (k w : Nat) (h : k + w ≤ n) :
    (a ++ b).extractLsb' k w = b.extractLsb' k w := by
  ext i hi
  simp [BitVec.getLsbD_append, show k + i < n by omega]

theorem extract_extract {n : Nat} (a : BitVec n) (j v k w : Nat) (h : k + w ≤ v) :
    (a.extractLsb' j v).extractLsb' k w = a.extractLsb' (j + k) w := by
  ext i hi
  simp [show k + i < v by omega, Nat.add_assoc]

theorem extract_whole {n : Nat} (a : BitVec n) : a.extractLsb' 0 n = a := by
  ext i hi
  simp

theorem append_extract {m n : Nat} (A : BitVec (m + n)) : A.extractLsb' n m ++ A.extractLsb' 0 n = A := by
  apply BitVec.eq_of_getLsbD_eq
  intro i hi
  rw [BitVec.getLsbD_append]
  by_cases h : i < n
  · simp [h]
  · have : i - n < m := by omega
    simp [h, this, show n + (i - n) = i by omega]

/-- `AddrAdd` for tag 0xFF: bits 31:24 stay, the 24-bit offset moves (R45). -/
theorem addrAdd_boot {A : Word} (h : addrTag A = 0xFF) (d : Int) :
    (addrAdd A d).extractLsb' 24 8 = A.extractLsb' 24 8 ∧
      (addrAdd A d).extractLsb' 0 24 = A.extractLsb' 0 24 + BitVec.ofInt 24 d := by
  simp only [addrAdd, if_pos h]
  exact ⟨(extract_append_high (A.extractLsb' 24 8) (A.extractLsb' 0 24 + BitVec.ofInt 24 d) 0 8).trans (extract_whole _),
    (extract_append_low (A.extractLsb' 24 8) (A.extractLsb' 0 24 + BitVec.ofInt 24 d) 0 24 (by omega)).trans (extract_whole _)⟩

/-- `AddrAdd` for every other tag: bits 31:16 stay, the 16-bit offset moves (R45). -/
theorem addrAdd_pool {A : Word} (h : addrTag A ≠ 0xFF) (d : Int) :
    (addrAdd A d).extractLsb' 16 16 = A.extractLsb' 16 16 ∧
      (addrAdd A d).extractLsb' 0 16 = A.extractLsb' 0 16 + BitVec.ofInt 16 d := by
  simp only [addrAdd, if_neg h]
  exact ⟨(extract_append_high (A.extractLsb' 16 16) (A.extractLsb' 0 16 + BitVec.ofInt 16 d) 0 16).trans (extract_whole _),
    (extract_append_low (A.extractLsb' 16 16) (A.extractLsb' 0 16 + BitVec.ofInt 16 d) 0 16 (by omega)).trans (extract_whole _)⟩

@[simp] theorem addrTag_addrAdd (A : Word) (d : Int) : addrTag (addrAdd A d) = addrTag A := by
  by_cases h : addrTag A = 0xFF
  · exact (addrAdd_boot h d).1
  · have := congrArg (fun v => BitVec.extractLsb' 8 8 v) (addrAdd_pool h d).1
    simp only [extract_extract _ 16 16 8 8 (by omega)] at this
    exact this

theorem addrSub_addrAdd {A : Word} (h : addrTag A ≠ 0xFF) (d : Int) : addrSub (addrAdd A d) = addrSub A := by
  have := congrArg (fun v => BitVec.extractLsb' 0 8 v) (addrAdd_pool h d).1
  simp only [extract_extract _ 16 16 0 8 (by omega)] at this
  exact Fin.ext (congrArg BitVec.toNat this)

theorem addrOff_addrAdd {A : Word} (h : addrTag A ≠ 0xFF) (d : Int) :
    addrOff (addrAdd A d) = addrOff A + BitVec.ofInt 16 d := (addrAdd_pool h d).2

theorem addrBootOff_addrAdd {A : Word} (h : addrTag A = 0xFF) (d : Int) :
    addrBootOff (addrAdd A d) = addrBootOff A + BitVec.ofInt 24 d := (addrAdd_boot h d).2

/-- Two addresses with the same upper bits and the same offset field are equal. -/
theorem addr_ext {A B : Word} (n m : Nat) (hmn : m + n = 32) (hi : A.extractLsb' n m = B.extractLsb' n m)
    (lo : A.extractLsb' 0 n = B.extractLsb' 0 n) : A = B := by
  apply BitVec.eq_of_getLsbD_eq
  intro i hi32
  by_cases h : i < n
  · have := congrArg (fun v => v.getLsbD i) lo
    simpa [h] using this
  · have := congrArg (fun v => v.getLsbD (i - n)) hi
    simpa [show i - n < m by omega, show n + (i - n) = i by omega] using this

/-- Moves compose (R45). -/
theorem addrAdd_addrAdd (A : Word) (d e : Int) : addrAdd (addrAdd A d) e = addrAdd A (d + e) := by
  by_cases h : addrTag A = 0xFF
  · have h' : addrTag (addrAdd A d) = 0xFF := by rw [addrTag_addrAdd, h]
    apply addr_ext 24 8 rfl
    · rw [(addrAdd_boot h' e).1, (addrAdd_boot h d).1, (addrAdd_boot h (d + e)).1]
    · rw [(addrAdd_boot h' e).2, (addrAdd_boot h d).2, (addrAdd_boot h (d + e)).2, BitVec.ofInt_add, BitVec.add_assoc]
  · have h' : addrTag (addrAdd A d) ≠ 0xFF := by rw [addrTag_addrAdd]; exact h
    apply addr_ext 16 16 rfl
    · rw [(addrAdd_pool h' e).1, (addrAdd_pool h d).1, (addrAdd_pool h (d + e)).1]
    · rw [(addrAdd_pool h' e).2, (addrAdd_pool h d).2, (addrAdd_pool h (d + e)).2, BitVec.ofInt_add, BitVec.add_assoc]

@[simp] theorem addrAdd_zero (A : Word) : addrAdd A 0 = A := by
  by_cases h : addrTag A = 0xFF
  · exact addr_ext 24 8 rfl (addrAdd_boot h 0).1 (by rw [(addrAdd_boot h 0).2]; simp)
  · exact addr_ext 16 16 rfl (addrAdd_pool h 0).1 (by rw [(addrAdd_pool h 0).2]; simp)

namespace Machine

/-- All bytes of one read take one route (R46). -/
@[simp] theorem routeRead_addrAdd (c : CtxId) (p : Bool) (A : Word) (d : Int) :
    routeRead c p (addrAdd A d) = routeRead c p A := by
  by_cases h : addrTag A = 0xFF
  · simp [routeRead, h]
  · simp [routeRead, addrSub_addrAdd h]

/-- All bytes of one write take one route (R46, R47). -/
@[simp] theorem routeWrite_addrAdd (c : CtxId) (p : Bool) (A : Word) (d : Int) :
    routeWrite c p (addrAdd A d) = routeWrite c p A := by
  by_cases h : addrTag A = 0xFF
  · simp [routeWrite, h]
  · simp [routeWrite, addrSub_addrAdd h]

/-- A read routes to the boot image exactly for tag 0xFF (R42, R62). -/
theorem routeRead_boot_iff {c : CtxId} {p : Bool} {A : Word} {q : Place} (h : routeRead c p A = some q) :
    q = .boot ↔ addrTag A = 0xFF := by
  have key : addrTag A = 0xFF ↔ (addrTag A).toNat = 0xFF := by
    rw [← BitVec.toNat_inj]; rfl
  rw [key]
  simp only [routeRead] at h
  repeat' split at h
  all_goals first
    | (cases h; simp; omega)
    | contradiction

/-- Every write that succeeds goes to a data pool: the issuer's own, or with privilege any (R43, D29). -/
theorem routeWrite_some {c : CtxId} {p : Bool} {A : Word} {q : Place} (h : routeWrite c p A = some q) :
    addrTag A ≠ 0xFF ∧ ∃ j, q = .pool .data j ∧ (p = false → j = c) := by
  have key : addrTag A = 0xFF ↔ (addrTag A).toNat = 0xFF := by
    rw [← BitVec.toNat_inj]; rfl
  rw [Ne, key]
  simp only [routeWrite, Config.codeWritableSpecific] at h
  repeat' split at h
  all_goals first
    | (cases h; exact ⟨by omega, _, rfl, by simp_all⟩)
    | contradiction

/-- A write route that succeeds is also the read route, so what is stored is what is read back (R42, R43). -/
theorem routeRead_of_routeWrite {c : CtxId} {p : Bool} {A : Word} {q : Place} (h : routeWrite c p A = some q) :
    routeRead c p A = some q := by
  simp only [routeWrite, Config.codeWritableSpecific] at h
  simp only [routeRead]
  split at h
  · simp_all
  · split at h
    · contradiction
    · split at h
      · rename_i h2 h3
        rw [if_neg (by omega), if_neg (by omega), if_neg (by omega), if_neg h2, if_pos h3]
        exact h
      · simp at h

/-- An unprivileged read stays in the issuer's own pools (R42, R44). -/
theorem routeRead_unprivileged {c : CtxId} {A : Word} {q : Place} (h : routeRead c false A = some q) :
    ∃ P, q = .pool P c := by
  simp only [routeRead] at h
  repeat' split at h
  all_goals first
    | (cases h; exact ⟨_, rfl⟩)
    | simp_all

end Machine

end Sys2Proof
end

