-- ==== Sys2Proof/Laws/Memory.lean ====
section
/-! SUPPORT. The memory: a write is read back and leaves every other byte alone; every operation keeps the canonical form; the
bytes of one access are distinct, so a store is read back whole (R46, R47, R53). -/

namespace Sys2Proof.Machine

/-! ### One byte -/

theorem Memory.read_insert (m : Memory) (a b : Nat) (v : Byte) :
    (Memory.insert a v m).read b = if b = a then v else m.read b := by
  induction m with
  | nil => simp only [Memory.insert, Memory.read, eq_comm]
  | cons c m ih =>
    obtain ⟨k, w⟩ := c
    simp only [Memory.insert]
    split
    · simp only [Memory.read, eq_comm]
    · split
      · rename_i h
        subst h
        by_cases hb : a = b
        · simp [Memory.read, hb]
        · simp [Memory.read, hb, Ne.symm hb]
      · simp only [Memory.read, ih]
        by_cases hb : k = b
        · rename_i h
          subst hb
          simp [Ne.symm h]
        · simp [hb]

theorem Memory.read_erase (m : Memory) (a b : Nat) :
    (Memory.erase a m).read b = if b = a then Memory.unlisted a else m.read b := by
  induction m with
  | nil =>
    simp only [Memory.erase, List.filter_nil, Memory.read]
    split <;> simp_all
  | cons c m ih =>
    obtain ⟨k, w⟩ := c
    simp only [Memory.erase] at ih ⊢
    by_cases hk : k = a
    · subst hk
      simp only [List.filter_cons, bne_self_eq_false, Bool.false_eq_true, if_false, ih, Memory.read]
      by_cases hb : b = k
      · simp [hb]
      · simp [hb, Ne.symm hb]
    · have : (k != a) = true := by simp [hk]
      simp only [List.filter_cons, this, if_true, Memory.read, ih]
      by_cases hb : k = b
      · subst hb
        simp [hk]
      · simp [hb]

/-- A redundant cell holds what its address reads as when it is not listed (log 2). -/
theorem Memory.unlisted_of_redundant {a : Nat} {v : Byte} (h : Memory.redundant a v = true) : Memory.unlisted a = v := by
  simp only [Memory.redundant, Bool.and_eq_true, decide_eq_true_eq, beq_iff_eq] at h
  simp [Memory.unlisted, h.1, h.2]

/-- A write is read back, and leaves every other byte alone. -/
theorem Memory.read_write (m : Memory) (a b : Nat) (v : Byte) :
    (m.write a v).read b = if b = a then v else m.read b := by
  simp only [Memory.write]
  split
  · rename_i h
    rw [Memory.read_erase, Memory.unlisted_of_redundant h]
  · exact Memory.read_insert m a b v

@[simp] theorem Memory.read_write_same (m : Memory) (a : Nat) (v : Byte) : (m.write a v).read a = v := by
  simp [Memory.read_write]

theorem Memory.read_write_other (m : Memory) {a b : Nat} (v : Byte) (h : b ≠ a) : (m.write a v).read b = m.read b := by
  simp [Memory.read_write, h]

/-! ### Canonical form -/

theorem Memory.mem_insert {m : Memory} {a : Nat} {v : Byte} {c : Host.Cell} (h : c ∈ Memory.insert a v m) :
    c = (a, v) ∨ c ∈ m := by
  induction m with
  | nil => simpa [Memory.insert] using h
  | cons d m ih =>
    obtain ⟨k, w⟩ := d
    simp only [Memory.insert] at h
    split at h
    · simpa using h
    · split at h
      · rcases List.mem_cons.mp h with h | h
        · exact .inl h
        · exact .inr (List.mem_cons_of_mem _ h)
      · rcases List.mem_cons.mp h with h | h
        · exact .inr (by simp [h])
        · rcases ih h with h | h
          · exact .inl h
          · exact .inr (List.mem_cons_of_mem _ h)

theorem Memory.insert_rising {m : Memory} (a : Nat) (v : Byte) (h : m.Pairwise fun c d => c.1 < d.1) :
    (Memory.insert a v m).Pairwise fun c d => c.1 < d.1 := by
  induction m with
  | nil => simp [Memory.insert]
  | cons c m ih =>
    obtain ⟨k, w⟩ := c
    obtain ⟨hk, hm⟩ := List.pairwise_cons.mp h
    simp only [Memory.insert]
    split
    · rename_i ha
      refine List.pairwise_cons.mpr ⟨fun d hd => ?_, h⟩
      rcases List.mem_cons.mp hd with hd | hd
      · simpa [hd] using ha
      · exact lt_trans ha (hk d hd)
    · split
      · rename_i ha
        subst ha
        exact List.pairwise_cons.mpr ⟨hk, hm⟩
      · rename_i h1 h2
        refine List.pairwise_cons.mpr ⟨fun d hd => ?_, ih hm⟩
        rcases Memory.mem_insert hd with hd | hd
        · subst hd
          show k < a
          omega
        · exact hk d hd

/-- A write inside the memories keeps canonical form. -/
theorem Memory.write_wf {m : Memory} {a : Nat} (v : Byte) (h : m.wf) (ha : a < memSize) : (m.write a v).wf := by
  simp only [Memory.write]
  split
  · exact ⟨h.1.filter _, fun c hc => h.2 c (List.mem_filter.mp hc).1⟩
  · rename_i hv
    refine ⟨Memory.insert_rising a v h.1, fun c hc => ?_⟩
    rcases Memory.mem_insert hc with hc | hc
    · subst hc
      exact ⟨ha, by simpa using hv⟩
    · exact h.2 c hc

/-- Every byte of every place is inside the memories (R25, R26). -/
theorem Place.addr_lt (p : Place) (A : Word) : p.addr A < memSize := by
  cases p with
  | pool P j =>
    have h1 := j.isLt
    have h2 := (addrOff A).isLt
    cases P <;> simp only [Place.addr, poolAddr, Pool.base, memSize, poolSpan] <;> omega
  | boot =>
    have h := (addrBootOff A).isLt
    simp only [Place.addr, bootAddr, bootBase, memSize, poolSpan]
    omega

theorem Memory.store_wf {m : Memory} (p : Place) (A : Word) (i : Nat) (bs : List Byte) (h : m.wf) :
    (Memory.store p A i bs m).wf := by
  induction bs generalizing m i with
  | nil => exact h
  | cons b bs ih => exact ih (i + 1) (Memory.write_wf b h (p.addr_lt _))

/-- The loader keeps canonical form. -/
theorem Memory.loadBoot_wf {m : Memory} (i : Nat) (bs : List Byte) (h : m.wf) : (Memory.loadBoot i bs m).wf := by
  induction bs generalizing m i with
  | nil => exact h
  | cons b bs ih =>
    refine ih (i + 1) (Memory.write_wf b h ?_)
    have := (BitVec.ofNat 24 i).isLt
    simp only [bootAddr, bootBase, memSize, poolSpan]
    omega

theorem reset_mem_wf : State.reset.mem.wf := ⟨List.Pairwise.nil, fun c hc => by cases hc⟩

/-! ### The bytes of one access -/

@[simp] theorem Memory.load_length (m : Memory) (p : Place) (A : Word) (n : Nat) : (m.load p A n).length = n := by
  simp [Memory.load]

/-- Two bytes of one place coincide only if their offsets do. -/
theorem Place.addr_inj {p : Place} {A B : Word} (h : p.addr A = p.addr B) :
    (p = .boot → addrBootOff A = addrBootOff B) ∧ (p ≠ .boot → addrOff A = addrOff B) := by
  cases p with
  | pool P j =>
    simp only [Place.addr, poolAddr] at h
    exact ⟨fun h => (by cases h), fun _ => BitVec.eq_of_toNat_eq (by omega)⟩
  | boot =>
    simp only [Place.addr, bootAddr] at h
    exact ⟨fun _ => BitVec.eq_of_toNat_eq (by omega), fun h => absurd rfl h⟩

theorem ofInt_ofNat_inj {w i j : Nat} (hi : i < 2 ^ w) (hj : j < 2 ^ w) (h : BitVec.ofInt w i = BitVec.ofInt w j) : i = j := by
  simp only [BitVec.ofInt_natCast] at h
  have := congrArg BitVec.toNat h
  simpa [Nat.mod_eq_of_lt hi, Nat.mod_eq_of_lt hj] using this

/-- Bytes `i` and `j` of one access, fewer than 65536 of them, are different bytes, where the place is the boot image exactly
for tag 0xFF (as the routes give it). -/
theorem Place.addr_addrAdd_inj {p : Place} {A : Word} (hp : p = .boot ↔ addrTag A = 0xFF) {i j : Nat} (hi : i < 65536)
    (hj : j < 65536) (h : p.addr (addrAdd A i) = p.addr (addrAdd A j)) : i = j := by
  obtain ⟨h1, h2⟩ := Place.addr_inj h
  by_cases hb : p = .boot
  · have ht := hp.mp hb
    have := h1 hb
    rw [addrBootOff_addrAdd ht, addrBootOff_addrAdd ht, BitVec.add_right_inj] at this
    exact ofInt_ofNat_inj (by omega) (by omega) this
  · have ht : addrTag A ≠ 0xFF := fun ht => hb (hp.mpr ht)
    have := h2 hb
    rw [addrOff_addrAdd ht, addrOff_addrAdd ht, BitVec.add_right_inj] at this
    exact ofInt_ofNat_inj (by omega) (by omega) this

/-- A store leaves every byte outside it alone (R47). -/
theorem Memory.read_store_other {m : Memory} {p : Place} {A : Word} {a : Nat} (i : Nat) (bs : List Byte)
    (h : ∀ j < bs.length, a ≠ p.addr (addrAdd A (i + j : Nat))) : (Memory.store p A i bs m).read a = m.read a := by
  induction bs generalizing m i with
  | nil => rfl
  | cons b bs ih =>
    simp only [Memory.store]
    rw [ih (i + 1), Memory.read_write_other]
    · simpa using h 0 (by simp)
    · intro j hj
      have := h (j + 1) (by simpa using hj)
      rwa [show i + (j + 1) = i + 1 + j by omega] at this

/-- A store of fewer than 65536 bytes puts byte `j` at its place (R47). -/
theorem Memory.read_store_at {m : Memory} {p : Place} {A : Word} (hp : p = .boot ↔ addrTag A = 0xFF) (i : Nat) (bs : List Byte)
    (hn : i + bs.length < 65536) (j : Nat) (hj : j < bs.length) :
    (Memory.store p A i bs m).read (p.addr (addrAdd A (i + j : Nat))) = bs[j] := by
  induction bs generalizing m i j with
  | nil => simp at hj
  | cons b bs ih =>
    simp only [List.length_cons] at hn hj
    simp only [Memory.store]
    cases j with
    | zero =>
      rw [Memory.read_store_other, Nat.add_zero, Memory.read_write_same]
      · rfl
      · intro j hj h
        have := Place.addr_addrAdd_inj hp (by omega) (by omega) h
        omega
    | succ j =>
      rw [show i + (j + 1) = i + 1 + j by omega]
      rw [ih (i + 1) (by omega) j (by omega)]
      rfl

/-- What is stored is loaded back (R46, R47). -/
theorem Memory.load_store {m : Memory} {p : Place} {A : Word} (hp : p = .boot ↔ addrTag A = 0xFF) (bs : List Byte)
    (hn : bs.length < 65536) : (Memory.store p A 0 bs m).load p A bs.length = bs := by
  apply List.ext_getElem
  · simp
  · intro j h1 h2
    simp only [Memory.load, List.getElem_map, List.getElem_range]
    have := Memory.read_store_at (m := m) hp 0 bs (by omega) j h2
    simpa using this

/-! ### Byte order -/

@[simp] theorem leBytes_length (n : Nat) (v : Word) : (leBytes n v).length = n := by
  induction n generalizing v with
  | zero => rfl
  | succ n ih => simp [leBytes, ih]

theorem getLsbD_leWord_cons (b : Byte) (bs : List Byte) (i : Nat) (hi : i < 32) :
    (leWord (b :: bs)).getLsbD i = if i < 8 then b.getLsbD i else (leWord bs).getLsbD (i - 8) := by
  simp only [leWord, BitVec.getLsbD_or, BitVec.getLsbD_setWidth, BitVec.getLsbD_shiftLeft, hi, decide_true, Bool.true_and]
  by_cases h : i < 8
  · simp [h]
  · simp [h, BitVec.getLsbD_of_ge b i (by omega)]

/-- The low `n` bytes of a word, put together again, are the word without its upper bits (R46, R47). -/
theorem getLsbD_leWord_leBytes (n : Nat) (v : Word) (i : Nat) (hi : i < 32) :
    (leWord (leBytes n v)).getLsbD i = (decide (i < 8 * n) && v.getLsbD i) := by
  induction n generalizing v i with
  | zero => simp [leBytes, leWord]
  | succ n ih =>
    rw [leBytes, getLsbD_leWord_cons _ _ _ hi]
    by_cases h : i < 8
    · simp [h, show i < 8 * (n + 1) by omega]
    · rw [if_neg h, ih _ _ (by omega)]
      simp [show 8 + (i - 8) = i by omega, show i - 8 < 8 * n ↔ i < 8 * (n + 1) by omega]

@[simp] theorem leWord_leBytes_four (v : Word) : leWord (leBytes 4 v) = v := by
  apply BitVec.eq_of_getLsbD_eq
  intro i hi
  rw [getLsbD_leWord_leBytes 4 v i hi]
  simp [hi]

/-- The mask of a size class keeps the bits of its bytes (R72). -/
theorem SizeClass.getLsbD_mask (sc : SizeClass) (i : Nat) : sc.mask.getLsbD i = decide (i < 8 * sc.bytes) := by
  by_cases hi : i < 32
  · cases sc <;> interval_cases i <;> rfl
  · have : 8 * sc.bytes ≤ 32 := by cases sc <;> decide
    rw [BitVec.getLsbD_of_ge _ _ (by omega), eq_comm, decide_eq_false_iff_not]
    omega

/-- The bytes of a size class, stored and read back, are the masked value (R47, R72). -/
@[simp] theorem leWord_leBytes (sc : SizeClass) (v : Word) : leWord (leBytes sc.bytes v) = v &&& sc.mask := by
  apply BitVec.eq_of_getLsbD_eq
  intro i hi
  rw [getLsbD_leWord_leBytes _ v i hi, BitVec.getLsbD_and, SizeClass.getLsbD_mask, Bool.and_comm]

end Sys2Proof.Machine
end

