-- ==== Sys2Proof/Laws/Ops.lean ====
section
/-! SUPPORT. What each shared operation can do, said once: sized accesses by their route, push and pop, the search, the
scheduler's check. Later proofs cite these and unfold none of them. -/

namespace Sys2Proof.Machine

variable (s : State)

/-! ### Routes and sized accesses -/

/-- Where a read leads depends only on the current context's index and `space` (R42, R44). -/
theorem readRoute_congr {s t : State} (hc : t.cur = s.cur) (hs : t.own.space = s.own.space) (A : Word) :
    t.readRoute A = s.readRoute A := by
  simp only [State.readRoute, Context.privileged, hc, hs]

/-- Where a write leads depends only on the current context's index and `space` (R43, R44). -/
theorem writeRoute_congr {s t : State} (hc : t.cur = s.cur) (hs : t.own.space = s.own.space) (A : Word) :
    t.writeRoute A = s.writeRoute A := by
  simp only [State.writeRoute, Context.privileged, hc, hs]

@[simp] theorem readRoute_addrAdd (A : Word) (d : Int) : s.readRoute (addrAdd A d) = s.readRoute A :=
  routeRead_addrAdd _ _ _ _

@[simp] theorem writeRoute_addrAdd (A : Word) (d : Int) : s.writeRoute (addrAdd A d) = s.writeRoute A :=
  routeWrite_addrAdd _ _ _ _

/-- A read that routes yields the bytes of its place and changes nothing (R46). -/
theorem memRead_some {s : State} {A : Word} {p : Place} (h : s.readRoute A = some p) (n : Nat) :
    s.memRead A n = (leWord (s.mem.load p A n), s) := by
  simp only [State.memRead, State.readBytes, State.afterRead, h]

/-- A read that fails yields an unspecified draw and raises READ_ERROR (R48). -/
theorem memRead_none {s : State} {A : Word} (h : s.readRoute A = none) (n : Nat) :
    s.memRead A n = (leWord (s.unspecBytes n), (s.drawn n).raise .readError) := by
  simp only [State.memRead, State.readBytes, State.afterRead, h]

/-- The state after a read: unchanged, or READ_ERROR and a draw (R46, R48). -/
theorem afterRead_cases (A : Word) (n : Nat) :
    s.afterRead A n = s ∨ (s.readRoute A = none ∧ s.afterRead A n = (s.drawn n).raise .readError) := by
  cases h : s.readRoute A with
  | none => exact .inr ⟨rfl, by simp only [State.afterRead, h]⟩
  | some p => exact .inl (by simp only [State.afterRead, h])

/-- A write that routes stores its bytes and changes nothing else (R47). -/
theorem memWrite_some {s : State} {A : Word} {p : Place} (h : s.writeRoute A = some p) (n : Nat) (v : Word) :
    s.memWrite A n v = { s with mem := Memory.store p A 0 (leBytes n v) s.mem } := by
  simp only [State.memWrite, h]

/-- A write that fails raises WRITE_ERROR and stores nothing (R49). -/
theorem memWrite_none {s : State} {A : Word} (h : s.writeRoute A = none) (n : Nat) (v : Word) :
    s.memWrite A n v = s.raise .writeError := by
  simp only [State.memWrite, h]

@[simp] theorem unspecBytes_length (n : Nat) : (s.unspecBytes n).length = n := by simp [State.unspecBytes]

/-- A read yields as many bytes as were asked for, whether or not it routes (R46, R48). -/
@[simp] theorem readBytes_length (A : Word) (n : Nat) : (s.readBytes A n).length = n := by
  simp only [State.readBytes]
  split <;> simp

/-- The decoder always gets the longest instruction's bytes (log 8). -/
@[simp] theorem fetchWindow_length : s.fetchWindow.length = maxLength := readBytes_length _ _ _

/-! ### The search and the scheduler's check -/

/-- The search finds the first alive context after `c`: the one `k` places on, none before it (R254). -/
theorem searchAlive_first {n : Nat} {c : CtxId} (h : ∃ k : Nat, 1 ≤ k ∧ k ≤ n ∧ (s.ctx (c + Fin.ofNat 256 k)).alive = true) :
    ∃ k : Nat, 1 ≤ k ∧ k ≤ n ∧ searchAlive s n c = c + Fin.ofNat 256 k ∧ (s.ctx (c + Fin.ofNat 256 k)).alive = true ∧
      ∀ j : Nat, 1 ≤ j → j < k → (s.ctx (c + Fin.ofNat 256 j)).alive = false := by
  induction n generalizing c with
  | zero => obtain ⟨k, h1, h2, _⟩ := h; omega
  | succ n ih =>
    have shift (k : Nat) : c + 1 + Fin.ofNat 256 k = c + Fin.ofNat 256 (k + 1) := by
      apply Fin.ext
      simp only [Fin.val_add, Fin.ofNat_eq_cast, Fin.val_natCast, Fin.val_one]
      omega
    simp only [searchAlive]
    by_cases ha : (s.ctx (c + 1)).alive = true
    · exact ⟨1, le_refl 1, by omega, by rw [if_pos ha]; rfl, ha, fun j h1 h2 => by omega⟩
    · rw [if_neg ha]
      obtain ⟨k, h1, h2, hk⟩ := h
      have hk1 : k ≠ 1 := fun e => ha (by rw [e] at hk; exact hk)
      obtain ⟨k', g1, g2, g3, g4, g5⟩ := ih (c := c + 1) ⟨k - 1, by omega, by omega, by
        rw [shift, show k - 1 + 1 = k by omega]; exact hk⟩
      refine ⟨k' + 1, by omega, by omega, by rw [g3, shift], by rw [← shift]; exact g4, fun j j1 j2 => ?_⟩
      by_cases hj : j = 1
      · rw [hj]
        exact Bool.eq_false_iff.mpr ha
      · have := g5 (j - 1) (by omega) (by omega)
        rwa [shift, show j - 1 + 1 = j by omega] at this

/-- Every context is at most 256 places after any other. -/
theorem ctx_reachable (c d : CtxId) : ∃ k : Nat, 1 ≤ k ∧ k ≤ 256 ∧ c + Fin.ofNat 256 k = d := by
  by_cases h : c.val < d.val
  · exact ⟨d.val - c.val, by omega, by omega, by
      apply Fin.ext
      simp only [Fin.val_add, Fin.ofNat_eq_cast, Fin.val_natCast]
      omega⟩
  · exact ⟨256 + d.val - c.val, by omega, by omega, by
      apply Fin.ext
      simp only [Fin.val_add, Fin.ofNat_eq_cast, Fin.val_natCast]
      omega⟩

/-- While context 0 is alive the search ends at an alive context (R255). -/
theorem searchAlive_alive {s : State} (h : (s.ctx 0).alive = true) (c : CtxId) :
    (s.ctx (searchAlive s 256 c)).alive = true := by
  obtain ⟨k, h1, h2, hk⟩ := ctx_reachable c 0
  obtain ⟨k', _, _, g, ga, _⟩ := searchAlive_first s (n := 256) (c := c) ⟨k, h1, h2, by rw [hk]; exact h⟩
  rw [g]
  exact ga

/-- What the scheduler's check does: halts at once; counts the instruction; or ends the quantum and halts or switches
(R250, R252, R253). -/
theorem schedulerCheck_cases :
    ((s.ctx 0).alive = false ∧ schedulerCheck s = { s with halted := true }) ∨
    ((s.ctx 0).alive = true ∧ s.own.quantumCount + 1 ≠ Config.quantum ∧ stopping s.own.flags = false ∧
      schedulerCheck s = s.setOwn { s.own with quantumCount := s.own.quantumCount + 1 }) ∨
    ((s.ctx 0).alive = true ∧ (s.own.quantumCount + 1 = Config.quantum ∨ stopping s.own.flags = true) ∧
      schedulerCheck s = switchContext (s.setOwn (s.own.endQuantum (stopping s.own.flags)))) := by
  simp only [schedulerCheck]
  by_cases h0 : (s.ctx 0).alive = true
  · rw [if_pos h0]
    by_cases h1 : s.own.quantumCount + 1 = Config.quantum ∨ stopping s.own.flags = true
    · rw [if_pos h1]
      exact .inr (.inr ⟨h0, h1, rfl⟩)
    · rw [if_neg h1]
      simp only [not_or, Bool.not_eq_true] at h1
      exact .inr (.inl ⟨h0, h1.1, h1.2, rfl⟩)
  · rw [if_neg h0]
    exact .inl ⟨by simpa using h0, rfl⟩

/-- What the switch does: halts, or goes to the context the search finds (R252, R254). -/
theorem switchContext_cases :
    ((s.ctx 0).alive = false ∧ switchContext s = { s with halted := true }) ∨
    ((s.ctx 0).alive = true ∧ switchContext s = { s with cur := searchAlive s 256 s.cur }) := by
  simp only [switchContext]
  by_cases h0 : (s.ctx 0).alive = true
  · exact .inr ⟨h0, if_pos h0⟩
  · exact .inl ⟨by simpa using h0, if_neg h0⟩

end Sys2Proof.Machine
end

