-- ==== Sys2Proof/Laws/Effect.lean ====
section
/-! SUPPORT. What one instruction can do at most (R100, R31): the fields of the current context that it may write, and the
bytes a store may reach. Every meaning has this effect, so whole-machine claims need not look at the instructions again. -/

namespace Sys2Proof.Machine

/-- The bytes of `t` that differ from those of `s` lie in data pools, and for an unprivileged context in its own (R43, R44). -/
def State.WritesData (s t : State) : Prop :=
  ∀ a, t.mem.read a = s.mem.read a ∨
    ∃ (j : CtxId) (off : BitVec 16), a = poolAddr .data j off ∧ (s.own.privileged = false → j = s.cur)

/-- The most an instruction can do (R31, R100). -/
structure State.Effect (s t : State) : Prop where
  cur : t.cur = s.cur
  halted : t.halted = s.halted
  others : ∀ c, c ≠ s.cur → t.ctx c = s.ctx c
  alive : t.own.alive = s.own.alive
  quantumCount : t.own.quantumCount = s.own.quantumCount
  space : t.own.space = s.own.space
  sp : t.own.sp = s.own.sp
  flags : ∃ m : Word, t.own.flags = s.own.flags ||| m ∧ m &&& stopMask = m
  cmp : s.own.cmp.extractLsb' 3 5 = 0 → t.own.cmp.extractLsb' 3 5 = 0
  memory : s.mem.wf → t.mem.wf
  bytes : s.WritesData t

theorem State.Effect.refl (s : State) : s.Effect s where
  cur := rfl
  halted := rfl
  others := fun _ _ => rfl
  alive := rfl
  quantumCount := rfl
  space := rfl
  sp := rfl
  flags := ⟨0, by simp, by simp⟩
  cmp := id
  memory := id
  bytes := fun _ => .inl rfl

theorem State.Effect.trans {s t u : State} (h : s.Effect t) (g : t.Effect u) : s.Effect u where
  cur := g.cur.trans h.cur
  halted := g.halted.trans h.halted
  others := fun c hc => (g.others c (by rw [h.cur]; exact hc)).trans (h.others c hc)
  alive := g.alive.trans h.alive
  quantumCount := g.quantumCount.trans h.quantumCount
  space := g.space.trans h.space
  sp := g.sp.trans h.sp
  flags := by
    obtain ⟨m, hm, hm'⟩ := h.flags
    obtain ⟨n, hn, hn'⟩ := g.flags
    refine ⟨m ||| n, by rw [hn, hm, BitVec.or_assoc], ?_⟩
    rw [BitVec.and_or_distrib_right, hm', hn']
  cmp := fun hs => g.cmp (h.cmp hs)
  memory := fun hs => g.memory (h.memory hs)
  bytes := fun a => by
    rcases g.bytes a with hg | ⟨j, off, ha, hj⟩
    · rcases h.bytes a with hh | hh
      · exact .inl (hg.trans hh)
      · exact .inr hh
    · refine .inr ⟨j, off, ha, fun hp => ?_⟩
      rw [← h.cur]
      exact hj (by simpa only [Context.privileged, h.space] using hp)

/-- An update of the current context that keeps what `Effect` keeps. -/
theorem State.Effect.ofOwn {s : State} {k : Context} (ha : k.alive = s.own.alive) (hq : k.quantumCount = s.own.quantumCount)
    (hs : k.space = s.own.space) (hp : k.sp = s.own.sp)
    (hf : ∃ m : Word, k.flags = s.own.flags ||| m ∧ m &&& stopMask = m)
    (hc : s.own.cmp.extractLsb' 3 5 = 0 → k.cmp.extractLsb' 3 5 = 0) : s.Effect (s.setOwn k) where
  cur := rfl
  halted := rfl
  others := fun c hc => ctx_setOwn_other s k c hc
  alive := by rw [own_setOwn, ha]
  quantumCount := by rw [own_setOwn, hq]
  space := by rw [own_setOwn, hs]
  sp := by rw [own_setOwn, hp]
  flags := by rw [own_setOwn]; exact hf
  cmp := by rw [own_setOwn]; exact hc
  memory := id
  bytes := fun _ => .inl rfl

theorem flags_kept (w : Word) : ∃ m : Word, w = w ||| m ∧ m &&& stopMask = m := ⟨0, by simp, by simp⟩

variable (s : State)

theorem setX_effect (r : Reg) (v : Word) : s.Effect (s.setX r v) := .ofOwn rfl rfl rfl rfl (flags_kept _) id

theorem setF_effect (r : FReg) (v : Word) : s.Effect (s.setF r v) := .ofOwn rfl rfl rfl rfl (flags_kept _) id

theorem setPc_effect (t : Word) : s.Effect (s.setPc t) := .ofOwn rfl rfl rfl rfl (flags_kept _) id

theorem setCp_effect (t : Word) : s.Effect (s.setCp t) := .ofOwn rfl rfl rfl rfl (flags_kept _) id

theorem advance_effect (n : Nat) : s.Effect (s.advance n) := setPc_effect s _

theorem raise_effect (F : Flag) : s.Effect (s.raise F) :=
  .ofOwn rfl rfl rfl rfl ⟨F.mask, rfl, by cases F <;> rfl⟩ id

theorem illegalAfter_effect (n : Nat) : s.Effect (s.illegalAfter n) := (advance_effect s n).trans (raise_effect _ _)

theorem setCmp_effect (v : Byte) (h : s.own.cmp.extractLsb' 3 5 = 0 → v.extractLsb' 3 5 = 0) : s.Effect (s.setCmp v) :=
  .ofOwn rfl rfl rfl rfl (flags_kept _) h

theorem drawn_effect (n : Nat) : s.Effect (s.drawn n) := { State.Effect.refl s with }

theorem periphTaken_effect (n : Nat) : s.Effect (s.periphTaken n) := { State.Effect.refl s with }

theorem periphCall_effect (fn : PeriphFn) : s.Effect (s.periphCall fn) := { State.Effect.refl s with }

theorem afterRead_effect (A : Word) (n : Nat) : s.Effect (s.afterRead A n) := by
  rcases afterRead_cases s A n with h | ⟨_, h⟩
  · rw [h]
    exact .refl s
  · rw [h]
    exact (drawn_effect s n).trans (raise_effect _ _)

theorem memRead_effect (A : Word) (n : Nat) : s.Effect (s.memRead A n).2 := afterRead_effect s A n

theorem memWrite_effect (A : Word) (n : Nat) (v : Word) : s.Effect (s.memWrite A n v) := by
  cases h : s.writeRoute A with
  | none =>
    rw [memWrite_none h]
    exact raise_effect s _
  | some p =>
    rw [memWrite_some h]
    obtain ⟨_, j, hp, hj⟩ := routeWrite_some h
    subst hp
    refine { State.Effect.refl s with memory := fun hs => Memory.store_wf _ _ _ _ hs, bytes := fun a => ?_ }
    by_cases ha : ∃ i < (leBytes n v).length, a = Place.addr (addrAdd A (0 + i : Nat)) (.pool .data j)
    · obtain ⟨i, _, hi⟩ := ha
      exact .inr ⟨j, _, hi, hj⟩
    · refine .inl (Memory.read_store_other 0 _ fun i hi h => ha ⟨i, hi, h⟩)

theorem readOperand_effect (sc : SizeClass) (op : Operand) : s.Effect (s.readOperand sc op).2 := by
  cases op with
  | reg r => exact .refl s
  | imm v => exact .refl s
  | ind r => exact memRead_effect s _ _
  | mem A => exact memRead_effect s _ _

theorem writeDest_effect (sc : SizeClass) (v : Word) (op : Operand) : s.Effect (s.writeDest sc v op) := by
  cases op with
  | reg r => exact setX_effect s r v
  | imm w => exact .refl s
  | ind r => exact memWrite_effect s _ _ _
  | mem A => exact memWrite_effect s _ _ _

/-- The outcome bit lies in `cmp[2:0]` (R18, R197). -/
theorem compareBits_high (sc : SizeClass) (signed : Bool) (u v : Word) : (compareBits sc signed u v).extractLsb' 3 5 = 0 := by
  simp only [compareBits, compareInts]
  repeat' split
  all_goals rfl

theorem extract_or {n : Nat} (a b : BitVec n) (k w : Nat) :
    (a ||| b).extractLsb' k w = a.extractLsb' k w ||| b.extractLsb' k w := by
  ext i hi
  simp

/-- Every instruction answers a next state (R100: "never throws"). -/
theorem exec_next (i : Instr) : ∃ t, exec i s = .next t := by
  cases i
  case mov sc dst src =>
    simp only [exec, execMov]
    split <;> exact ⟨_, rfl⟩
  case cmp sc signed keep dst src =>
    simp only [exec, execCmp]
    split <;> exact ⟨_, rfl⟩
  case div sc a b =>
    simp only [exec, execDiv]
    split <;> exact ⟨_, rfl⟩
  all_goals exact ⟨_, rfl⟩

theorem aluFrame_effect (op : Word → Word → Word) (n : Nat) (sc : SizeClass) (a : Reg) (b : AluSrc) :
    s.Effect (aluFrame op n sc a b s) := (advance_effect s n).trans (setX_effect _ _ _)

theorem fpuFrame_effect (op : Word → Word → FpResult) (n : Nat) (d r : FReg) : s.Effect (fpuFrame op n d r s) :=
  ((advance_effect s n).trans (setF_effect _ _ _)).trans (drawn_effect _ _)

theorem jumpOn_effect (mode : CondMode) (mask : Nibble) (target : Word) : s.Effect (jumpOn mode mask target s) := by
  simp only [jumpOn]
  split
  · exact raise_effect s _
  · split
    · exact setPc_effect s _
    · exact .refl s

theorem push_effect (n : Nat) (v : Word) : s.Effect (s.push .cp n v) :=
  (memWrite_effect s _ _ _).trans (setCp_effect _ _)

theorem pop_effect (n : Nat) : s.Effect (s.pop .cp n).2 := (setCp_effect s _).trans (memRead_effect _ _ _)

theorem peripheral_effect (r : PeriphRequest) : s.Effect (s.peripheral r) := by
  cases r with
  | emit fn => exact periphCall_effect s fn
  | lastKey => exact (setX_effect s _ _).trans (periphTaken_effect _ _)
  | pressedKeys => exact ((setX_effect s _ _).trans (setX_effect _ _ _)).trans (periphTaken_effect _ _)
  | nothing => exact .refl s

/-- Every instruction has at most the effect that the access matrix gives it (R31, R100). -/
theorem exec_effect {i : Instr} {s t : State} (h : exec i s = .next t) : s.Effect t := by
  cases i with
  | halt => cases h; exact (advance_effect s _).trans (raise_effect _ _)
  | add sc a b => cases h; exact aluFrame_effect s _ _ _ _ _
  | sub sc a b => cases h; exact aluFrame_effect s _ _ _ _ _
  | mul sc a b => cases h; exact aluFrame_effect s _ _ _ _ _
  | and sc a b => cases h; exact aluFrame_effect s _ _ _ _ _
  | or sc a b => cases h; exact aluFrame_effect s _ _ _ _ _
  | xor sc a b => cases h; exact aluFrame_effect s _ _ _ _ _
  | div sc a b =>
    simp only [exec, execDiv] at h
    split at h <;> cases h
    · exact illegalAfter_effect s _
    · exact aluFrame_effect s _ _ _ _ _
  | mov sc dst src =>
    simp only [exec, execMov] at h
    split at h <;> cases h
    · exact ((advance_effect s _).trans (readOperand_effect _ _ _)).trans (writeDest_effect _ _ _ _)
    · exact illegalAfter_effect s _
  | itof d r => cases h; exact (advance_effect s _).trans (setF_effect _ _ _)
  | ftoi d r => cases h; exact ((advance_effect s _).trans (setX_effect _ _ _)).trans (drawn_effect _ _)
  | fadd d r => cases h; exact fpuFrame_effect s _ _ _ _
  | fsub d r => cases h; exact fpuFrame_effect s _ _ _ _
  | fmul d r => cases h; exact fpuFrame_effect s _ _ _ _
  | fdiv d r => cases h; exact fpuFrame_effect s _ _ _ _
  | jmp sc absolute negate mode mask op =>
    cases h
    exact ((advance_effect s _).trans (readOperand_effect _ _ _)).trans (jumpOn_effect _ _ _ _)
  | cmp sc signed keep dst src =>
    simp only [exec, execCmp] at h
    split at h <;> cases h
    · refine (((advance_effect s _).trans (readOperand_effect _ _ _)).trans (readOperand_effect _ _ _)).trans
        (setCmp_effect _ _ fun hc => ?_)
      rw [extract_or, compareBits_high]
      cases keep <;> simp [hc]
    · exact illegalAfter_effect s _
  | int code => cases h; exact (advance_effect s _).trans (peripheral_effect _ _)
  | call sc op =>
    cases h
    exact (((advance_effect s _).trans (readOperand_effect _ _ _)).trans (push_effect _ _ _)).trans (setPc_effect _ _)
  | ret => cases h; exact ((advance_effect s _).trans (pop_effect _ _)).trans (setPc_effect _ _)

/-- An encoding that is no instruction has at most that effect too (R81, R108). -/
theorem rejectEffect_effect (e : DecodeReject) : s.Effect (s.rejectEffect e) := by
  simp only [State.rejectEffect]
  split
  · exact advance_effect s _
  · exact illegalAfter_effect s _

/-- One instruction of a running machine, whatever its bytes are (R100). -/
theorem instructionStep_effect {s t : State} (h : instructionStep s = .next t) : s.Effect t := by
  simp only [instructionStep] at h
  split at h
  · exact (afterRead_effect s _ _).trans (exec_effect h)
  · cases h
  · cases h
    exact (afterRead_effect s _ _).trans (rejectEffect_effect _ _)

/-- What a step that answers a next state was: an instruction, then the scheduler's check (R250). -/
theorem step_next {s t : State} (h : step s = .next t) :
    s.halted = false ∧ ∃ u, instructionStep s = .next u ∧ s.Effect u ∧ t = schedulerCheck u := by
  simp only [step] at h
  split at h
  · cases h
  · rename_i hh
    cases hi : instructionStep s with
    | next u =>
      rw [hi] at h
      cases h
      exact ⟨by simpa using hh, u, rfl, instructionStep_effect hi, rfl⟩
    | fault r => rw [hi] at h; cases h
    | refused r => rw [hi] at h; cases h

end Sys2Proof.Machine
end

