-- ==== Sys2Proof/Laws/Float.lean ====
section
/-! SUPPORT. What a pattern of each kind looks like and what number it stands for, said once: claims about the floating-point
operations cite these and do not unfold `fpUnpack` (R168). -/

namespace Sys2Proof.Machine

/-- A finite pattern stands for its significand times its power of two. -/
theorem fpRat_finite {w : Word} {neg : Bool} {m : Nat} {e : Int} (h : fpUnpack w = .finite neg m e) :
    fpRat w = (signedMagnitude neg m : ℚ) * (2 : ℚ) ^ e := by
  unfold fpRat
  rw [h]

/-- A finite pattern stands for 0 exactly when its significand is 0. -/
theorem fpRat_eq_zero {w : Word} {neg : Bool} {m : Nat} {e : Int} (h : fpUnpack w = .finite neg m e) :
    fpRat w = 0 ↔ m = 0 := by
  have hp : (2 : ℚ) ^ e ≠ 0 := by positivity
  rw [fpRat_finite h, mul_eq_zero, or_iff_left hp]
  simp only [signedMagnitude, Int.cast_eq_zero]
  split <;> omega

/-- The sign of a finite pattern is its bit 31. -/
theorem getLsbD_of_finite {w : Word} {neg : Bool} {m : Nat} {e : Int} (h : fpUnpack w = .finite neg m e) :
    w.getLsbD 31 = neg := by
  simp only [fpUnpack] at h
  split at h
  · split at h <;> cases h
  · split at h <;> cases h <;> rfl

/-- There is one infinite pattern for each sign. -/
theorem eq_of_fpUnpack_inf {w : Word} {neg : Bool} (h : fpUnpack w = .inf neg) : w = fpPack neg fpInfBits := by
  simp only [fpUnpack] at h
  split at h
  · split at h
    · cases h
      rename_i h1 h2
      simp only [BitVec.extractLsb'_toNat] at h1 h2
      apply BitVec.eq_of_toNat_eq
      have hw := w.isLt
      have hm : w.getLsbD 31 = decide (2 ^ 31 ≤ w.toNat) := by
        simpa [BitVec.msb, BitVec.getMsbD] using BitVec.msb_eq_decide w
      rw [hm]
      simp [fpPack, fpInfBits, Nat.shiftRight_eq_div_pow] at *
      split <;> omega
    · cases h
  · split at h <;> cases h

@[simp] theorem fpUnpack_inf (neg : Bool) : fpUnpack (fpPack neg fpInfBits) = .inf neg := by cases neg <;> decide

@[simp] theorem fpPack_zero (neg : Bool) : fpPack neg 0 = signedZero neg := by cases neg <;> decide

/-- An infinity is no finite pattern. -/
theorem not_fpFinite_of_inf {w : Word} {neg : Bool} (h : fpUnpack w = .inf neg) : ¬ fpFinite w := by
  rintro ⟨n, m, e, hf⟩
  rw [h] at hf
  cases hf

/-- Flipping bit 31 flips the sign of what a pattern stands for and changes nothing else. -/
theorem fpUnpack_fpNeg (w : Word) : fpUnpack (fpNeg w) =
    match fpUnpack w with
    | .nan => .nan
    | .inf n => .inf (!n)
    | .finite n m e => .finite (!n) m e := by
  have h1 : (fpNeg w).extractLsb' 23 8 = w.extractLsb' 23 8 := by
    unfold fpNeg
    ext i hi
    interval_cases i <;> simp
  have h2 : (fpNeg w).extractLsb' 0 23 = w.extractLsb' 0 23 := by
    unfold fpNeg
    ext i hi
    interval_cases i <;> simp
  have h3 : (fpNeg w).getLsbD 31 = !w.getLsbD 31 := by
    unfold fpNeg
    simp
  simp only [fpUnpack, h1, h2, h3]
  split_ifs <;> rfl

/-- Flipping bit 31 negates the number. -/
theorem fpRat_fpNeg (w : Word) : fpRat (fpNeg w) = -fpRat w := by
  unfold fpRat
  rw [fpUnpack_fpNeg]
  cases fpUnpack w with
  | nan => simp
  | inf n => simp
  | finite n m e => cases n <;> simp [signedMagnitude]

end Sys2Proof.Machine
end

