-- ==== Sys2Proof/Laws/Operands.lean ====
section
/-! SUPPORT. What reading an operand, writing a destination, the stacks, an abort and the frames of the meanings can do, said
once; claims about instructions cite these. -/

namespace Sys2Proof.Machine

variable (s : State)

/-- The frame of an effect, with the registers that stay as they were. -/
theorem State.Effect.frame {s t : State} (h : s.Effect t) {xs : List Reg} {fs : List FReg}
    (hx : ∀ r, r ∉ xs → t.x r = s.x r) (hf : ∀ r, r ∉ fs → t.f r = s.f r) : s.Frame xs fs t :=
  ⟨hx, hf, h.sp, h.alive, h.quantumCount, h.space, h.others, h.cur, h.halted⟩

@[simp] theorem illegalAfter_own (n : Nat) :
    (s.illegalAfter n).own = { s.own with pc := addrAdd s.own.pc n, flags := s.own.flags ||| 0x10 } := by
  simp [State.illegalAfter, Flag.mask]

/-- ILLEGAL_INSTRUCTION and abort: the flag, the `pc`, and nothing else (R81, R108). -/
theorem illegalAfter_aborted (n : Nat) : s.Aborted n (s.illegalAfter n) where
  flags := by simp
  pc := by simp
  frame := (illegalAfter_effect s n).frame (by simp [State.illegalAfter]) (by simp [State.illegalAfter])
  cmp := by simp
  cp := by simp
  bytes := fun _ => rfl
  events := ⟨rfl, rfl, rfl⟩

/-! ### The `pc` plays no part in an access -/

@[simp] theorem readRoute_advance (n : Nat) (A : Word) : (s.advance n).readRoute A = s.readRoute A :=
  readRoute_congr (advance_cur s n) (by simp) A

@[simp] theorem writeRoute_advance (n : Nat) (A : Word) : (s.advance n).writeRoute A = s.writeRoute A :=
  writeRoute_congr (advance_cur s n) (by simp) A

@[simp] theorem aluSource_advance (n : Nat) (b : AluSrc) : (s.advance n).aluSource b = s.aluSource b := by
  cases b <;> simp [State.aluSource]

@[simp] theorem unreadable_advance (n : Nat) (op : Operand) : (s.advance n).unreadable op = s.unreadable op := by
  cases op <;> simp [State.unreadable]

/-! ### Operands -/

/-- The state after an operand is read: as before, or READ_ERROR raised and `tz` bytes drawn (R46, R48, R106, R107). -/
theorem readOperand_state (sc : SizeClass) (op : Operand) :
    (s.readOperand sc op).2 = if s.unreadable op = true then (s.drawn sc.bytes).raise .readError else s := by
  cases op with
  | reg r => rfl
  | imm v => rfl
  | ind r =>
    cases h : s.readRoute (s.x r) with
    | none => simp [State.readOperand, State.unreadable, h, memRead_none h]
    | some p => simp [State.readOperand, State.unreadable, h, memRead_some h]
  | mem A =>
    cases h : s.readRoute A with
    | none => simp [State.readOperand, State.unreadable, h, memRead_none h]
    | some p => simp [State.readOperand, State.unreadable, h, memRead_some h]

/-- A readable operand's value is the little-endian word at its address (R46, R106). -/
theorem readOperand_mem {s : State} {op : Operand} {A : Word} {p : Place} (ha : s.storeAddress op = some A)
    (hp : s.readRoute A = some p) (sc : SizeClass) : s.readOperand sc op = (leWord (s.mem.load p A sc.bytes), s) := by
  cases op with
  | reg r => cases ha
  | imm v => cases ha
  | ind r =>
    cases ha
    exact memRead_some hp _
  | mem B =>
    cases ha
    exact memRead_some hp _

/-- The value read does not depend on `pc` (R106, R107). -/
@[simp] theorem readOperand_advance_value (n : Nat) (sc : SizeClass) (op : Operand) :
    ((s.advance n).readOperand sc op).1 = (s.readOperand sc op).1 := by
  cases op with
  | reg r => simp [State.readOperand]
  | imm v => rfl
  | ind r => simp [State.readOperand, State.memRead, State.readBytes, State.unspecBytes]
  | mem A => simp [State.readOperand, State.memRead, State.readBytes, State.unspecBytes]

section Fields
variable (sc : SizeClass) (op : Operand)

@[simp] theorem readOperand_own : (s.readOperand sc op).2.own = { s.own with flags := s.own.flags ||| s.readErrorBit op } := by
  rw [readOperand_state, State.readErrorBit]
  split <;> simp [Flag.mask]

@[simp] theorem readOperand_cur : (s.readOperand sc op).2.cur = s.cur := by rw [readOperand_state]; split <;> rfl
@[simp] theorem readOperand_halted : (s.readOperand sc op).2.halted = s.halted := by rw [readOperand_state]; split <;> rfl
@[simp] theorem readOperand_memory : (s.readOperand sc op).2.mem = s.mem := by rw [readOperand_state]; split <;> rfl
@[simp] theorem readOperand_periphCalls : (s.readOperand sc op).2.periphCalls = s.periphCalls := by
  rw [readOperand_state]; split <;> rfl
@[simp] theorem readOperand_periphReads : (s.readOperand sc op).2.periphReads = s.periphReads := by
  rw [readOperand_state]; split <;> rfl
@[simp] theorem readOperand_draws : (s.readOperand sc op).2.draws = s.draws + s.readDraws sc op := by
  rw [readOperand_state, State.readDraws]; split <;> rfl
@[simp] theorem readOperand_x (q : Reg) : (s.readOperand sc op).2.x q = s.x q := by rw [readOperand_state]; split <;> simp
@[simp] theorem readOperand_f (q : FReg) : (s.readOperand sc op).2.f q = s.f q := by rw [readOperand_state]; split <;> simp

@[simp] theorem readRoute_readOperand (A : Word) : (s.readOperand sc op).2.readRoute A = s.readRoute A :=
  readRoute_congr (readOperand_cur s sc op) (by simp) A

@[simp] theorem writeRoute_readOperand (A : Word) : (s.readOperand sc op).2.writeRoute A = s.writeRoute A :=
  writeRoute_congr (readOperand_cur s sc op) (by simp) A

end Fields

/-! ### Stores, push and pop -/

/-- Everything a sized write can do: the bytes of its place, or WRITE_ERROR (R47, R49). -/
theorem memWrite_cases (A : Word) (n : Nat) (v : Word) :
    (∃ p, s.writeRoute A = some p ∧ s.memWrite A n v = { s with mem := Memory.store p A 0 (leBytes n v) s.mem }) ∨
    (s.writeRoute A = none ∧ s.memWrite A n v = s.raise .writeError) := by
  cases h : s.writeRoute A with
  | some p => exact .inl ⟨p, rfl, memWrite_some h n v⟩
  | none => exact .inr ⟨rfl, memWrite_none h n v⟩

/-- A push where the pointer routes: the bytes, then the pointer (R230). -/
theorem push_some {s : State} {P : StackPointer} {p : Place} (h : s.writeRoute (s.pointer P) = some p) (n : Nat) (v : Word) :
    s.push P n v = { s with mem := Memory.store p (s.pointer P) 0 (leBytes n v) s.mem }.setPointer P (addrAdd (s.pointer P) n) := by
  simp only [State.push, memWrite_some h]

/-- A push where it does not: WRITE_ERROR, and the pointer moves all the same (R230). -/
theorem push_none {s : State} {P : StackPointer} (h : s.writeRoute (s.pointer P) = none) (n : Nat) (v : Word) :
    s.push P n v = (s.raise .writeError).setPointer P (addrAdd (s.pointer P) n) := by
  simp only [State.push, memWrite_none h]

@[simp] theorem setPointer_cur (P : StackPointer) (t : Word) : (s.setPointer P t).cur = s.cur := by cases P <;> rfl
@[simp] theorem setPointer_space (P : StackPointer) (t : Word) : (s.setPointer P t).own.space = s.own.space := by
  cases P <;> simp [State.setPointer]
@[simp] theorem setPointer_mem (P : StackPointer) (t : Word) : (s.setPointer P t).mem = s.mem := by cases P <;> rfl

/-- A pop where the pointer routes: the pointer moves down, the value is read there (R231). -/
theorem pop_some {s : State} {P : StackPointer} {p : Place} (h : s.readRoute (s.pointer P) = some p) (n : Nat) :
    s.pop P n = (leWord (s.mem.load p (addrAdd (s.pointer P) (-n)) n), s.setPointer P (addrAdd (s.pointer P) (-n))) := by
  have hr : (s.setPointer P (addrAdd (s.pointer P) (-n))).readRoute (addrAdd (s.pointer P) (-n)) = some p := by
    rw [readRoute_congr (setPointer_cur s P _) (setPointer_space s P _), readRoute_addrAdd]
    exact h
  rw [State.pop, memRead_some hr, setPointer_mem]

/-- A pop where it does not: the pointer moves down, the value is drawn, READ_ERROR (R48, R231). -/
theorem pop_none {s : State} {P : StackPointer} (h : s.readRoute (s.pointer P) = none) (n : Nat) :
    s.pop P n = (leWord (s.unspecBytes n), ((s.setPointer P (addrAdd (s.pointer P) (-n))).drawn n).raise .readError) := by
  have hr : (s.setPointer P (addrAdd (s.pointer P) (-n))).readRoute (addrAdd (s.pointer P) (-n)) = none := by
    rw [readRoute_congr (setPointer_cur s P _) (setPointer_space s P _), readRoute_addrAdd]
    exact h
  rw [State.pop, memRead_none hr]
  cases P <;> rfl

/-- Masking to a size class is the remainder modulo its width (R72). -/
theorem toNat_and_mask (sc : SizeClass) (w : Word) : (w &&& sc.mask).toNat = w.toNat % 2 ^ (8 * sc.bytes) := by
  cases sc with
  | b => exact (BitVec.toNat_and _ _).trans (Nat.and_two_pow_sub_one_eq_mod w.toNat 8)
  | h => exact (BitVec.toNat_and _ _).trans (Nat.and_two_pow_sub_one_eq_mod w.toNat 16)
  | w => exact (BitVec.toNat_and _ _).trans (Nat.and_two_pow_sub_one_eq_mod w.toNat 32)

/-! ### An undecodable encoding -/

/-- What an encoding that is no instruction does, with the switch at its default (R81, R105, R108). -/
theorem rejectEffect_default (e : DecodeReject) : s.rejectEffect e = s.illegalAfter e.consumed := by
  simp [State.rejectEffect, Config.undefOpcodeIllegal]

/-- One instruction whose bytes decode. -/
theorem instructionStep_ok {s : State} {i : Instr} {rest : List Byte} (h : decode s.fetchWindow = .ok (i, rest)) :
    instructionStep s = exec i s.afterFetch := by
  simp only [instructionStep, h]

/-- One instruction whose bytes do not decode. -/
theorem instructionStep_reject {s : State} {e : DecodeReject} (h : decode s.fetchWindow = .error e) (he : e ≠ .truncated) :
    instructionStep s = .next (s.afterFetch.illegalAfter e.consumed) := by
  rw [← rejectEffect_default]
  simp only [instructionStep, h]

end Sys2Proof.Machine
end

