-- ==== Sys2Proof/Laws/PerInstr.lean ====
section
/-! SUPPORT. Statements made per instruction, one lemma per constructor of `Instr`: the encoding is as long as R79 says. -/

namespace Sys2Proof.Laws

/-- The encoder writes exactly the instruction's length, and that is 2 to 11 bytes (R79). -/
def EncodedLength.Statement (i : Instr) : Prop :=
  (encode i).length = i.length ∧ 2 ≤ i.length ∧ i.length ≤ maxLength

theorem bytes_bounds (sc : SizeClass) : 1 ≤ sc.bytes ∧ sc.bytes ≤ 4 := by cases sc <;> decide

/-- The ALU's immediate takes `tz` bytes, its register none (R120). -/
theorem encodeAlu_length (op : Byte) (sc : SizeClass) (a : Reg) (b : AluSrc) :
    (encodeAlu op sc a b).length = 4 + b.length sc ∧ 4 + b.length sc ≤ maxLength := by
  have := bytes_bounds sc
  cases b <;> simp [encodeAlu, AluSrc.length, maxLength]
  omega

/-- The operand bytes of JMP and CALL (R76). -/
theorem encodeSingle_length (sc : SizeClass) (op : Operand) :
    (encodeSingle sc op).length = op.singleLength sc ∧ op.singleLength sc ≤ 4 := by
  have := bytes_bounds sc
  cases op <;> simp [encodeSingle, Operand.singleLength]
  omega

/-- The operand bytes of MOV and CMP (R77). -/
theorem encodeDual_length (opcode opflag : Byte) (sc : SizeClass) (dst src : Operand) :
    (encodeDual opcode opflag sc dst src).length = dualLength sc dst src ∧ 3 ≤ dualLength sc dst src ∧
      dualLength sc dst src ≤ maxLength := by
  have := bytes_bounds sc
  cases dst <;> cases src <;>
    simp [encodeDual, encodeSrc, encodeDst, dualLength, srcLength, dstLength, Operand.kind, Kind.hasSelector, maxLength] <;> omega

theorem alu_statement {i : Instr} {op : Byte} {sc : SizeClass} {a : Reg} {b : AluSrc} (he : encode i = encodeAlu op sc a b)
    (hl : i.length = 4 + b.length sc) : EncodedLength.Statement i := by
  have h := encodeAlu_length op sc a b
  exact ⟨by rw [he, hl, h.1], by omega, by omega⟩

theorem EncodedLength.halt : EncodedLength.Statement .halt := by simp [Statement, encode, Instr.length, maxLength]
theorem EncodedLength.add (sc : SizeClass) (a : Reg) (b : AluSrc) : EncodedLength.Statement (.add sc a b) := alu_statement rfl rfl
theorem EncodedLength.sub (sc : SizeClass) (a : Reg) (b : AluSrc) : EncodedLength.Statement (.sub sc a b) := alu_statement rfl rfl
theorem EncodedLength.mul (sc : SizeClass) (a : Reg) (b : AluSrc) : EncodedLength.Statement (.mul sc a b) := alu_statement rfl rfl
theorem EncodedLength.div (sc : SizeClass) (a : Reg) (b : AluSrc) : EncodedLength.Statement (.div sc a b) := alu_statement rfl rfl
theorem EncodedLength.and (sc : SizeClass) (a : Reg) (b : AluSrc) : EncodedLength.Statement (.and sc a b) := alu_statement rfl rfl
theorem EncodedLength.or (sc : SizeClass) (a : Reg) (b : AluSrc) : EncodedLength.Statement (.or sc a b) := alu_statement rfl rfl
theorem EncodedLength.xor (sc : SizeClass) (a : Reg) (b : AluSrc) : EncodedLength.Statement (.xor sc a b) := alu_statement rfl rfl

theorem EncodedLength.mov (sc : SizeClass) (dst src : Operand) : EncodedLength.Statement (.mov sc dst src) := by
  have h := encodeDual_length 0x02 (opflagByte sc false false) sc dst src
  exact ⟨h.1, by have := h.2.1; simp only [Instr.length]; omega, h.2.2⟩

theorem EncodedLength.itof (d : FReg) (s : Reg) : EncodedLength.Statement (.itof d s) := by
  simp [Statement, encode, encodeFpu, Instr.length, maxLength]
theorem EncodedLength.ftoi (d : Reg) (s : FReg) : EncodedLength.Statement (.ftoi d s) := by
  simp [Statement, encode, encodeFpu, Instr.length, maxLength]
theorem EncodedLength.fadd (d s : FReg) : EncodedLength.Statement (.fadd d s) := by
  simp [Statement, encode, encodeFpu, Instr.length, maxLength]
theorem EncodedLength.fsub (d s : FReg) : EncodedLength.Statement (.fsub d s) := by
  simp [Statement, encode, encodeFpu, Instr.length, maxLength]
theorem EncodedLength.fmul (d s : FReg) : EncodedLength.Statement (.fmul d s) := by
  simp [Statement, encode, encodeFpu, Instr.length, maxLength]
theorem EncodedLength.fdiv (d s : FReg) : EncodedLength.Statement (.fdiv d s) := by
  simp [Statement, encode, encodeFpu, Instr.length, maxLength]

theorem EncodedLength.jmp (sc : SizeClass) (absolute negate : Bool) (mode : CondMode) (mask : Nibble) (op : Operand) :
    EncodedLength.Statement (.jmp sc absolute negate mode mask op) := by
  have h := encodeSingle_length sc op
  simp only [Statement, encode, Instr.length, maxLength, List.length_append, List.length_cons, List.length_nil]
  omega

theorem EncodedLength.cmp (sc : SizeClass) (signed keep : Bool) (dst src : Operand) :
    EncodedLength.Statement (.cmp sc signed keep dst src) := by
  have h := encodeDual_length 0x05 (opflagByte sc signed keep) sc dst src
  exact ⟨h.1, by have := h.2.1; simp only [Instr.length]; omega, h.2.2⟩

theorem EncodedLength.int (code : Word) : EncodedLength.Statement (.int code) := by
  simp [Statement, encode, Instr.length, maxLength]

theorem EncodedLength.call (sc : SizeClass) (op : Operand) : EncodedLength.Statement (.call sc op) := by
  have h := encodeSingle_length sc op
  simp only [Statement, encode, Instr.length, maxLength, List.length_append, List.length_cons, List.length_nil]
  omega

theorem EncodedLength.ret : EncodedLength.Statement .ret := by simp [Statement, encode, Instr.length, maxLength]

end Sys2Proof.Laws
end

