-- ==== Sys2Proof/Tests/Slice0.lean ====
section
/-! SUPPORT. Tests on fixed values: ill-formed terms refused, worked encodings decoded, one step per vector of
`spec/95_test_vectors.md`, and for every obligation with hypotheses a state that meets them. -/

namespace Sys2Proof.Tests

open Sys2Proof.Machine

/-- Context 0 as the vectors of `spec/95_test_vectors.md` start it. -/
def base : Context := { Context.zeroed with pc := 0x1000, alive := true }

/-- Bytes stored in a place from an address on. -/
def put (p : Place) (A : Word) (bytes : List Byte) (m : Memory) : Memory := Memory.store p A 0 bytes m

/-- Reset with context 0 replaced, a memory, and an instruction at context 0's `pc`. -/
def start (k : Context) (m : Memory) (bytes : List Byte) : State :=
  ({ State.reset with mem := m }.setCtx 0 k).placeAtPc bytes

/-- Context 0's data pool. -/
def d0 : Place := .pool .data 0

/-- A property of the next state. -/
def seen (o : Host.Outcome State Fault Refusal) (p : State → Bool) : Bool :=
  match o with
  | .next t => p t
  | _ => false

theorem next_of_seen {o : Host.Outcome State Fault Refusal} {p : State → Bool} (h : seen o p = true) : ∃ t, o = .next t ∧ p t = true := by
  cases o with
  | next t => exact ⟨t, rfl, h⟩
  | fault r => cases h
  | refused r => cases h

/-- One step from context 0 on one instruction. -/
def after (k : Context) (m : Memory) (bytes : List Byte) (p : State → Bool) : Bool := seen (step (start k m bytes)) p

/-- The decoder reads exactly this instruction and nothing is left. -/
def reads (bytes : List Byte) (i : Instr) : Bool :=
  match decode bytes with
  | .ok (j, rest) => decide (j = i) && rest.isEmpty && i.wellFormed
  | .error _ => false

/-- A byte of context 0's data pool. -/
def dataByte (t : State) (off : BitVec 16) : Byte := t.mem.read (poolAddr .data 0 off)

/-! ### Ill-formed terms (WellFormed.lean) -/

theorem test_refuses_wide_alu_immediate : (Instr.add .b 0 (.imm 0x100)).wellFormed = false := by decide
theorem test_refuses_wide_mov_immediate : (Instr.mov .h (.reg 0) (.imm 0x10000)).wellFormed = false := by decide
theorem test_refuses_mov_to_immediate : (Instr.mov .w (.imm 0) (.reg 0)).wellFormed = false := by decide
theorem test_refuses_mov_memory_memory : (Instr.mov .w (.ind 0) (.mem 0)).wellFormed = false := by decide
theorem test_refuses_cmp_memory_memory : (Instr.cmp .w false false (.mem 0) (.ind 1)).wellFormed = false := by decide
theorem test_refuses_wide_cmp_immediate : (Instr.cmp .b false false (.imm 0x100) (.reg 1)).wellFormed = false := by decide
theorem test_refuses_named_mode_as_reserved : (Instr.jmp .b false false (.reserved 1) 0 (.reg 0)).wellFormed = false := by decide
theorem test_refuses_wide_jmp_offset : (Instr.jmp .b false false .ifAny 0 (.imm 0x100)).wellFormed = false := by decide
theorem test_refuses_wide_call_target : (Instr.call .h (.imm 0x10000)).wellFormed = false := by decide

/-! ### Words written out from R70 to R80 and the worked encodings of R87 -/


theorem test_decode_halt : reads [0x00, 0x00] (.halt) = true := by decide
theorem test_decode_halt_opflag_ignored : reads [0x00, 0xFF] (.halt) = true := by decide
theorem test_decode_add : reads [0x01, 0x10, 0x00, 0x00, 0xFF] (.add .b 0 (.imm 0xFF)) = true := by decide
theorem test_decode_add_high : reads [0x01, 0xE0, 0x00, 0x8F] (.add .b 15 (.reg 8)) = true := by decide
theorem test_decode_sub : reads [0x01, 0x02, 0x01, 0x12] (.sub .w 2 (.reg 1)) = true := by decide
theorem test_decode_mul : reads [0x01, 0x01, 0x02, 0x10] (.mul .h 0 (.reg 1)) = true := by decide
theorem test_decode_div : reads [0x01, 0x12, 0x03, 0x00, 0x07, 0x00, 0x00, 0x00] (.div .w 0 (.imm 7)) = true := by decide
theorem test_decode_and : reads [0x01, 0x10, 0x04, 0x00, 0x0F] (.and .b 0 (.imm 0x0F)) = true := by decide
theorem test_decode_or : reads [0x01, 0x01, 0x05, 0x10] (.or .h 0 (.reg 1)) = true := by decide
theorem test_decode_xor : reads [0x01, 0x12, 0x06, 0x03, 0xFF, 0xFF, 0xFF, 0xFF] (.xor .w 3 (.imm 0xFFFFFFFF)) = true := by decide
theorem test_decode_mov_store : reads [0x02, 0x01, 0x01, 0x02] (.mov .h (.ind 2) (.reg 0)) = true := by decide
theorem test_decode_mov_load : reads [0x02, 0x01, 0x20, 0x02, 0x01, 0x00, 0x00, 0x02] (.mov .h (.reg 2) (.mem 0x102)) = true := by decide
theorem test_decode_mov_imm_mem : reads [0x02, 0x01, 0x32, 0xEF, 0xBE, 0x10, 0x00, 0x05, 0xD0] (.mov .h (.mem 0xD0050010) (.imm 0xBEEF)) = true := by decide
theorem test_decode_itof : reads [0x03, 0x00, 0x21] (.itof 1 2) = true := by decide
theorem test_decode_ftoi : reads [0x03, 0x01, 0x12] (.ftoi 2 1) = true := by decide
theorem test_decode_fadd : reads [0x03, 0x02, 0x13] (.fadd 3 1) = true := by decide
theorem test_decode_fsub : reads [0x03, 0x0A, 0x10] (.fsub 0 1) = true := by decide
theorem test_decode_fmul : reads [0x03, 0x12, 0x10] (.fmul 0 1) = true := by decide
theorem test_decode_fdiv : reads [0x03, 0x1A, 0x32] (.fdiv 2 3) = true := by decide
theorem test_decode_jmp : reads [0x04, 0x20, 0x03, 0x11, 0x02] (.jmp .b false true .ifNone 1 (.imm 2)) = true := by decide
theorem test_decode_jmp_mem : reads [0x04, 0x12, 0x02, 0x0F, 0x00, 0x02, 0x00, 0x00] (.jmp .w true false .ifAny 15 (.mem 0x200)) = true := by decide
theorem test_decode_jmp_reserved_mode : reads [0x04, 0x01, 0x11, 0xF3] (.jmp .h false false (.reserved 15) 3 (.ind 1)) = true := by decide
theorem test_decode_cmp : reads [0x05, 0x10, 0x30, 0x80, 0x04] (.cmp .b true false (.reg 4) (.imm 0x80)) = true := by decide
theorem test_decode_cmp_imm_left : reads [0x05, 0x21, 0x23, 0x00, 0x01, 0x00, 0x00, 0x34, 0x12] (.cmp .h false true (.imm 0x1234) (.mem 0x100)) = true := by decide
theorem test_decode_int : reads [0x06, 0xFF, 0x10, 0xFF, 0x01, 0x00] (.int 0x1FF10) = true := by decide
theorem test_decode_call : reads [0x07, 0x02, 0x03, 0x20, 0x00, 0x00, 0xFF] (.call .w (.imm 0xFF000020)) = true := by decide
theorem test_decode_call_ind : reads [0x07, 0xF1, 0x91] (.call .h (.ind 9)) = true := by decide
theorem test_decode_ret : reads [0x08, 0x00] (.ret) = true := by decide

theorem test_decode_reserved : [(decode [0x09, 0x00]), decode [0x01, 0x03, 0x00], decode [0x01, 0x02, 0x07, 0x10], decode [0x02, 0x02, 0x11],
    decode [0x02, 0x02, 0x33], decode [0x05, 0x02, 0x04], decode [0x04, 0x02, 0x04, 0x10], decode [0x07, 0x02, 0x05],
    decode [0x03, 0x03, 0x10], decode [0x03, 0x22, 0x10], decode [0x03, 0x00, 0x04], decode [0x04, 0x00]].map
      (fun r => match r with | .ok _ => none | .error e => some e) =
    [some .undefinedOpcode, some .reservedSizeClass, some .reservedAluOp, some .memoryMemory, some .immediateDestination,
      some .reservedDualKind, some .reservedJmpKind, some .reservedCallKind, some .reservedFpuSubOp, some .reservedFpuOp,
      some .reservedFpuRegister, some .truncated] := by decide

/-! ### One step per vector (the vector's name in `spec/95_test_vectors.md` stands in the theorem's) -/

theorem test_H2_halt : after base [] [0x00, 0xFF]
    (fun t => (t.ctx 0).flags == 0x02 && (t.ctx 0).pc == 0x1002 && t.halted) = true := by decide
theorem test_A1_add : after { base with x := (base.x.set 0 1) } [] [0x01, 0x10, 0x00, 0x00, 0xFF]
    (fun t => (t.ctx 0).x[0] == 0 && (t.ctx 0).pc == 0x1005) = true := by decide
theorem test_A3_add : after { base with x := ((base.x.set 0 0x1234FFFF).set 1 0xABCD0001) } [] [0x01, 0x01, 0x00, 0x10]
    (fun t => (t.ctx 0).x[0] == 0 && (t.ctx 0).x[1] == 0xABCD0001) = true := by decide
theorem test_A4_sub : after base [] [0x01, 0x10, 0x01, 0x00, 0x01]
    (fun t => (t.ctx 0).x[0] == 0xFF) = true := by decide
theorem test_A5_sub : after { base with x := ((base.x.set 2 10).set 1 3) } [] [0x01, 0x02, 0x01, 0x12]
    (fun t => (t.ctx 0).x[2] == 7 && (t.ctx 0).pc == 0x1004) = true := by decide
theorem test_A6_mul : after { base with x := ((base.x.set 0 16).set 1 16) } [] [0x01, 0x00, 0x02, 0x10]
    (fun t => (t.ctx 0).x[0] == 0) = true := by decide
theorem test_A7b_mul : after { base with x := ((base.x.set 0 0xFFFFFFFF).set 1 0xFFFFFFFF) } [] [0x01, 0x02, 0x02, 0x10]
    (fun t => (t.ctx 0).x[0] == 1) = true := by decide
theorem test_A9_div : after { base with x := ((base.x.set 0 0x1000).set 1 0x100) } [] [0x01, 0x00, 0x03, 0x10]
    (fun t => (t.ctx 0).x[0] == 0x10) = true := by decide
theorem test_A10b_div : after { base with x := (base.x.set 0 0x55) } [] [0x01, 0x10, 0x03, 0x00, 0x00]
    (fun t => (t.ctx 0).x[0] == 0x55 && (t.ctx 0).flags == 0x10 && (t.ctx 0).pc == 0x1005) = true := by decide
theorem test_A11_and : after { base with x := (base.x.set 0 0x123456AB) } [] [0x01, 0x10, 0x04, 0x00, 0x0F]
    (fun t => (t.ctx 0).x[0] == 0x0B) = true := by decide
theorem test_A12_or : after { base with x := ((base.x.set 0 0x00010001).set 1 0xFFFF0F00) } [] [0x01, 0x01, 0x05, 0x10]
    (fun t => (t.ctx 0).x[0] == 0xF01) = true := by decide
theorem test_A12b_or : after { base with x := (base.x.set 0 0x12345678) } [] [0x01, 0x00, 0x05, 0x00]
    (fun t => (t.ctx 0).x[0] == 0x78) = true := by decide
theorem test_A13_xor : after { base with x := (base.x.set 0 0x0F0F0F0F) } [] [0x01, 0x12, 0x06, 0x00, 0xFF, 0xFF, 0xFF, 0xFF]
    (fun t => (t.ctx 0).x[0] == 0xF0F0F0F0 && (t.ctx 0).pc == 0x1008) = true := by decide
theorem test_M3_mov : after { base with x := ((base.x.set 0 0x12345678).set 2 0x200) } (put d0 0x1FF [0xAA, 0xAA, 0xAA, 0xAA, 0xAA] []) [0x02, 0x01, 0x01, 0x02]
    (fun t => dataByte t 0x1FF == 0xAA && dataByte t 0x200 == 0x78 && dataByte t 0x201 == 0x56 && dataByte t 0x202 == 0xAA) = true := by decide
theorem test_M10_mov : after { base with x := (base.x.set 0 0xA1B2C3D4) } [] [0x02, 0x02, 0x02, 0x00, 0xFE, 0xFF, 0x00, 0x00]
    (fun t => dataByte t 0xFFFE == 0xD4 && dataByte t 0xFFFF == 0xC3 && dataByte t 0 == 0xB2 && dataByte t 1 == 0xA1) = true := by decide
theorem test_F4b_itof : after { base with x := (base.x.set 0 0x01000003) } [] [0x03, 0x00, 0x03]
    (fun t => (t.ctx 0).f[3] == 0x4B800002 && (t.ctx 0).pc == 0x1003) = true := by decide
theorem test_F2_itof : after { base with x := (base.x.set 0 0xFFFFFFFF) } [] [0x03, 0x00, 0x00]
    (fun t => (t.ctx 0).f[0] == 0xBF800000) = true := by decide
theorem test_F7_ftoi : after { base with f := (base.f.set 0 0xC14C0000) } [] [0x03, 0x01, 0x02]
    (fun t => (t.ctx 0).x[2] == 0xFFFFFFF4) = true := by decide
theorem test_F8c_ftoi : after { base with f := (base.f.set 1 0x4F000000) } [] [0x03, 0x01, 0x12]
    (fun t => (t.ctx 0).flags == 0 && t.draws == 4 && (t.ctx 0).pc == 0x1003) = true := by decide
theorem test_F14c_fadd : after { base with f := ((base.f.set 0 0x4B800000).set 1 0x3F800000) } [] [0x03, 0x02, 0x10]
    (fun t => (t.ctx 0).f[0] == 0x4B800000) = true := by decide
theorem test_F14_fadd : after { base with f := (base.f.set 2 0x3DCCCCCD) } [] [0x03, 0x02, 0x22]
    (fun t => (t.ctx 0).f[2] == 0x3E4CCCCD) = true := by decide
theorem test_F10_fsub : after { base with f := ((base.f.set 0 0x3F800000).set 1 0x40000000) } [] [0x03, 0x0A, 0x10]
    (fun t => (t.ctx 0).f[0] == 0xBF800000) = true := by decide
theorem test_F14d_fmul : after { base with f := (base.f.set 0 0x7F7FFFFF) } [] [0x03, 0x12, 0x00]
    (fun t => (t.ctx 0).f[0] == 0x7F800000) = true := by decide
theorem test_F14b_fdiv : after { base with f := ((base.f.set 0 0x3F800000).set 1 0x40400000) } [] [0x03, 0x1A, 0x10]
    (fun t => (t.ctx 0).f[0] == 0x3EAAAAAB) = true := by decide
theorem test_F13_fdiv : after { base with f := ((base.f.set 0 0x3F800000).set 1 0) } [] [0x03, 0x1A, 0x10]
    (fun t => (t.ctx 0).f[0] == 0x7F800000 && (t.ctx 0).flags == 0) = true := by decide
theorem test_J8_jmp : after base [] [0x04, 0x20, 0x03, 0x10, 0x02]
    (fun t => (t.ctx 0).pc == 0x1000) = true := by decide
theorem test_J6_jmp : after { base with cmp := 0x07 } [] [0x04, 0x00, 0x03, 0x20, 0x08]
    (fun t => (t.ctx 0).pc == 0x1005 && (t.ctx 0).flags == 0x10) = true := by decide
theorem test_C2_cmp : after { base with x := (base.x.set 0 0xFFFFFFFF) } [] [0x05, 0x12, 0x00, 0x10]
    (fun t => (t.ctx 0).cmp == 0x02) = true := by decide
theorem test_C14_cmp : after { base with x := ((base.x.set 0 0xFF).set 1 1), cmp := 0x01 } [] [0x05, 0x30, 0x00, 0x10]
    (fun t => (t.ctx 0).cmp == 0x03) = true := by decide
theorem test_I5_int : after { base with x := (base.x.set 0 9) } [] [0x06, 0x00, 0x10, 0xFF, 0x01, 0x00]
    (fun t => (t.ctx 0).x[0] == 9 && (t.ctx 0).pc == 0x1006 && t.periphReads == 0) = true := by decide
theorem test_I8_int : after { base with x := (((((((base.x.set 0 1).set 1 2).set 2 0x41).set 3 3).set 4 15).set 6 77).set 7 88) } [] [0x06, 0x00, 0x00, 0xFF, 0x00, 0x00]
    (fun t => t.periphCalls == [⟨.drawGlyph, #v[1, 2, 0x41, 3, 15, 0, 77, 88]⟩]) = true := by decide
theorem test_K3_call : after { base with cp := 0xFFFE } [] [0x07, 0x01, 0x03, 0x34, 0x12]
    (fun t => dataByte t 0xFFFE == 0x05 && dataByte t 0xFFFF == 0x10 && (t.ctx 0).cp == 2 && (t.ctx 0).pc == 0x1234) = true := by decide
theorem test_K7_call : after { base with cp := 0x10000000 } [] [0x07, 0x02, 0x03, 0x00, 0x20, 0x00, 0x00]
    (fun t => (t.ctx 0).flags == 0x08 && (t.ctx 0).cp == 0x10000004 && (t.ctx 0).pc == 0x2000) = true := by decide
theorem test_K9_ret : after base (put d0 0xFFFC [0x78, 0x56, 0x34, 0x12] []) [0x08, 0x00]
    (fun t => (t.ctx 0).cp == 0xFFFC && (t.ctx 0).pc == 0x12345678) = true := by decide
theorem test_K10_ret : after { base with cp := 0x20000004 } [] [0x08, 0x00]
    (fun t => (t.ctx 0).cp == 0x20000000 && (t.ctx 0).flags == 0x04) = true := by decide
theorem test_A14_reserved_op : after { base with x := (base.x.set 0 5) } [] [0x01, 0x02, 0x07, 0x10]
    (fun t => (t.ctx 0).flags == 0x10 && (t.ctx 0).pc == 0x1003 && (t.ctx 0).x[0] == 5) = true := by decide
theorem test_H5_straddle : after { base with pc := 0xFFFD } [] [0x02, 0x00, 0x30, 0x07, 0x00]
    (fun t => (t.ctx 0).x[0] == 7 && (t.ctx 0).pc == 2) = true := by decide

/-- Contexts 0 and 5 alive, 5 current at a zeroed data pool: S1. -/
def twoAlive : State := { (State.reset.setCtx 0 base).setCtx 5 { Context.zeroed with alive := true } with cur := 5 }

theorem test_S1_stop_switches : seen (step twoAlive) (fun t => (t.ctx 5).flags == 0x02 && (t.ctx 5).pc == 2 && !(t.ctx 5).alive &&
    t.cur == 0 && !t.halted) = true := by decide +kernel

theorem test_S4_host_kill : seen (step (start base [] [0x02, 0x00, 0x30, 0x07, 0x00]).hostKill)
    (fun t => t.halted && (t.ctx 0).x[0] == 7 && (t.ctx 0).quantumCount == 0) = true := by decide

/-- From the reset state itself, with the instruction where the boot image is read. -/
theorem test_first_instruction_after_reset : seen (step (State.reset.withFetchWord 24 0x110003))
    (fun t => (t.ctx 0).pc == 0xFF000003 && (t.ctx 0).f[1] == 0) = true := by decide

theorem test_decodeTableWord : decodeTableWord 32 0x12010201 = some (.sub .w 2 (.reg 1)) := by decide

/-! ### Witnesses: for every obligation with hypotheses, states and operands that meet them, each clause at a boundary value -/

theorem witness_DecodeOfEncodeIsIdentity : (Instr.mov .w (.mem 0xFFFFFFFF) (.imm 0xFFFFFFFF)).wellFormed = true ∧
    (Instr.jmp .b true true (.reserved 2) 15 (.imm 0xFF)).wellFormed = true := by decide

theorem witness_DecodeYieldsWellFormedAndConsumesItsLength :
    ∃ i rest, decode [0x02, 0x02, 0x32, 1, 2, 3, 4, 5, 6, 7, 8, 9] = .ok (i, rest) := ⟨_, _, rfl⟩

/-- A running machine about to fetch these bytes. -/
def fetches (s : State) (bytes : List Byte) : Bool := !s.halted && s.fetchWindow.take bytes.length == bytes

theorem window_of_fetches {s : State} {bytes : List Byte} (h : fetches s bytes = true) :
    s.halted = false ∧ ∃ rest, s.fetchWindow = bytes ++ rest := by
  simp only [fetches, Bool.and_eq_true, Bool.not_eq_true', beq_iff_eq] at h
  exact ⟨h.1, s.fetchWindow.drop bytes.length, by
    conv_lhs => rw [← List.take_append_drop bytes.length s.fetchWindow, h.2]⟩

theorem witness_UndefinedOpcodeAborts :
    (fetches (start base [] [0x09, 0x00]) [0x09, 0x00] = true ∧ 9 ≤ (0x09 : Byte).toNat) ∧
    (fetches (start base [] [0xFF, 0xFF]) [0xFF, 0xFF] = true ∧ 9 ≤ (0xFF : Byte).toNat) := by decide

theorem witness_ReservedSizeClassAborts :
    (fetches (start base [] [0x01, 0x03]) [0x01, 0x03] = true ∧ 3 ≤ ((0x03 : Byte).extractLsb' 0 4).toNat) ∧
    (fetches (start base [] [0x02, 0x0F]) [0x02, 0x0F] = true ∧ 3 ≤ ((0x0F : Byte).extractLsb' 0 4).toNat) ∧
    (fetches (start base [] [0x04, 0xF3]) [0x04, 0xF3] = true) ∧
    (fetches (start base [] [0x05, 0x0F]) [0x05, 0x0F] = true) ∧
    (fetches (start base [] [0x07, 0x23]) [0x07, 0x23] = true) := by decide

theorem witness_ReservedAluOperationAborts :
    (fetches (start base [] [0x01, 0xF2, 0x07]) [0x01, 0xF2, 0x07] = true ∧ ((0xF2 : Byte).extractLsb' 0 4).toNat < 3 ∧ 7 ≤ (0x07 : Byte).toNat) ∧
    (fetches (start base [] [0x01, 0x00, 0xFF]) [0x01, 0x00, 0xFF] = true) := by decide

theorem witness_IllegalMovOperandsAbort :
    (fetches (start base [] [0x02, 0x00, 0x40]) [0x02, 0x00, 0x40] = true ∧ 3 < ((0x40 : Byte).extractLsb' 4 4).toNat) ∧
    (fetches (start base [] [0x02, 0x02, 0x0F]) [0x02, 0x02, 0x0F] = true ∧ 3 < ((0x0F : Byte).extractLsb' 0 4).toNat) ∧
    (fetches (start base [] [0x02, 0x01, 0x33]) [0x02, 0x01, 0x33] = true ∧ ((0x33 : Byte).extractLsb' 0 4).toNat = 3) ∧
    (fetches (start base [] [0x02, 0x02, 0x12]) [0x02, 0x02, 0x12] = true ∧ ((0x12 : Byte).extractLsb' 4 4).toNat ∈ [1, 2] ∧ ((0x12 : Byte).extractLsb' 0 4).toNat ∈ [1, 2]) := by decide

theorem witness_IllegalCmpOperandsAbort :
    (fetches (start base [] [0x05, 0x02, 0xF0]) [0x05, 0x02, 0xF0] = true ∧ 3 < ((0xF0 : Byte).extractLsb' 4 4).toNat) ∧
    (fetches (start base [] [0x05, 0x00, 0x04]) [0x05, 0x00, 0x04] = true ∧ 3 < ((0x04 : Byte).extractLsb' 0 4).toNat) ∧
    (fetches (start base [] [0x05, 0x21, 0x21]) [0x05, 0x21, 0x21] = true ∧ ((0x21 : Byte).extractLsb' 4 4).toNat ∈ [1, 2] ∧ ((0x21 : Byte).extractLsb' 0 4).toNat ∈ [1, 2]) := by decide

theorem witness_ReservedFpuEncodingsAbort :
    (fetches (start base [] [0x03, 0x03, 0x10]) [0x03, 0x03, 0x10] = true ∧ 3 ≤ ((0x03 : Byte).extractLsb' 0 3).toNat) ∧
    (fetches (start base [] [0x03, 0xFF, 0x10]) [0x03, 0xFF, 0x10] = true) ∧
    (fetches (start base [] [0x03, 0x22, 0x10]) [0x03, 0x22, 0x10] = true ∧ ((0x22 : Byte).extractLsb' 0 3).toNat = 2 ∧ 4 ≤ ((0x22 : Byte).extractLsb' 3 5).toNat) ∧
    (fetches (start base [] [0x03, 0xF8, 0x04]) [0x03, 0xF8, 0x04] = true ∧ ((0xF8 : Byte).extractLsb' 0 3).toNat = 0 ∧ 4 ≤ ((0x04 : Byte).extractLsb' 0 4).toNat) ∧
    (fetches (start base [] [0x03, 0x01, 0xF0]) [0x03, 0x01, 0xF0] = true ∧ ((0x01 : Byte).extractLsb' 0 3).toNat = 1 ∧ 4 ≤ ((0xF0 : Byte).extractLsb' 4 4).toNat) ∧
    (fetches (start base [] [0x03, 0x1A, 0x40]) [0x03, 0x1A, 0x40] = true ∧ ((0x1A : Byte).extractLsb' 0 3).toNat = 2 ∧ ((0x1A : Byte).extractLsb' 3 5).toNat = 3) ∧
    (fetches (start base [] [0x03, 0x02, 0x0F]) [0x03, 0x02, 0x0F] = true) := by decide

theorem witness_ReservedSingleKindAborts :
    (fetches (start base [] [0x04, 0x02, 0x04]) [0x04, 0x02, 0x04] = true ∧ 4 ≤ ((0x04 : Byte).extractLsb' 0 4).toNat) ∧
    (fetches (start base [] [0x04, 0x00, 0x1F]) [0x04, 0x00, 0x1F] = true) ∧
    (fetches (start base [] [0x07, 0x02, 0xF4]) [0x07, 0x02, 0xF4] = true ∧ 4 ≤ ((0xF4 : Byte).extractLsb' 0 4).toNat) ∧
    (fetches (start base [] [0x07, 0x01, 0x0F]) [0x07, 0x01, 0x0F] = true) := by decide

theorem witness_StepRunsTheDecodedInstruction :
    (start base [] [0x01, 0x02, 0x01, 0x12]).halted = false ∧ (start base [] [0x01, 0x02, 0x01, 0x12]).readRoute 0x1000 = some d0 ∧
    ∃ rest, decode ((start base [] [0x01, 0x02, 0x01, 0x12]).mem.load d0 0x1000 maxLength) = .ok (.sub .w 2 (.reg 1), rest) :=
  ⟨rfl, by decide, _, rfl⟩

theorem witness_StepRunsTheEncodedInstruction :
    (start base [] [0x02, 0x01, 0x32, 0xEF, 0xBE, 0x10, 0x00, 0x05, 0xD0]).mem.load d0 0x1000 9 = encode (.mov .h (.mem 0xD0050010) (.imm 0xBEEF)) ∧
    (Instr.mov .h (.mem 0xD0050010) (.imm 0xBEEF)).length = 9 := by decide

theorem witness_StepAnswersUnlessHalted : State.reset.halted = false ∧ { State.reset with halted := true }.halted = true := by decide

/-- Context 0 unprivileged, everything else as `base`. -/
def user : Context := { base with space := 1 }

theorem witness_FailedFetchKillsTheContext :
    (start { base with pc := 0x12000000 } [] []).halted = false ∧ ((start { base with pc := 0x12000000 } [] []).ctx 0).alive = true ∧
    (start { base with pc := 0x12000000 } [] []).readRoute 0x12000000 = none ∧ (start user [] []).readRoute 0xFF000000 = none := by decide

theorem witness_ReadRoutingTable :
    ([0x00000010, 0x0FFF0010, 0x10000010, 0x11030010, 0xD0030010, 0xDF030010, 0xE0030010, 0xE1030010, 0xFF000000,
        0x12000000, 0xCF000000, 0xE2000000, 0xFE000000].map (routeRead 7 true) =
      [some (.pool .data 7), some (.pool .data 7), some (.pool .code 7), some (.pool .ropd 7), some (.pool .data 3), some (.pool .data 3),
        some (.pool .code 3), some (.pool .ropd 3), some .boot, none, none, none, none]) ∧
    ([0x00000010, 0x0FFF0010, 0x10000010, 0x11030010, 0xD0030010, 0xDF030010, 0xE0030010, 0xE1030010, 0xFF000000].map
        (routeRead 7 false) =
      [some (.pool .data 7), some (.pool .data 7), some (.pool .code 7), some (.pool .ropd 7), none, none, none, none, none]) := by decide

theorem witness_WriteRoutingTable :
    [0x00000010, 0x0FFF0010, 0x10000000, 0xCF000000, 0xD0030010, 0xDF030010, 0xE0030010, 0xFF000000].map (routeWrite 7 true) =
      [some (.pool .data 7), some (.pool .data 7), none, none, some (.pool .data 3), some (.pool .data 3), none, none] ∧
    routeWrite 7 false 0xD0030010 = none := by decide

theorem witness_BoundDataAddressesAlias :
    let A : Word := 0x00001234
    (A.extractLsb' 24 8).toNat ≤ 0x0F ∧ A.extractLsb' 0 16 = (0x0FAB1234 : Word).extractLsb' 0 16 ∧
    ((0x0FAB1234 : Word).extractLsb' 24 8).toNat ≤ 0x0F ∧ A.extractLsb' 0 16 = (0xDF001234 : Word).extractLsb' 0 16 ∧
    (start base [] []).own.space = 0 ∧ 0xD0 ≤ ((0xDF001234 : Word).extractLsb' 24 8).toNat ∧
    ((0xDF001234 : Word).extractLsb' 24 8).toNat ≤ 0xDF ∧
    ((0xDF001234 : Word).extractLsb' 16 8).toNat = (start base [] []).cur.val := by decide

theorem witness_AddrAddWrapsInsideTheOffset :
    (0xFFFFFFFF : Word).extractLsb' 24 8 = 0xFF ∧ addrAdd 0xFFFFFFFF 1 = 0xFF000000 ∧
    (0x1000FFFF : Word).extractLsb' 24 8 ≠ 0xFF ∧ addrAdd 0x1000FFFF 2 = 0x10000001 ∧ addrAdd 0x20000000 (-4) = 0x2000FFFC := by decide

theorem witness_ReadIsLittleEndian : (start base [] []).readRoute 0x0000FFFE = some d0 ∧ (4 : Nat) ∈ [1, 2, 4] ∧
    ((start base (put d0 0xFFFE [0x78, 0x56, 0x34, 0x12] []) []).memRead 0x0000FFFE 4).1 = 0x12345678 := by decide

theorem witness_WriteStoresLittleEndian : (start base [] []).writeRoute 0x0000FFFE = some d0 ∧
    dataByte ((start base [] []).memWrite 0x0000FFFE 4 0x12345678) 0 = 0x34 := by decide

theorem witness_FailedAccessesRaiseTheirFlag : (start base [] []).readRoute 0x12000000 = none ∧
    (start base [] []).writeRoute 0x10000000 = none := by decide

/-- A CALL has pushed at the end of the pool. -/
theorem witness_StackRoundTrip :
    (start { base with cp := 0xFFFE } [] []).writeRoute 0xFFFE = some d0 ∧ (start { base with sp := 0xD0051000 } [] []).writeRoute 0xD0051000 = some (.pool .data 5) ∧
    ∃ t, exec (.call .h (.imm 0x1234)) (start { base with cp := 0xFFFE } [] []) = .next t ∧
      (decide (t.cur = 0) && decide (t.own.space = 0) && decide (t.own.cp = 2)) = true := by
  refine ⟨by decide, by decide, next_of_seen (by decide)⟩

theorem witness_OperandValues : (start base [] []).storeAddress (.ind 3) = some 0 ∧ (start base [] []).readRoute 0 = some d0 ∧
    (start base [] []).storeAddress (.mem 0xFF000000) = some 0xFF000000 ∧ (start base [] []).readRoute 0xFF000000 = some .boot ∧
    (start base [] []).unreadable (.mem 0x12000000) = true := by decide

theorem witness_DivResults : (start base [] []).aluSource (.imm 1) ≠ 0 ∧ (start base [] []).aluSource (.reg 1) = 0 := by decide

theorem witness_AluClearsUpperBits : ∃ t, exec (.div .b 0 (.imm 1)) (start base [] []) = .next t ∧
    decide ((start base [] []).aluSource (.imm 1) ≠ 0) = true := next_of_seen (p := fun _ => _) (by decide)

theorem witness_MovIntoMemory : (start base [] []).storeAddress (.mem 0xD0050010) = some 0xD0050010 ∧ (Operand.imm 0xBEEF).kind.isMem = false ∧
    (start base [] []).writeRoute 0xD0050010 = some (.pool .data 5) ∧ (start user [] []).writeRoute 0xD0050010 = none ∧
    (start base [] []).storeAddress (.ind 2) = some 0 := by decide

theorem witness_MovStoreThenLoad : ((start base [] []).writeRoute 0xFFFE).isSome = true ∧
    ∃ t, exec (.mov .w (.mem 0xFFFE) (.reg 0)) (start base [] []) = .next t ∧ true = true :=
  ⟨by decide, next_of_seen (p := fun _ => true) (by decide)⟩

theorem witness_CmpOutcome : cmpLegal (Operand.imm 1).kind (Operand.mem 0).kind = true ∧ cmpLegal (Operand.ind 1).kind (Operand.reg 0).kind = true := by
  decide

theorem witness_ConversionResults : floatToInt 0xCF000000 = some 0x80000000 ∧ floatToInt 0x4EFFFFFF = some 0x7FFFFF80 ∧
    floatToInt 0x80000000 = some 0 := by decide

theorem witness_FtoiOutOfRangeCompletes : floatToInt 0x4F000000 = none ∧ floatToInt 0xCF000001 = none ∧ floatToInt 0x7F800000 = none ∧
    floatToInt 0x7FC00000 = none := by decide

theorem witness_FloatInstructionResults : fpAdd 0x3F800000 0x40000000 = .pattern 0x40400000 ∧ fpSub 0x3F800000 0x40000000 = .pattern 0xBF800000 ∧
    fpMul 0x40400000 0x40800000 = .pattern 0x41400000 ∧ fpDiv 0x3F800000 0x40800000 = .pattern 0x3E800000 ∧
    fpAdd 0x7F800000 0xFF800000 = .nan ∧ fpDiv 0 0 = .nan := by decide

theorem finite_one : fpUnpack 0x3F800000 = .finite false 8388608 (-23) := by decide
theorem finite_minus_one : fpUnpack 0xBF800000 = .finite true 8388608 (-23) := by decide
theorem finite_zero : fpUnpack 0 = .finite false 0 (-149) := by decide
theorem finite_minus_zero : fpUnpack 0x80000000 = .finite true 0 (-149) := by decide

/-- Finite operands: the least subnormal, the largest number, a divisor that is not 0. -/
theorem witness_FloatArithmeticRoundsToNearestEven :
    fpFinite 0x00000001 ∧ fpFinite 0x7F7FFFFF ∧ fpFinite 0xBF800000 ∧ fpRat 0xBF800000 ≠ 0 :=
  ⟨⟨_, _, _, rfl⟩, ⟨_, _, _, rfl⟩, ⟨_, _, _, rfl⟩, fun h => by simpa using (fpRat_eq_zero finite_minus_one).mp h⟩

/-- The clauses of `RoundedTo` each have a pattern: a finite and an infinite one, an exact value that is not 0. -/
theorem witness_RoundedTo : fpFinite 0x007FFFFF ∧ ¬ fpFinite 0x7F800000 ∧ fpRat 0x3F800000 + fpRat 0 ≠ 0 :=
  ⟨⟨_, _, _, rfl⟩, not_fpFinite_of_inf (neg := false) (by decide), by
    rw [fpRat_finite finite_one, fpRat_finite finite_zero]
    simp [signedMagnitude]⟩

/-- Half a place beyond the largest finite number, and just below that. -/
theorem test_overflow_boundary : fpAdd 0x7F7FFFFF 0x73000000 = .pattern 0x7F800000 ∧ fpAdd 0x7F7FFFFF 0x72FFFFFF = .pattern 0x7F7FFFFF ∧
    fpSub 0xFF7FFFFF 0x73000000 = .pattern 0xFF800000 := by decide

theorem witness_SmallIntegersConvertExactly : (0x01000000 : Word).toInt.natAbs ≤ 2 ^ 24 ∧ (0xFF000000 : Word).toInt.natAbs ≤ 2 ^ 24 := by decide

theorem witness_SpecialFloatOperands : fpUnpack 0x7FC00000 = .nan ∧ fpUnpack 0x7F800000 = .inf false ∧ fpUnpack 0xFF800000 = .inf true ∧
    fpUnpack 0x80000000 = .finite true 0 (-149) ∧ fpUnpack 0x00000001 = .finite false 1 (-149) := by decide

/-- Exact zeros: `1 + (-1)`, `-0 + -0`, `1 - 1`, `0 * -1`, `-0 / 1`. -/
theorem witness_SpecialFloatOperands_zeros : fpFinite 0x3F800000 ∧ fpFinite 0x80000000 ∧ fpRat 0x3F800000 + fpRat 0xBF800000 = 0 ∧
    fpRat 0x80000000 + fpRat 0x80000000 = 0 ∧ fpRat 0x3F800000 - fpRat 0x3F800000 = 0 ∧ fpRat 0 * fpRat 0xBF800000 = 0 ∧
    fpRat 0x80000000 = 0 ∧ fpRat 0x3F800000 ≠ 0 := by
  have hz := (fpRat_eq_zero finite_minus_zero).mpr rfl
  refine ⟨⟨_, _, _, rfl⟩, ⟨_, _, _, rfl⟩, ?_, by rw [hz, add_zero], sub_self _, ?_, hz, fun h => ?_⟩
  · rw [fpRat_finite finite_one, fpRat_finite finite_minus_one]
    simp [signedMagnitude]
  · rw [(fpRat_eq_zero finite_zero).mpr rfl, zero_mul]
  · simpa using (fpRat_eq_zero finite_one).mp h

theorem test_zero_signs : fpAdd 0x3F800000 0xBF800000 = .pattern 0 ∧ fpAdd 0x80000000 0x80000000 = .pattern 0x80000000 ∧
    fpAdd 0x80000000 0 = .pattern 0 ∧ fpMul 0 0xBF800000 = .pattern 0x80000000 ∧ fpDiv 0xBF800000 0x7F800000 = .pattern 0x80000000 := by decide

theorem witness_FloatToIntTruncates : fpFinite 0xC14C0000 ∧ fpFinite 0x4F000000 ∧ ¬ fpFinite 0x7FC00000 :=
  ⟨⟨_, _, _, rfl⟩, ⟨_, _, _, rfl⟩, by
    rintro ⟨n, m, e, h⟩
    have h' : fpUnpack 0x7FC00000 = .nan := by decide
    rw [h'] at h
    cases h⟩

theorem witness_JmpResult : condModeOf 0 = .ifAny ∧ condModeOf 1 = .ifNone := by decide

theorem witness_CallResult : (start { base with cp := 0xFFFE } [] []).writeRoute 0xFFFE = some d0 ∧
    (start { base with cp := 0x10000000 } [] []).writeRoute 0x10000000 = none := by decide

theorem witness_RetResult : (start base [] []).readRoute (start base [] []).own.cp = some d0 ∧
    (start { base with cp := 0x20000004 } [] []).readRoute 0x20000004 = none := by decide

theorem witness_IntDrawingCalls : ((0xFF0F : Word), PeriphFn.flush) ∈ [((0xFF00 : Word), PeriphFn.drawGlyph), (0xFF01, .drawPixel), (0xFF0F, .flush)] := by
  decide

theorem witness_IntReservedCodesDoNothing : (0xFF02 : Word) ∉ [(0xFF00 : Word), 0xFF01, 0xFF0F, 0xFF10, 0xFF11] ∧
    (0x1FF10 : Word) ∉ [(0xFF00 : Word), 0xFF01, 0xFF0F, 0xFF10, 0xFF11] ∧ (0xFFFF : Word) ∉ [(0xFF00 : Word), 0xFF01, 0xFF0F, 0xFF10, 0xFF11] := by
  decide

theorem witness_StopFlagKillsTheContext : ((twoAlive.raise .readError).ctx 0).alive = true ∧ (twoAlive.raise .readError).cur ≠ 0 ∧
    (twoAlive.raise .readError).own.flags &&& 0x1F ≠ 0 := by decide

theorem witness_KernelDeathHaltsTheMachine : (((start base [] []).raise .halt).ctx 0).alive = true ∧ ((start base [] []).raise .halt).cur = 0 ∧
    ((start base [] []).raise .halt).own.flags &&& 0x1F ≠ 0 := by decide

theorem witness_QuantumExpirySwitches : ((start { base with quantumCount := 15 } [] []).ctx 0).alive = true ∧
    (start { base with quantumCount := 15 } [] []).own.flags &&& 0x1F = 0 ∧ (start { base with quantumCount := 15 } [] []).own.quantumCount = 15 := by
  decide

theorem witness_WithinTheQuantumOnlyTheCountMoves : ((start { base with quantumCount := 14 } [] []).ctx 0).alive = true ∧
    (start { base with quantumCount := 14 } [] []).own.flags &&& 0x1F = 0 ∧
    (start { base with quantumCount := 14 } [] []).own.quantumCount.toNat < 15 := by decide

theorem witness_HostKillHaltsAfterOneInstruction : twoAlive.halted = false := by decide

/-- Reset with a MOV at `pc`: a proper state that takes a step. -/
def moving : State := start base [] [0x02, 0x02, 0x30, 0x78, 0x56, 0x34, 0x12, 0x00]

theorem ctx_start (k : Context) (m : Memory) (bytes : List Byte) (c : CtxId) :
    (start k m bytes).ctx c = if c = 0 then k else Context.zeroed := by
  have h : (start k m bytes).ctx c = ({ State.reset with mem := m }.setCtx 0 k).ctx c := by
    simp only [start, State.placeAtPc]
    split <;> rfl
  rw [h, ctx_setCtx]
  split
  · rfl
  · rename_i hc
    have hv : c.val ≠ 0 := fun h => hc (Fin.ext h)
    simp only [State.ctx, State.reset]
    rw [Vector.getElem_set_ne _ _ (Ne.symm hv), Vector.getElem_replicate]

theorem ctx_moving (c : CtxId) : moving.ctx c = if c = 0 then base else Context.zeroed := ctx_start _ _ _ c

theorem moving_proper : moving.Proper where
  memory := by decide +kernel
  running := fun _ => by decide
  unstopped := fun c _ => by rw [ctx_moving]; split <;> rfl
  countElsewhere := fun c _ => by rw [ctx_moving]; split <;> rfl
  countBound := by decide
  flagsReserved := fun c => by rw [ctx_moving]; split <;> rfl
  cmpReserved := fun c => by rw [ctx_moving]; split <;> rfl

theorem witness_StepKeepsTheInvariants : moving.Proper ∧ ∃ t, step moving = .next t ∧ true = true :=
  ⟨moving_proper, next_of_seen (p := fun _ => true) (by decide)⟩

theorem moving_launch : moving.Launch :=
  ⟨by decide, by decide, rfl, fun c => by
    rw [ctx_moving]
    split <;> exact ⟨fun _ => rfl, rfl, rfl, rfl⟩⟩

theorem witness_LaunchStatesHaveTheInvariants : moving.Launch ∧ moving.mem.wf := ⟨moving_launch, by decide +kernel⟩

theorem witness_FlagsStickAndAliveNeverReturns : ∃ t, step moving = .next t ∧ (t.ctx 0).alive = true :=
  next_of_seen (p := fun t => (t.ctx 0).alive) (by decide)

theorem witness_StepTouchesOnlyTheCurrentContextAndData : ∃ t, step moving = .next t ∧ decide ((t.ctx 0).x[0] = 0x12345678) = true :=
  next_of_seen (p := fun t => decide ((t.ctx 0).x[0] = 0x12345678)) (by decide)

/-- An unprivileged context about to store into its own pool; `b` is a byte of another context's pool. -/
def storing (b : Byte) : State := start user (put (.pool .data 3) 0 [b] []) [0x02, 0x02, 0x02, 0x00, 0x00, 0x01, 0x00, 0x00]

theorem witness_UnprivilegedStoresStayInTheOwnPool : (storing 0).own.space ≠ 0 ∧ (Pool.code ≠ .data ∨ (0 : CtxId) ≠ 0) ∧ (Pool.data ≠ .data ∨ (255 : CtxId) ≠ 0) ∧
    ∃ t, step (storing 0) = .next t ∧ (t.ctx 0).alive = true :=
  ⟨by decide, by decide, by decide, next_of_seen (p := fun t => (t.ctx 0).alive) (by decide)⟩

theorem read_append {m : Memory} {k a : Nat} {v : Byte} (h : a ≠ k) : (m ++ [(k, v)] : Memory).read a = m.read a := by
  induction m with
  | nil => simp [Memory.read, Ne.symm h]
  | cons c m ih =>
    simp only [List.cons_append, Memory.read]
    split
    · rfl
    · exact ih

theorem witness_UnprivilegedInstructionSeesOnlyItsOwnPools : (storing 0).own.space ≠ 0 ∧ (storing 1).cur = (storing 0).cur ∧
    (storing 1).own = (storing 0).own ∧ (storing 1).draws = (storing 0).draws ∧ (storing 1).periphReads = (storing 0).periphReads ∧
    (storing 1).mem ≠ (storing 0).mem ∧
    (∀ (p : Pool) (off : BitVec 16), (storing 1).mem.read (poolAddr p (storing 0).cur off) = (storing 0).mem.read (poolAddr p (storing 0).cur off)) ∧
    (∃ t, instructionStep (storing 0) = .next t ∧ true = true) ∧ ∃ t, instructionStep (storing 1) = .next t ∧ true = true := by
  refine ⟨by decide, by decide, by decide, by decide, by decide, by decide, fun p off => ?_, next_of_seen (p := fun _ => true) (by decide),
    next_of_seen (p := fun _ => true) (by decide)⟩
  have h : (storing 1).mem = (storing 0).mem ++ [(196608, 1)] := by decide
  rw [h]
  refine read_append ?_
  have := off.isLt
  cases p <;> simp only [poolAddr, Pool.base, poolSpan, show (storing 0).cur.val = 0 from rfl] <;> omega

end Sys2Proof.Tests
end

section
/-! The state statements: the invariants of R28 and R259, what a step leaves alone, the reset values (R10 to R30).

Every statement about a step follows one path: `step_next` splits the step into an instruction, whose `State.Effect` bounds what
it did, and the scheduler's check, whose effect on the contexts and on memory is said here once. -/

namespace Sys2Proof.Machine

/-! ### What the scheduler's check leaves alone -/

section Check
variable (s : State)

/-- All that the check can do to a context: in the current one the count moves and `alive` can fall (R253, R279). -/
def Context.Scheduled (k l : Context) : Prop :=
  ∃ (count : Word) (stop : Bool), l = { k with quantumCount := count, alive := k.alive && !stop }

theorem Context.Scheduled.refl (k : Context) : k.Scheduled k := ⟨k.quantumCount, false, by simp⟩

theorem switchContext_ctx (c : CtxId) : (switchContext s).ctx c = s.ctx c := by
  rcases switchContext_cases s with ⟨_, h⟩ | ⟨_, h⟩ <;> rw [h] <;> rfl

theorem switchContext_mem : (switchContext s).mem = s.mem := by
  rcases switchContext_cases s with ⟨_, h⟩ | ⟨_, h⟩ <;> rw [h]

/-- The check stores nothing. -/
@[simp] theorem schedulerCheck_mem : (schedulerCheck s).mem = s.mem := by
  rcases schedulerCheck_cases s with ⟨_, h⟩ | ⟨_, _, _, h⟩ | ⟨_, _, h⟩
  · rw [h]
  · rw [h, setOwn_mem]
  · rw [h, switchContext_mem, setOwn_mem]

/-- The check touches no context but the one that has just run. -/
theorem schedulerCheck_ctx_other {c : CtxId} (hc : c ≠ s.cur) : (schedulerCheck s).ctx c = s.ctx c := by
  rcases schedulerCheck_cases s with ⟨_, h⟩ | ⟨_, _, _, h⟩ | ⟨_, _, h⟩
  · rw [h]; rfl
  · rw [h, ctx_setOwn_other s _ c hc]
  · rw [h, switchContext_ctx, ctx_setOwn_other s _ c hc]

theorem schedulerCheck_ctx_cur : s.own.Scheduled ((schedulerCheck s).ctx s.cur) := by
  rcases schedulerCheck_cases s with ⟨_, h⟩ | ⟨_, _, _, h⟩ | ⟨_, _, h⟩
  · rw [h]
    exact .refl _
  · rw [h, ctx_setOwn, if_pos rfl]
    exact ⟨s.own.quantumCount + 1, false, by simp⟩
  · rw [h, switchContext_ctx, ctx_setOwn, if_pos rfl]
    exact ⟨_, _, rfl⟩

end Check

/-! ### What a step leaves alone -/

/-- A step is an instruction's effect, after which the check only counts or ends the current context's quantum (R250). -/
theorem step_cases {s t : State} (h : step s = .next t) :
    ∃ u, instructionStep s = .next u ∧ s.Effect u ∧ t.mem = u.mem ∧ (∀ c, c ≠ s.cur → t.ctx c = s.ctx c) ∧
      u.own.Scheduled (t.ctx s.cur) := by
  obtain ⟨_, u, hu, he, rfl⟩ := step_next h
  refine ⟨u, hu, he, schedulerCheck_mem u, fun c hc => ?_, ?_⟩
  · rw [schedulerCheck_ctx_other u (by rwa [he.cur]), he.others c hc]
  · rw [← he.cur]
    exact schedulerCheck_ctx_cur u

theorem step_writesData {s t : State} (h : step s = .next t) : s.WritesData t := by
  obtain ⟨u, _, he, hmem, _⟩ := step_cases h
  intro a
  rw [hmem]
  exact he.bytes a

/-! ### Where the pools and the boot image lie (log 12) -/

/-- A byte of one pool is a byte of no other (R25). -/
theorem pool_eq_of_poolAddr_eq {p q : Pool} {j k : CtxId} {off off' : BitVec 16} (h : poolAddr p j off = poolAddr q k off') :
    p = q ∧ j = k := by
  have hj := j.isLt
  have hk := k.isLt
  have ho := off.isLt
  have ho' := off'.isLt
  simp only [poolAddr] at h
  have hpq : p = q := by
    cases p <;> cases q <;> simp only [Pool.base, poolSpan, reduceCtorEq] at h ⊢ <;> omega
  subst hpq
  exact ⟨rfl, Fin.ext (by omega)⟩

theorem poolAddr_data_lt (j : CtxId) (off : BitVec 16) : poolAddr .data j off < poolSpan := by
  have hj := j.isLt
  have ho := off.isLt
  simp only [poolAddr, Pool.base, poolSpan]
  omega

theorem poolAddr_lt_bootBase (p : Pool) (j : CtxId) (off : BitVec 16) : poolAddr p j off < bootBase := by
  have hj := j.isLt
  have ho := off.isLt
  cases p <;> simp only [poolAddr, Pool.base, bootBase, poolSpan] <;> omega

theorem bootBase_le_bootAddr (off : BitVec 24) : bootBase ≤ bootAddr off := Nat.le_add_right _ _

/-! ### The invariants -/

/-- Where no context has counted an instruction, the two clauses about counts hold for any `cur`. -/
theorem State.Proper.of_counts_zero {s : State} (memory : s.mem.wf)
    (running : s.halted = false → (s.ctx 0).alive = true ∧ s.own.alive = true)
    (unstopped : ∀ c, (s.ctx c).alive = true → (s.ctx c).flags &&& stopMask = 0)
    (counts : ∀ c, (s.ctx c).quantumCount = 0)
    (flagsReserved : ∀ c, (s.ctx c).flags.extractLsb' 5 27 = 0)
    (cmpReserved : ∀ c, (s.ctx c).cmp.extractLsb' 3 5 = 0) : s.Proper where
  memory := memory
  running := running
  unstopped := unstopped
  countElsewhere c _ := counts c
  countBound := by rw [← ctx_cur, counts]; decide
  flagsReserved := flagsReserved
  cmpReserved := cmpReserved

/-- What an instruction of a proper running machine leaves for the check: all of `Proper` but that the current context may have
raised a STOP flag (R252, R253). -/
structure State.ReadyForCheck (u : State) : Prop where
  memory : u.mem.wf
  bootAlive : (u.ctx 0).alive = true
  ownAlive : u.own.alive = true
  unstopped : ∀ c, c ≠ u.cur → (u.ctx c).alive = true → (u.ctx c).flags &&& stopMask = 0
  countElsewhere : ∀ c, c ≠ u.cur → (u.ctx c).quantumCount = 0
  countBound : u.own.quantumCount.toNat < 16
  flagsReserved : ∀ c, (u.ctx c).flags.extractLsb' 5 27 = 0
  cmpReserved : ∀ c, (u.ctx c).cmp.extractLsb' 3 5 = 0

/-- The STOP mask lies below the reserved bits (R16, R17). -/
theorem extract_reserved_of_stopMask {m : Word} (h : m &&& stopMask = m) : m.extractLsb' 5 27 = 0 := by
  rw [← h, BitVec.extractLsb'_and]
  simp [stopMask]

theorem State.Effect.flagsReserved {s u : State} (he : s.Effect u) (hs : s.own.flags.extractLsb' 5 27 = 0) :
    u.own.flags.extractLsb' 5 27 = 0 := by
  obtain ⟨m, hm, hstop⟩ := he.flags
  rw [hm, extract_or, hs, extract_reserved_of_stopMask hstop, BitVec.or_self]

theorem State.Effect.own_eq {s u : State} (he : s.Effect u) : u.ctx s.cur = u.own := by rw [← he.cur, ctx_cur]

theorem State.Effect.alive_eq {s u : State} (he : s.Effect u) (c : CtxId) : (u.ctx c).alive = (s.ctx c).alive := by
  by_cases hc : c = s.cur
  · rw [hc, he.own_eq, he.alive, ctx_cur]
  · rw [he.others c hc]

/-- What holds of the current context after an instruction, and held of the others before it, holds of every context. -/
theorem State.Effect.forall_ctx {s u : State} (he : s.Effect u) (P : Context → Prop) (hown : P u.own)
    (hother : ∀ c, c ≠ s.cur → P (s.ctx c)) (c : CtxId) : P (u.ctx c) := by
  by_cases hc : c = s.cur
  · rwa [hc, he.own_eq]
  · rw [he.others c hc]
    exact hother c hc

/-- An instruction leaves a proper running machine ready for the check. -/
theorem State.Proper.readyForCheck {s u : State} (hs : s.Proper) (hrun : s.halted = false) (he : s.Effect u) :
    u.ReadyForCheck := by
  obtain ⟨hboot, hown⟩ := hs.running hrun
  have other {c : CtxId} (hc : c ≠ u.cur) : u.ctx c = s.ctx c := he.others c (by rwa [← he.cur])
  exact {
    memory := he.memory hs.memory
    bootAlive := by rw [he.alive_eq, hboot]
    ownAlive := by rw [he.alive, hown]
    unstopped := fun c hc => by rw [other hc]; exact hs.unstopped c
    countElsewhere := fun c hc => by rw [other hc]; exact hs.countElsewhere c (by rwa [← he.cur])
    countBound := by rw [he.quantumCount]; exact hs.countBound
    flagsReserved := he.forall_ctx (·.flags.extractLsb' 5 27 = 0) (he.flagsReserved (hs.flagsReserved s.cur))
      fun c _ => hs.flagsReserved c
    cmpReserved := he.forall_ctx (·.cmp.extractLsb' 3 5 = 0) (he.cmp (hs.cmpReserved s.cur)) fun c _ => hs.cmpReserved c }

theorem stopping_eq_false {flags : Word} : stopping flags = false ↔ flags &&& stopMask = 0 := by simp [stopping]

/-- What holds of the new current context and of every other one holds of every context. -/
theorem forall_ctx_setOwn {s : State} {k : Context} (P : Context → Prop) (hk : P k) (hother : ∀ c, c ≠ s.cur → P (s.ctx c))
    (c : CtxId) : P ((s.setOwn k).ctx c) := by
  rw [ctx_setOwn]
  split
  · exact hk
  · exact hother c ‹_›

/-- Within the quantum the check keeps the invariants: no STOP flag is set, and the count stays below 16 (R253). -/
theorem State.ReadyForCheck.counted {u : State} (hu : u.ReadyForCheck) (hcount : u.own.quantumCount + 1 ≠ Config.quantum)
    (hstop : stopping u.own.flags = false) :
    (u.setOwn { u.own with quantumCount := u.own.quantumCount + 1 }).Proper where
  memory := hu.memory
  running _ := by
    refine ⟨?_, by rw [own_setOwn]; exact hu.ownAlive⟩
    rw [ctx_setOwn]
    split
    · exact hu.ownAlive
    · exact hu.bootAlive
  unstopped := forall_ctx_setOwn (fun k => k.alive = true → k.flags &&& stopMask = 0) (fun _ => stopping_eq_false.mp hstop)
    hu.unstopped
  countElsewhere c hc := by rw [ctx_setOwn_other u _ c hc]; exact hu.countElsewhere c hc
  countBound := by
    have hb := hu.countBound
    simp only [own_setOwn, Config.quantum] at hcount ⊢
    bv_omega
  flagsReserved := forall_ctx_setOwn (·.flags.extractLsb' 5 27 = 0) (hu.flagsReserved u.cur) fun c _ => hu.flagsReserved c
  cmpReserved := forall_ctx_setOwn (·.cmp.extractLsb' 3 5 = 0) (hu.cmpReserved u.cur) fun c _ => hu.cmpReserved c

/-- A context alive after the end of its quantum had no STOP flag (R253). -/
theorem Context.endQuantum_unstopped {k : Context} (h : (k.endQuantum (stopping k.flags)).alive = true) :
    k.flags &&& stopMask = 0 := by
  have hstop : k.alive = true ∧ stopping k.flags = false := by simpa [Context.endQuantum] using h
  exact stopping_eq_false.mp hstop.2

/-- Where the quantum ends, every count is 0 and an alive context has no STOP flag, so the invariants hold whichever context the
switch goes to; it goes to an alive one (R253 to R255). -/
theorem State.ReadyForCheck.switched {u : State} (hu : u.ReadyForCheck) :
    (switchContext (u.setOwn (u.own.endQuantum (stopping u.own.flags)))).Proper := by
  refine .of_counts_zero (by rw [switchContext_mem, setOwn_mem]; exact hu.memory) ?_ ?_ ?_ ?_ ?_
  · intro hrun
    rcases switchContext_cases (u.setOwn (u.own.endQuantum (stopping u.own.flags))) with ⟨_, h⟩ | ⟨hboot, h⟩
    · rw [h] at hrun
      cases hrun
    · rw [h]
      exact ⟨hboot, searchAlive_alive hboot _⟩
  all_goals simp only [switchContext_ctx]
  · exact forall_ctx_setOwn (fun k => k.alive = true → k.flags &&& stopMask = 0) Context.endQuantum_unstopped hu.unstopped
  · exact forall_ctx_setOwn (·.quantumCount = 0) rfl hu.countElsewhere
  · exact forall_ctx_setOwn (·.flags.extractLsb' 5 27 = 0) (hu.flagsReserved u.cur) fun c _ => hu.flagsReserved c
  · exact forall_ctx_setOwn (·.cmp.extractLsb' 3 5 = 0) (hu.cmpReserved u.cur) fun c _ => hu.cmpReserved c

/-- The scheduler's check restores the invariants (R28, R259). -/
theorem State.ReadyForCheck.proper {u : State} (hu : u.ReadyForCheck) : (schedulerCheck u).Proper := by
  rcases schedulerCheck_cases u with ⟨hdead, _⟩ | ⟨_, hcount, hstop, h⟩ | ⟨_, _, h⟩
  · rw [hu.bootAlive] at hdead
    cases hdead
  · rw [h]
    exact hu.counted hcount hstop
  · rw [h]
    exact hu.switched

/-! ### The stores of an unprivileged context -/

/-- A byte that a step of an unprivileged context changes lies in that context's data pool (R43, R44). -/
theorem step_unprivileged_read {s t : State} (hspace : s.own.space ≠ 0) (h : step s = .next t) {a : Nat}
    (ha : ∀ off, a ≠ poolAddr .data s.cur off) : t.mem.read a = s.mem.read a := by
  have hpriv : s.own.privileged = false := by simpa [Context.privileged] using hspace
  rcases step_writesData h a with hread | ⟨j, off, haddr, hown⟩
  · exact hread
  · rw [hown hpriv] at haddr
    exact absurd haddr (ha off)

/-! ### Reset -/

theorem reset_ctx (c : CtxId) : State.reset.ctx c = if c = 0 then Context.boot else Context.zeroed := by
  simp only [State.ctx, State.reset, Vector.getElem_set, Vector.getElem_replicate, Fin.ext_iff, eq_comm, Fin.val_zero]

theorem reset_launch : State.reset.Launch := by
  refine ⟨by rw [reset_ctx]; rfl, by rw [reset_ctx]; rfl, rfl, fun c => ?_⟩
  rw [reset_ctx]
  split <;> exact ⟨fun _ => rfl, rfl, rfl, rfl⟩

/-- Reset lists no cell, so every byte reads as an unlisted one (R30). -/
theorem reset_read (a : Nat) : State.reset.mem.read a = Memory.unlisted a := rfl

/-! ### DONE is never raised

`State.Effect` bounds what an instruction ORs into `flags` by the STOP mask, which contains DONE; that no meaning raises DONE is
said here (R16, R275). -/

/-- The DONE bit of the current context's `flags`. -/
def State.doneBit (s : State) : Word := s.own.flags &&& Flag.done.mask

section Done
variable (s : State)

theorem doneBit_congr {s t : State} (h : t.own.flags = s.own.flags) : t.doneBit = s.doneBit := by
  rw [State.doneBit, State.doneBit, h]

/-- Raising another condition than DONE leaves DONE as it was (R16). -/
@[simp] theorem raise_doneBit {F : Flag} (hF : F ≠ .done) : (s.raise F).doneBit = s.doneBit := by
  have hmask : F.mask &&& Flag.done.mask = 0 := by
    cases F
    case done => exact absurd rfl hF
    all_goals rfl
  rw [State.doneBit, raise_own, BitVec.and_or_distrib_right, hmask]
  exact BitVec.or_zero

@[simp] theorem setX_doneBit (r : Reg) (v : Word) : (s.setX r v).doneBit = s.doneBit := doneBit_congr (by simp)
@[simp] theorem setF_doneBit (r : FReg) (v : Word) : (s.setF r v).doneBit = s.doneBit := doneBit_congr (by simp)
@[simp] theorem setPc_doneBit (v : Word) : (s.setPc v).doneBit = s.doneBit := doneBit_congr (by simp)
@[simp] theorem setCp_doneBit (v : Word) : (s.setCp v).doneBit = s.doneBit := doneBit_congr (by simp)
@[simp] theorem setCmp_doneBit (v : Byte) : (s.setCmp v).doneBit = s.doneBit := doneBit_congr (by simp)
@[simp] theorem advance_doneBit (n : Nat) : (s.advance n).doneBit = s.doneBit := setPc_doneBit s _
@[simp] theorem drawn_doneBit (n : Nat) : (s.drawn n).doneBit = s.doneBit := rfl
@[simp] theorem periphTaken_doneBit (n : Nat) : (s.periphTaken n).doneBit = s.doneBit := rfl
@[simp] theorem periphCall_doneBit (fn : PeriphFn) : (s.periphCall fn).doneBit = s.doneBit := rfl

@[simp] theorem illegalAfter_doneBit (n : Nat) : (s.illegalAfter n).doneBit = s.doneBit := by simp [State.illegalAfter]

@[simp] theorem afterRead_doneBit (A : Word) (n : Nat) : (s.afterRead A n).doneBit = s.doneBit := by
  rcases afterRead_cases s A n with h | ⟨_, h⟩ <;> simp [h]

@[simp] theorem memRead_doneBit (A : Word) (n : Nat) : (s.memRead A n).2.doneBit = s.doneBit := afterRead_doneBit s A n

@[simp] theorem memWrite_doneBit (A : Word) (n : Nat) (v : Word) : (s.memWrite A n v).doneBit = s.doneBit := by
  rcases memWrite_cases s A n v with ⟨_, _, h⟩ | ⟨_, h⟩
  · rw [h]
    rfl
  · simp [h]

@[simp] theorem readOperand_doneBit (sc : SizeClass) (op : Operand) : (s.readOperand sc op).2.doneBit = s.doneBit := by
  rw [readOperand_state]
  split <;> simp

@[simp] theorem writeDest_doneBit (sc : SizeClass) (v : Word) (op : Operand) : (s.writeDest sc v op).doneBit = s.doneBit := by
  cases op <;> simp [State.writeDest]

@[simp] theorem push_doneBit (n : Nat) (v : Word) : (s.push .cp n v).doneBit = s.doneBit := by
  simp [State.push, State.setPointer]

@[simp] theorem pop_doneBit (n : Nat) : (s.pop .cp n).2.doneBit = s.doneBit := by simp [State.pop, State.setPointer]

@[simp] theorem jumpOn_doneBit (mode : CondMode) (mask : Nibble) (target : Word) :
    (jumpOn mode mask target s).doneBit = s.doneBit := by
  simp only [jumpOn]
  split
  · simp
  · split <;> simp

@[simp] theorem peripheral_doneBit (r : PeriphRequest) : (s.peripheral r).doneBit = s.doneBit := by
  cases r <;> simp [State.peripheral]

@[simp] theorem aluFrame_doneBit (op : Word → Word → Word) (n : Nat) (sc : SizeClass) (a : Reg) (b : AluSrc) :
    (aluFrame op n sc a b s).doneBit = s.doneBit := by simp [aluFrame]

@[simp] theorem fpuFrame_doneBit (op : Word → Word → FpResult) (n : Nat) (d r : FReg) :
    (fpuFrame op n d r s).doneBit = s.doneBit := by simp [fpuFrame]

/-- No instruction raises DONE (R275). -/
theorem exec_doneBit {i : Instr} {s t : State} (h : exec i s = .next t) : t.doneBit = s.doneBit := by
  cases i
  case div sc a b =>
    simp only [exec, execDiv] at h
    split at h <;> cases h <;> simp
  case mov sc dst src =>
    simp only [exec, execMov] at h
    split at h <;> cases h <;> simp
  case cmp sc signed keep dst src =>
    simp only [exec, execCmp] at h
    split at h <;> cases h <;> simp
  all_goals
    cases h
    simp

theorem rejectEffect_doneBit (e : DecodeReject) : (s.rejectEffect e).doneBit = s.doneBit := by
  rw [rejectEffect_default, illegalAfter_doneBit]

/-- Neither does an instruction's fetch, nor an encoding that is no instruction. -/
theorem instructionStep_doneBit {s t : State} (h : instructionStep s = .next t) : t.doneBit = s.doneBit := by
  simp only [instructionStep] at h
  split at h
  · rw [exec_doneBit h, State.afterFetch, afterRead_doneBit]
  · cases h
  · cases h
    rw [rejectEffect_doneBit, State.afterFetch, afterRead_doneBit]

end Done

/-- A bit of `flags` stays set through an instruction (R16). -/
theorem State.Effect.flags_stick {s u : State} (he : s.Effect u) : s.own.flags &&& u.own.flags = s.own.flags := by
  obtain ⟨m, hm, _⟩ := he.flags
  rw [hm]
  ext i hi
  simp +contextual

/-! ### The statements -/

/-- Settles O52: an instruction leaves a proper machine ready for the check, and the check restores the invariants. -/
theorem stepKeepsTheInvariants : Obligations.StepKeepsTheInvariants := by
  intro s t hs h
  obtain ⟨hrun, u, _, he, rfl⟩ := step_next h
  exact (hs.readyForCheck hrun he).proper

/-- Settles O57: the instruction's effect stays in the current context and in data pools, which lie below `poolSpan`. -/
theorem stepTouchesOnlyTheCurrentContextAndData : Obligations.StepTouchesOnlyTheCurrentContextAndData := by
  intro s t h
  obtain ⟨u, _, he, _, hothers, count, stop, hcur⟩ := step_cases h
  refine ⟨hothers, by rw [hcur]; exact he.sp, by rw [hcur]; exact he.space, fun a ha => ?_⟩
  rcases step_writesData h a with hread | ⟨j, off, rfl, _⟩
  · exact hread
  · exact absurd (poolAddr_data_lt j off) (Nat.not_lt.mpr ha)

/-- Settles O58: every byte it names lies outside the context's own data pool. -/
theorem unprivilegedStoresStayInTheOwnPool : Obligations.UnprivilegedStoresStayInTheOwnPool := by
  intro s t hspace h
  refine ⟨fun p j off hne => step_unprivileged_read hspace h fun off' heq => ?_,
    fun off => step_unprivileged_read hspace h fun off' heq => ?_, fun a ha => step_unprivileged_read hspace h ha⟩
  · obtain ⟨hp, hj⟩ := pool_eq_of_poolAddr_eq heq
    exact hne.elim (absurd hp) (absurd hj)
  · have hlt := poolAddr_lt_bootBase .data s.cur off'
    rw [← heq] at hlt
    exact absurd hlt (Nat.not_lt.mpr (bootBase_le_bootAddr off))

/-- Settles O54: at launch every count is 0. -/
theorem launchStatesHaveTheInvariants : Obligations.LaunchStatesHaveTheInvariants := by
  rintro s ⟨hboot, hown, _, hctx⟩ hmem
  refine .of_counts_zero hmem (fun _ => ⟨hboot, hown⟩) ?_ ?_ ?_ ?_
  all_goals
    intro c
    obtain ⟨hunstopped, hcount, hflags, hcmp⟩ := hctx c
    assumption

/-- Settles O56: a context other than the current one is untouched; in the current one the instruction only adds flags, none of
them DONE, and the check can only end its life. -/
theorem flagsStickAndAliveNeverReturns : Obligations.FlagsStickAndAliveNeverReturns := by
  intro s t c h
  obtain ⟨u, hu, he, _, hothers, count, stop, hcur⟩ := step_cases h
  by_cases hc : c = s.cur
  · rw [hc, hcur, ctx_cur]
    refine ⟨fun halive => ?_, he.flags_stick, instructionStep_doneBit hu⟩
    have hkept : u.own.alive = true ∧ stop = false := by simpa using halive
    rw [← he.alive, hkept.1]
  · rw [hothers c hc]
    exact ⟨id, BitVec.and_self, rfl⟩

/-- Settles O53: reset is a launch state with canonical memory. -/
theorem resetHasTheInvariants : Obligations.ResetHasTheInvariants :=
  ⟨launchStatesHaveTheInvariants State.reset reset_launch reset_mem_wf, reset_launch⟩

/-- Settles O55, context 0 and the other contexts apart. -/
theorem resetValues : Obligations.ResetValues := by
  refine ⟨fun c => ?_, fun p j off => ?_, fun off => ?_, rfl, rfl⟩
  · rw [reset_ctx]
    by_cases hc : c = 0
    · simp [hc, Context.boot, Context.zeroed, Config.bootEntry]
    · simp [hc, Context.zeroed]
  · rw [reset_read, Memory.unlisted, if_pos (poolAddr_lt_bootBase p j off)]
  · rw [reset_read, Memory.unlisted, if_neg (Nat.not_lt.mpr (bootBase_le_bootAddr off)), bootAddr, Nat.add_sub_cancel_left]

end Sys2Proof.Machine
end

section
/-! The memory statements: the routing tables and the aliases they give, `AddrAdd`, sized reads and writes, and MOV's store and
load (R41 to R49, R55, R144). -/

namespace Sys2Proof.Machine

/-! ### The rows of the routing tables (R42, R43), by the tag -/

section Rows
variable {c : CtxId} {privileged : Bool} {A : Word}

theorem routeRead_ownData (h : (addrTag A).toNat ≤ 0x0F) : routeRead c privileged A = some (.pool .data c) := by
  simp [routeRead, h]

theorem routeRead_ownCode (h : (addrTag A).toNat = 0x10) : routeRead c privileged A = some (.pool .code c) := by
  simp [routeRead, h]

theorem routeRead_ownRopd (h : (addrTag A).toNat = 0x11) : routeRead c privileged A = some (.pool .ropd c) := by
  simp [routeRead, h]

theorem not_ownTag {t : Nat} (h : 0x12 ≤ t) : ¬ t ≤ 0x0F ∧ t ≠ 0x10 ∧ t ≠ 0x11 := by omega

/-- An unprivileged read beyond the own pools' tags fails (R42, R44). -/
theorem routeRead_foreign (h : 0x12 ≤ (addrTag A).toNat) : routeRead c false A = none := by
  simp [routeRead, not_ownTag h]

theorem routeRead_specificData (h : 0xD0 ≤ (addrTag A).toNat ∧ (addrTag A).toNat ≤ 0xDF) :
    routeRead c true A = some (.pool .data (addrSub A)) := by
  simp [routeRead, h, not_ownTag (show 0x12 ≤ (addrTag A).toNat by omega)]

theorem routeRead_specificCode (h : (addrTag A).toNat = 0xE0) : routeRead c true A = some (.pool .code (addrSub A)) := by
  simp [routeRead, h]

theorem routeRead_specificRopd (h : (addrTag A).toNat = 0xE1) : routeRead c true A = some (.pool .ropd (addrSub A)) := by
  simp [routeRead, h]

theorem routeRead_boot (h : (addrTag A).toNat = 0xFF) : routeRead c true A = some .boot := by
  simp [routeRead, h]

theorem routeRead_unmapped
    (h : 0x12 ≤ (addrTag A).toNat ∧ (addrTag A).toNat ≤ 0xCF ∨ 0xE2 ≤ (addrTag A).toNat ∧ (addrTag A).toNat ≤ 0xFE) :
    routeRead c privileged A = none := by
  cases privileged
  · exact routeRead_foreign (by omega)
  · have hspecific : ¬ (0xD0 ≤ (addrTag A).toNat ∧ (addrTag A).toNat ≤ 0xDF) := by omega
    have hpast : (addrTag A).toNat ≠ 0xE0 ∧ (addrTag A).toNat ≠ 0xE1 ∧ (addrTag A).toNat ≠ 0xFF := by omega
    simp [routeRead, not_ownTag (show 0x12 ≤ (addrTag A).toNat by omega), hspecific, hpast]

theorem routeWrite_ownData (h : (addrTag A).toNat ≤ 0x0F) : routeWrite c privileged A = some (.pool .data c) := by
  simp [routeWrite, h]

theorem routeWrite_foreign (h : 0x10 ≤ (addrTag A).toNat) : routeWrite c false A = none := by
  simp [routeWrite, show ¬ (addrTag A).toNat ≤ 0x0F by omega]

theorem routeWrite_specificData (h : 0xD0 ≤ (addrTag A).toNat ∧ (addrTag A).toNat ≤ 0xDF) :
    routeWrite c true A = some (.pool .data (addrSub A)) := by
  simp [routeWrite, h, show ¬ (addrTag A).toNat ≤ 0x0F by omega]

/-- A write elsewhere fails; for tag 0xE0 it does at the switch's default (R43, D29). -/
theorem routeWrite_unmapped (h : 0x10 ≤ (addrTag A).toNat ∧ (addrTag A).toNat ≤ 0xCF ∨ 0xE0 ≤ (addrTag A).toNat) :
    routeWrite c privileged A = none := by
  simp only [routeWrite, Config.codeWritableSpecific]
  rw [if_neg (by omega), if_neg (show ¬ (0xD0 ≤ (addrTag A).toNat ∧ (addrTag A).toNat ≤ 0xDF) by omega)]
  simp

end Rows

/-- The current context's reads take the privileged routes exactly when its `space` is 0 (R44). -/
theorem readRoute_eq (s : State) (A : Word) : s.readRoute A = routeRead s.cur (decide (s.own.space = 0)) A := rfl

theorem writeRoute_eq (s : State) (A : Word) : s.writeRoute A = routeWrite s.cur (decide (s.own.space = 0)) A := rfl

/-- Settles O15, row by row. -/
theorem readRoutingTable : Obligations.ReadRoutingTable := by
  intro c privileged A
  refine ⟨routeRead_ownData, routeRead_ownCode, routeRead_ownRopd, fun h => ?_, fun h => ?_, fun h => ?_, fun h => ?_,
    routeRead_unmapped, fun _ _ => rfl, rfl, rfl, fun s => readRoute_eq s A⟩
  all_goals cases privileged
  case refine_1.false => exact routeRead_foreign (le_trans (by decide) h.1)
  case refine_1.true => exact routeRead_specificData h
  case refine_2.false => exact routeRead_foreign (h.symm ▸ by decide)
  case refine_2.true => exact routeRead_specificCode h
  case refine_3.false => exact routeRead_foreign (h.symm ▸ by decide)
  case refine_3.true => exact routeRead_specificRopd h
  case refine_4.false => exact routeRead_foreign (h.symm ▸ by decide)
  case refine_4.true => exact routeRead_boot h

/-- Settles O16, row by row. -/
theorem writeRoutingTable : Obligations.WriteRoutingTable := by
  intro c privileged A
  refine ⟨routeWrite_ownData, fun h => ?_, routeWrite_unmapped, rfl, fun s => writeRoute_eq s A⟩
  cases privileged
  · exact routeWrite_foreign (le_trans (by decide) h.1)
  · exact routeWrite_specificData h

/-- Settles O17: the bound tags and the own specific address name one place, and the place's byte is the offset's. -/
theorem boundDataAddressesAlias : Obligations.BoundDataAddressesAlias := by
  intro s A B hA hoff hB
  have hroutes : s.readRoute B = some (.pool .data s.cur) ∧ s.writeRoute B = some (.pool .data s.cur) := by
    rcases hB with hbound | ⟨hspace, hlow, hhigh, hsub⟩
    · exact ⟨routeRead_ownData hbound, routeWrite_ownData hbound⟩
    · have hown : addrSub B = s.cur := Fin.ext hsub
      rw [readRoute_eq, writeRoute_eq, decide_eq_true hspace, routeRead_specificData ⟨hlow, hhigh⟩,
        routeWrite_specificData ⟨hlow, hhigh⟩, hown]
      exact ⟨rfl, rfl⟩
  exact ⟨.pool .data s.cur, routeRead_ownData hA, hroutes.1, routeWrite_ownData hA, hroutes.2,
    congrArg (poolAddr .data s.cur) hoff⟩

/-! ### `AddrAdd` (R45) -/

/-- An offset moves by an integer modulo its width. -/
theorem toNat_add_ofInt {w : Nat} (u : BitVec w) (d : Int) : ((u + BitVec.ofInt w d).toNat : Int) = (u.toNat + d) % 2 ^ w := by
  have hpos : 0 ≤ d % ((2 ^ w : Nat) : Int) := Int.emod_nonneg _ (by positivity)
  rw [BitVec.toNat_add, BitVec.toNat_ofInt, Int.natCast_mod, Nat.cast_add, Int.toNat_of_nonneg hpos, Int.add_emod_emod,
    Nat.cast_pow, Nat.cast_ofNat]

/-- Settles O18, by the width of the offset field. -/
theorem addrAddWrapsInsideTheOffset : Obligations.AddrAddWrapsInsideTheOffset := by
  refine fun A d => ⟨fun h => ?_, fun h => ?_⟩
  · obtain ⟨hhigh, hlow⟩ := addrAdd_boot h d
    exact ⟨hhigh.trans h, by rw [hlow, toNat_add_ofInt]⟩
  · obtain ⟨hhigh, hlow⟩ := addrAdd_pool h d
    exact ⟨hhigh, by rw [hlow, toNat_add_ofInt]⟩

/-! ### Byte order (R46, R47) -/

theorem toNat_leWord_cons (b : Byte) {bs : List Byte} (h : (leWord bs).toNat < 2 ^ 24) :
    (leWord (b :: bs)).toNat = b.toNat + 256 * (leWord bs).toNat := by
  have hb : b.toNat < 2 ^ 8 := b.isLt
  rw [leWord, BitVec.toNat_or, BitVec.toNat_shiftLeft, BitVec.toNat_setWidth, Nat.mod_eq_of_lt (by omega), Nat.or_comm,
    Nat.mod_eq_of_lt (by rw [Nat.shiftLeft_eq]; omega), ← Nat.shiftLeft_add_eq_or_of_lt hb, Nat.shiftLeft_eq]
  omega

theorem ofDigits_bytes_lt (bs : List Byte) : Nat.ofDigits 256 (bs.map BitVec.toNat) < 256 ^ bs.length := by
  have hdigit : ∀ d ∈ bs.map BitVec.toNat, d < 256 := by
    simp only [List.mem_map]
    rintro _ ⟨b, _, rfl⟩
    exact b.isLt
  simpa using Nat.ofDigits_lt_base_pow_length (by decide) hdigit

/-- Up to four bytes in memory order are the digits of their word in base 256. -/
theorem toNat_leWord {bs : List Byte} (h : bs.length ≤ 4) : (leWord bs).toNat = Nat.ofDigits 256 (bs.map BitVec.toNat) := by
  induction bs with
  | nil => rfl
  | cons b bs ih =>
    have hlen : bs.length ≤ 3 := Nat.le_of_succ_le_succ h
    have hrest := ih (by omega)
    have hlt : (leWord bs).toNat < 2 ^ 24 :=
      calc (leWord bs).toNat < 256 ^ bs.length := hrest ▸ ofDigits_bytes_lt bs
        _ ≤ 256 ^ 3 := Nat.pow_le_pow_right (by decide) hlen
        _ = 2 ^ 24 := by decide
    rw [toNat_leWord_cons b hlt, List.map_cons, Nat.ofDigits_cons, hrest]

theorem toNat_leWord_lt {bs : List Byte} (h : bs.length ≤ 4) : (leWord bs).toNat < 256 ^ bs.length :=
  toNat_leWord h ▸ ofDigits_bytes_lt bs

/-- The word of up to four bytes loaded is their little-endian sum (R46). -/
theorem toNat_leWord_load (m : Memory) (p : Place) (A : Word) {n : Nat} (hn : n ≤ 4) :
    (leWord (m.load p A n)).toNat = ((List.range n).map fun i : Nat => (m.read (p.addr (addrAdd A i))).toNat * 256 ^ i).sum := by
  rw [toNat_leWord (by simpa using hn), Nat.ofDigits_eq_sum_mapIdx]
  congr 1
  apply List.ext_getElem <;> simp [Memory.load]

/-- Byte `i` of a word in memory order is its bits from `8 * i` on (R47). -/
theorem getElem_leBytes {n i : Nat} (v : Word) (hi : i < (leBytes n v).length) : (leBytes n v)[i] = v.extractLsb' (8 * i) 8 := by
  induction n generalizing v i with
  | zero => simp at hi
  | succ n ih =>
    cases i with
    | zero => simp [leBytes, BitVec.setWidth_eq_extractLsb']
    | succ i =>
      simp only [leBytes, List.getElem_cons_succ]
      rw [ih]
      ext j hj
      simp [show 8 + (8 * i + j) = 8 * (i + 1) + j by omega]

/-! ### Sized accesses (R46 to R49) -/

/-- The widths of an access are at most 4 bytes. -/
theorem width_le_four {n : Nat} (h : n ∈ [1, 2, 4]) : n ≤ 4 := by
  simp only [List.mem_cons, List.not_mem_nil, or_false] at h
  omega

/-- A write that routes leads to a data pool, and its tag is not the boot image's (R43). -/
theorem writeRoute_some {s : State} {A : Word} {p : Place} (h : s.writeRoute A = some p) :
    (∃ j, p = .pool .data j) ∧ (p = .boot ↔ addrTag A = 0xFF) := by
  obtain ⟨htag, j, rfl, _⟩ := routeWrite_some h
  exact ⟨⟨j, rfl⟩, nofun, fun h => absurd h htag⟩

/-- What the current context can write it can also read (R42, R43). -/
theorem readRoute_of_writeRoute {s : State} {A : Word} {p : Place} (h : s.writeRoute A = some p) : s.readRoute A = some p :=
  routeRead_of_routeWrite h

/-- A write moves no read's route (R42). -/
@[simp] theorem readRoute_memWrite (s : State) (A B : Word) (n : Nat) (v : Word) :
    (s.memWrite A n v).readRoute B = s.readRoute B :=
  readRoute_congr (memWrite_effect s A n v).cur (memWrite_effect s A n v).space B

/-- A write that routes changes no register (R47). -/
theorem memWrite_own {s : State} {A : Word} {p : Place} (h : s.writeRoute A = some p) (n : Nat) (v : Word) :
    (s.memWrite A n v).own = s.own := by
  rw [memWrite_some h]
  rfl

/-- What is written is loaded back from the place (R46, R47). -/
theorem load_memWrite {s : State} {A : Word} {p : Place} (h : s.writeRoute A = some p) {n : Nat} (hn : n < 65536) (v : Word) :
    (s.memWrite A n v).mem.load p A n = leBytes n v := by
  have hload := Memory.load_store (m := s.mem) (writeRoute_some h).2 (leBytes n v) (by simpa using hn)
  rw [memWrite_some h]
  rwa [leBytes_length] at hload

/-- Settles O19: the value is the little-endian sum of the bytes loaded. -/
theorem readIsLittleEndian : Obligations.ReadIsLittleEndian := by
  intro s A n p hn hp
  rw [memRead_some hp]
  exact ⟨rfl, fun d => (readRoute_addrAdd s A d).trans hp, toNat_leWord_load s.mem p A (width_le_four hn)⟩

/-- Settles O20: the bytes of one store are distinct, so each is read back, and no other changes. -/
theorem writeStoresLittleEndian : Obligations.WriteStoresLittleEndian := by
  intro s A n v p hn hp
  have hle := width_le_four hn
  obtain ⟨hdata, hboot⟩ := writeRoute_some hp
  refine ⟨hdata, Memory.store p A 0 (leBytes n v) s.mem, memWrite_some hp n v, fun i hi => ?_, fun a ha => ?_⟩
  · have hi' : i < (leBytes n v).length := by simpa using hi
    have hat := Memory.read_store_at (m := s.mem) hboot 0 (leBytes n v) (by rw [leBytes_length]; omega) i hi'
    rwa [Nat.zero_add, getElem_leBytes] at hat
  · refine Memory.read_store_other 0 _ fun i hi => ?_
    rw [Nat.zero_add]
    exact ha i (by simpa using hi)

/-- Settles O21: a failed access raises its flag; a read draws its bytes. -/
theorem failedAccessesRaiseTheirFlag : Obligations.FailedAccessesRaiseTheirFlag := by
  intro s A n v hn
  refine ⟨fun h => ?_, fun h => ?_⟩
  · rw [memRead_none h]
    have hlt := toNat_leWord_lt (bs := s.unspecBytes n) (by simpa using width_le_four hn)
    rw [unspecBytes_length] at hlt
    exact ⟨hlt, by simp [Flag.mask], by simp,
      ((drawn_effect s n).trans (raise_effect _ _)).frame (by simp) (by simp), fun _ => rfl⟩
  · rw [memWrite_none h]
    exact ⟨by simp [Flag.mask], (raise_effect s _).frame (by simp) (by simp), fun _ => rfl, rfl, rfl, rfl⟩

/-! ### MOV's store and load (R144) -/

/-- MOV of a legal pair of kinds: the source is read, then the destination written (R143). -/
theorem exec_mov {dst src : Operand} (h : movLegal dst.kind src.kind = true) (s : State) (sc : SizeClass) :
    exec (.mov sc dst src) s = .next (((s.advance (dualLength sc dst src)).readOperand sc src).2.writeDest sc
      ((s.advance (dualLength sc dst src)).readOperand sc src).1 dst) :=
  if_pos h

/-- MOV from a register to an absolute address is one write of the masked register (R143). -/
theorem exec_mov_store (s : State) (sc : SizeClass) (A : Word) (r : Reg) :
    exec (.mov sc (.mem A) (.reg r)) s =
      .next ((s.advance (dualLength sc (.mem A) (.reg r))).memWrite A sc.bytes (s.x r &&& sc.mask)) := by
  rw [exec_mov rfl, readOperand_advance_value]
  rfl

/-- Settles O30: the store leaves its bytes where the load reads them, and neither move raises a flag. -/
theorem movStoreThenLoad : Obligations.MovStoreThenLoad := by
  intro s t sc A rs rd hw ht
  obtain ⟨p, hp⟩ := Option.isSome_iff_exists.mp hw
  have hp' : (s.advance (dualLength sc (.mem A) (.reg rs))).writeRoute A = some p := by rwa [writeRoute_advance]
  have hbytes : sc.bytes < 65536 := by cases sc <;> decide
  rw [exec_mov_store] at ht
  cases ht
  refine ⟨_, exec_mov rfl _ sc, ?_⟩
  rw [readOperand_mem rfl (p := p) (by simpa using readRoute_of_writeRoute hp)]
  simp only [State.writeDest, advance_mem, load_memWrite hp' hbytes]
  refine ⟨?_, ?_⟩
  · rw [setX_x_same, leWord_leBytes, BitVec.and_assoc, BitVec.and_self]
  · rw [setX_own, advance_own, memWrite_own hp', advance_own]

end Sys2Proof.Machine
end

section
/-! Noninterference: what an unprivileged context does depends only on its own registers and pools and on the values drawn from
outside (R42 to R44, R219, R283).

Two states the context cannot tell apart are related by `State.SameView`. Each shared operation keeps the relation and yields
equal values, so each meaning does, instruction by instruction. -/

namespace Sys2Proof.Machine

/-- The current context is unprivileged and cannot tell `s` and `s'` apart: its registers, its pools and the free streams agree,
and so do the peripheral calls made since the two lists of calls `past` and `past'`. -/
structure State.SameView (past past' : List PeriphCall) (s s' : State) : Prop where
  unprivileged : s.own.privileged = false
  cur : s'.cur = s.cur
  own : s'.own = s.own
  draws : s'.draws = s.draws
  periphReads : s'.periphReads = s.periphReads
  calls : ∃ calls, s.periphCalls = past ++ calls ∧ s'.periphCalls = past' ++ calls
  pools : ∀ (p : Pool) (off : BitVec 16), s'.mem.read (poolAddr p s.cur off) = s.mem.read (poolAddr p s.cur off)

/-- A byte on which two memories agree is agreed on after the same store in both. -/
theorem Memory.read_store_congr {m m' : Memory} {a : Nat} (h : m'.read a = m.read a) (p : Place) (A : Word) (i : Nat)
    (bs : List Byte) : (Memory.store p A i bs m').read a = (Memory.store p A i bs m).read a := by
  induction bs generalizing m m' i with
  | nil => exact h
  | cons b bs ih => exact ih (by rw [Memory.read_write, Memory.read_write, h]) (i + 1)

/-- The places an unprivileged context can read are its own pools (R42, R44). -/
theorem readRoute_unprivileged {s : State} (h : s.own.privileged = false) {A : Word} {q : Place}
    (hq : s.readRoute A = some q) : ∃ p, q = .pool p s.cur := by
  rw [State.readRoute, h] at hq
  exact routeRead_unprivileged hq

namespace State.SameView

variable {past past' : List PeriphCall} {s s' t t' : State}

/-! ### Registers, flags and events -/

theorem x (h : SameView past past' s s') (r : Reg) : s'.x r = s.x r := by rw [State.x, h.own, own_x]

theorem f (h : SameView past past' s s') (r : FReg) : s'.f r = s.f r := by rw [State.f, h.own, own_f]

theorem setOwn (h : SameView past past' s s') (k : Context) (hk : k.space = s.own.space) :
    SameView past past' (s.setOwn k) (s'.setOwn k) where
  unprivileged := by rw [own_setOwn, Context.privileged, hk]; exact h.unprivileged
  cur := h.cur
  own := by rw [own_setOwn, own_setOwn]
  draws := h.draws
  periphReads := h.periphReads
  calls := h.calls
  pools := h.pools

theorem setX (h : SameView past past' s s') (r : Reg) (v : Word) : SameView past past' (s.setX r v) (s'.setX r v) := by
  rw [State.setX, State.setX, h.own]
  exact h.setOwn _ rfl

theorem setF (h : SameView past past' s s') (r : FReg) (v : Word) : SameView past past' (s.setF r v) (s'.setF r v) := by
  rw [State.setF, State.setF, h.own]
  exact h.setOwn _ rfl

theorem setPc (h : SameView past past' s s') (v : Word) : SameView past past' (s.setPc v) (s'.setPc v) := by
  rw [State.setPc, State.setPc, h.own]
  exact h.setOwn _ rfl

theorem setCp (h : SameView past past' s s') (v : Word) : SameView past past' (s.setCp v) (s'.setCp v) := by
  rw [State.setCp, State.setCp, h.own]
  exact h.setOwn _ rfl

theorem setCmp (h : SameView past past' s s') (v : Byte) : SameView past past' (s.setCmp v) (s'.setCmp v) := by
  rw [State.setCmp, State.setCmp, h.own]
  exact h.setOwn _ rfl

theorem raise (h : SameView past past' s s') (F : Flag) : SameView past past' (s.raise F) (s'.raise F) := by
  rw [State.raise, State.raise, h.own]
  exact h.setOwn _ rfl

theorem advance (h : SameView past past' s s') (n : Nat) : SameView past past' (s.advance n) (s'.advance n) := by
  rw [State.advance, State.advance, h.own]
  exact h.setPc _

theorem illegalAfter (h : SameView past past' s s') (n : Nat) :
    SameView past past' (s.illegalAfter n) (s'.illegalAfter n) := (h.advance n).raise _

theorem drawn (h : SameView past past' s s') (n : Nat) : SameView past past' (s.drawn n) (s'.drawn n) :=
  { h with draws := by rw [drawn_draws, drawn_draws, h.draws] }

theorem periphTaken (h : SameView past past' s s') (n : Nat) : SameView past past' (s.periphTaken n) (s'.periphTaken n) :=
  { h with periphReads := by rw [periphTaken_periphReads, periphTaken_periphReads, h.periphReads] }

theorem periphArgs (h : SameView past past' s s') : s'.periphArgs = s.periphArgs := by
  simp only [State.periphArgs, h.x]

theorem periphCall (h : SameView past past' s s') (fn : PeriphFn) : SameView past past' (s.periphCall fn) (s'.periphCall fn) where
  __ := h
  calls := by
    obtain ⟨calls, hs, hs'⟩ := h.calls
    refine ⟨calls ++ [⟨fn, s.periphArgs⟩], ?_, ?_⟩
    · rw [periphCall_periphCalls, hs, List.append_assoc]
    · rw [periphCall_periphCalls, hs', h.periphArgs, List.append_assoc]

theorem unspecBytes (h : SameView past past' s s') (n : Nat) : s'.unspecBytes n = s.unspecBytes n := by
  rw [State.unspecBytes, State.unspecBytes, h.draws]

theorem unspecWord (h : SameView past past' s s') : s'.unspecWord = s.unspecWord := congrArg leWord (h.unspecBytes 4)

theorem periphAnswer (h : SameView past past' s s') (i : Nat) : s'.periphAnswer i = s.periphAnswer i := by
  rw [State.periphAnswer, State.periphAnswer, h.periphReads]

/-! ### Sized accesses -/

theorem readRoute (h : SameView past past' s s') (A : Word) : s'.readRoute A = s.readRoute A :=
  readRoute_congr h.cur (congrArg Context.space h.own) A

theorem writeRoute (h : SameView past past' s s') (A : Word) : s'.writeRoute A = s.writeRoute A :=
  writeRoute_congr h.cur (congrArg Context.space h.own) A

/-- A read that routes leads to an own pool, on which the memories agree (R42, R44). -/
theorem load (h : SameView past past' s s') {A : Word} {p : Place} (hp : s.readRoute A = some p) (n : Nat) :
    s'.mem.load p A n = s.mem.load p A n := by
  obtain ⟨P, rfl⟩ := readRoute_unprivileged h.unprivileged hp
  exact List.map_congr_left fun i _ => h.pools P _

theorem readBytes (h : SameView past past' s s') (A : Word) (n : Nat) : s'.readBytes A n = s.readBytes A n := by
  simp only [State.readBytes, h.readRoute]
  split
  next p hp => exact h.load hp n
  next => exact h.unspecBytes n

theorem afterRead (h : SameView past past' s s') (A : Word) (n : Nat) :
    SameView past past' (s.afterRead A n) (s'.afterRead A n) := by
  simp only [State.afterRead, h.readRoute]
  split
  · exact h
  · exact (h.drawn n).raise _

theorem memRead_value (h : SameView past past' s s') (A : Word) (n : Nat) : (s'.memRead A n).1 = (s.memRead A n).1 :=
  congrArg leWord (h.readBytes A n)

theorem memRead (h : SameView past past' s s') (A : Word) (n : Nat) :
    SameView past past' (s.memRead A n).2 (s'.memRead A n).2 := h.afterRead A n

theorem memWrite (h : SameView past past' s s') (A : Word) (n : Nat) (v : Word) :
    SameView past past' (s.memWrite A n v) (s'.memWrite A n v) := by
  simp only [State.memWrite, h.writeRoute]
  split
  · exact { h with pools := fun p off => Memory.read_store_congr (h.pools p off) _ A 0 _ }
  · exact h.raise _

/-! ### Operands and stacks -/

theorem readOperand_value (h : SameView past past' s s') (sc : SizeClass) (op : Operand) :
    (s'.readOperand sc op).1 = (s.readOperand sc op).1 := by
  cases op with
  | reg r => simp only [State.readOperand, h.x]
  | imm v => rfl
  | ind r => simp only [State.readOperand, h.x, h.memRead_value]
  | mem A => exact h.memRead_value A _

theorem readOperand (h : SameView past past' s s') (sc : SizeClass) (op : Operand) :
    SameView past past' (s.readOperand sc op).2 (s'.readOperand sc op).2 := by
  cases op with
  | reg r => exact h
  | imm v => exact h
  | ind r =>
    simp only [State.readOperand, h.x]
    exact h.memRead _ _
  | mem A => exact h.memRead A _

theorem aluSource (h : SameView past past' s s') (b : AluSrc) : s'.aluSource b = s.aluSource b := by
  cases b with
  | reg r => exact h.x r
  | imm v => rfl

theorem writeDest (h : SameView past past' s s') (sc : SizeClass) (v : Word) (op : Operand) :
    SameView past past' (s.writeDest sc v op) (s'.writeDest sc v op) := by
  cases op with
  | reg r => exact h.setX r v
  | imm w => exact h
  | ind r =>
    simp only [State.writeDest, h.x]
    exact h.memWrite _ _ v
  | mem A => exact h.memWrite A _ v

theorem pushCp (h : SameView past past' s s') (n : Nat) (v : Word) :
    SameView past past' (s.push .cp n v) (s'.push .cp n v) := by
  simp only [State.push, State.pointer, h.own]
  exact (h.memWrite _ n v).setCp _

theorem popCp_value (h : SameView past past' s s') (n : Nat) : (s'.pop .cp n).1 = (s.pop .cp n).1 := by
  simp only [State.pop, State.pointer, h.own]
  exact (h.setCp _).memRead_value _ n

theorem popCp (h : SameView past past' s s') (n : Nat) : SameView past past' (s.pop .cp n).2 (s'.pop .cp n).2 := by
  simp only [State.pop, State.pointer, h.own]
  exact (h.setCp _).memRead _ n

/-! ### Frames of the meanings -/

theorem aluFrame (h : SameView past past' s s') (op : Word → Word → Word) (n : Nat) (sc : SizeClass) (a : Reg) (b : AluSrc) :
    SameView past past' (aluFrame op n sc a b s) (aluFrame op n sc a b s') := by
  simp only [Machine.aluFrame, h.x, h.aluSource]
  exact (h.advance n).setX _ _

theorem fpuFrame (h : SameView past past' s s') (op : Word → Word → FpResult) (n : Nat) (d r : FReg) :
    SameView past past' (fpuFrame op n d r s) (fpuFrame op n d r s') := by
  simp only [Machine.fpuFrame, h.f, h.unspecWord]
  exact ((h.advance n).setF _ _).drawn _

theorem jumpOn (h : SameView past past' s s') (mode : CondMode) (mask : Nibble) (target : Word) :
    SameView past past' (jumpOn mode mask target s) (jumpOn mode mask target s') := by
  simp only [Machine.jumpOn, h.own]
  split
  · exact h.raise _
  · split
    · exact h.setPc _
    · exact h

theorem peripheral (h : SameView past past' s s') (r : PeriphRequest) :
    SameView past past' (s.peripheral r) (s'.peripheral r) := by
  cases r with
  | emit fn => exact h.periphCall fn
  | lastKey =>
    simp only [State.peripheral, h.periphAnswer]
    exact (h.setX _ _).periphTaken _
  | pressedKeys =>
    simp only [State.peripheral, h.periphAnswer]
    exact ((h.setX _ _).setX _ _).periphTaken _
  | nothing => exact h

/-! ### Instructions -/

/-- Both outcomes are next states, and the context cannot tell them apart. -/
def Outcomes (past past' : List PeriphCall) (o o' : Out) : Prop :=
  ∃ t t', o = .next t ∧ o' = .next t' ∧ SameView past past' t t'

theorem outcomes_next (h : SameView past past' s s') : Outcomes past past' (.next s) (.next s') := ⟨s, s', rfl, rfl, h⟩

theorem execDiv (h : SameView past past' s s') (sc : SizeClass) (a : Reg) (b : AluSrc) :
    Outcomes past past' (execDiv sc a b s) (execDiv sc a b s') := by
  simp only [Machine.execDiv, h.aluSource]
  split
  · exact (h.illegalAfter _).outcomes_next
  · exact (h.aluFrame _ _ _ _ _).outcomes_next

theorem execMov (h : SameView past past' s s') (sc : SizeClass) (dst src : Operand) :
    Outcomes past past' (execMov sc dst src s) (execMov sc dst src s') := by
  simp only [Machine.execMov, (h.advance _).readOperand_value]
  split
  · exact (((h.advance _).readOperand sc src).writeDest _ _ _).outcomes_next
  · exact (h.illegalAfter _).outcomes_next

theorem execCmp (h : SameView past past' s s') (sc : SizeClass) (signed keep : Bool) (dst src : Operand) :
    Outcomes past past' (execCmp sc signed keep dst src s) (execCmp sc signed keep dst src s') := by
  have hsrc := (h.advance (Instr.length (.cmp sc signed keep dst src))).readOperand sc src
  have hdst := hsrc.readOperand sc dst
  simp only [Machine.execCmp, (h.advance _).readOperand_value, hsrc.readOperand_value, hdst.own]
  split
  · exact (hdst.setCmp _).outcomes_next
  · exact (h.illegalAfter _).outcomes_next

theorem execItof (h : SameView past past' s s') (d : FReg) (r : Reg) :
    Outcomes past past' (execItof d r s) (execItof d r s') := by
  simp only [Machine.execItof, h.x]
  exact ((h.advance _).setF _ _).outcomes_next

theorem execFtoi (h : SameView past past' s s') (d : Reg) (r : FReg) :
    Outcomes past past' (execFtoi d r s) (execFtoi d r s') := by
  simp only [Machine.execFtoi, h.f, h.unspecWord]
  exact (((h.advance _).setX _ _).drawn _).outcomes_next

theorem execJmp (h : SameView past past' s s') (sc : SizeClass) (absolute negate : Bool) (mode : CondMode) (mask : Nibble)
    (op : Operand) :
    Outcomes past past' (execJmp sc absolute negate mode mask op s) (execJmp sc absolute negate mode mask op s') := by
  simp only [Machine.execJmp, (h.advance _).readOperand_value, jumpBase, h.own]
  exact (((h.advance _).readOperand sc op).jumpOn _ _ _).outcomes_next

theorem execCall (h : SameView past past' s s') (sc : SizeClass) (op : Operand) :
    Outcomes past past' (execCall sc op s) (execCall sc op s') := by
  have hop := (h.advance (Instr.length (.call sc op))).readOperand sc op
  simp only [Machine.execCall, (h.advance _).readOperand_value, hop.own]
  exact ((hop.pushCp 4 _).setPc _).outcomes_next

theorem execRet (h : SameView past past' s s') : Outcomes past past' (execRet s) (execRet s') := by
  simp only [Machine.execRet, (h.advance _).popCp_value]
  exact (((h.advance _).popCp 4).setPc _).outcomes_next

/-- Every instruction keeps the view: it does the same in both states (R283). -/
theorem exec (h : SameView past past' s s') (i : Instr) : Outcomes past past' (exec i s) (exec i s') := by
  cases i with
  | halt => exact ((h.advance _).raise _).outcomes_next
  | add sc a b => exact (h.aluFrame _ _ _ _ _).outcomes_next
  | sub sc a b => exact (h.aluFrame _ _ _ _ _).outcomes_next
  | mul sc a b => exact (h.aluFrame _ _ _ _ _).outcomes_next
  | div sc a b => exact h.execDiv sc a b
  | and sc a b => exact (h.aluFrame _ _ _ _ _).outcomes_next
  | or sc a b => exact (h.aluFrame _ _ _ _ _).outcomes_next
  | xor sc a b => exact (h.aluFrame _ _ _ _ _).outcomes_next
  | mov sc dst src => exact h.execMov sc dst src
  | itof d r => exact h.execItof d r
  | ftoi d r => exact h.execFtoi d r
  | fadd d r => exact (h.fpuFrame _ _ _ _).outcomes_next
  | fsub d r => exact (h.fpuFrame _ _ _ _).outcomes_next
  | fmul d r => exact (h.fpuFrame _ _ _ _).outcomes_next
  | fdiv d r => exact (h.fpuFrame _ _ _ _).outcomes_next
  | jmp sc absolute negate mode mask op => exact h.execJmp sc absolute negate mode mask op
  | cmp sc signed keep dst src => exact h.execCmp sc signed keep dst src
  | int code => exact ((h.advance _).peripheral _).outcomes_next
  | call sc op => exact h.execCall sc op
  | ret => exact h.execRet

/-! ### One instruction of the machine -/

theorem fetchWindow (h : SameView past past' s s') : s'.fetchWindow = s.fetchWindow := by
  rw [State.fetchWindow, State.fetchWindow, h.own]
  exact h.readBytes _ _

theorem afterFetch (h : SameView past past' s s') : SameView past past' s.afterFetch s'.afterFetch := by
  rw [State.afterFetch, State.afterFetch, h.own]
  exact h.afterRead _ _

/-- Both states fetch the same bytes, so they run the same instruction or reject the same encoding. -/
theorem instructionStep (h : SameView past past' s s') (ht : instructionStep s = .next t)
    (ht' : instructionStep s' = .next t') : SameView past past' t t' := by
  cases hd : decode s.fetchWindow with
  | ok r =>
    obtain ⟨i, rest⟩ := r
    obtain ⟨u, u', hu, hu', hview⟩ := h.afterFetch.exec i
    rw [instructionStep_ok hd, hu] at ht
    rw [instructionStep_ok (by rw [h.fetchWindow, hd]), hu'] at ht'
    cases ht
    cases ht'
    exact hview
  | error e =>
    have he : e ≠ .truncated := by
      rintro rfl
      simp only [Machine.instructionStep, hd, reduceCtorEq] at ht
    rw [instructionStep_reject hd he] at ht
    rw [instructionStep_reject (by rw [h.fetchWindow, hd]) he] at ht'
    cases ht
    cases ht'
    exact h.afterFetch.illegalAfter _

end State.SameView

/-- Settles O59: the two states look the same to the context before the instruction, so they do after it. -/
theorem unprivilegedInstructionSeesOnlyItsOwnPools : Obligations.UnprivilegedInstructionSeesOnlyItsOwnPools := by
  intro s s' t t' hspace hcur hown hdraws hreads hpools ht ht'
  have before : State.SameView s.periphCalls s'.periphCalls s s' := {
    unprivileged := by simpa [Context.privileged] using hspace
    cur := hcur
    own := hown
    draws := hdraws
    periphReads := hreads
    calls := ⟨[], by simp, by simp⟩
    pools := hpools }
  have after := before.instructionStep ht ht'
  have hpools' := after.pools
  rw [(instructionStep_effect ht).cur] at hpools'
  exact ⟨after.cur, after.own, after.draws, after.periphReads, after.calls, hpools'⟩

end Sys2Proof.Machine
end

section
/-! The encoding statements: the round trip of encoder and decoder, what the decoder answers, and the step on encoded bytes and on
reserved encodings (R70 to R82).

Each format's decoder is described once (`decodeAlu_cons`, `decodeMov_ok_iff`, `decodeJmp_ok_iff`, ...): read from right to left
the description gives the round trip, from left to right the consumption of exactly the instruction's length. -/

namespace Sys2Proof

/-! ### Sequencing of fetches -/

section Sequencing
variable {ε α β : Type}

@[simp] theorem ok_bind (a : α) (f : α → Except ε β) : (Except.ok a >>= f) = f a := rfl

@[simp] theorem error_bind (e : ε) (f : α → Except ε β) : (Except.error e >>= f) = .error e := rfl

theorem bind_ok_iff {x : Except ε α} {f : α → Except ε β} {b : β} :
    (x >>= f) = .ok b ↔ ∃ a, x = .ok a ∧ f a = .ok b := by
  cases x <;> simp

theorem map_ok_iff {x : Except ε α} {f : α → β} {b : β} : x.map f = .ok b ↔ ∃ a, x = .ok a ∧ f a = b := by
  cases x <;> simp [Except.map]

end Sequencing

/-- `rest` is what is left of `bs` after its first `n` bytes. -/
def Consumes (n : Nat) (bs rest : List Byte) : Prop := n ≤ bs.length ∧ rest = bs.drop n

theorem Consumes.refl (bs : List Byte) : Consumes 0 bs bs := ⟨Nat.zero_le _, rfl⟩

theorem Consumes.cons {n : Nat} {bs rest : List Byte} (h : Consumes n bs rest) (b : Byte) : Consumes (n + 1) (b :: bs) rest :=
  ⟨Nat.succ_le_succ h.1, h.2⟩

theorem Consumes.trans {m n : Nat} {bs mid rest : List Byte} (h : Consumes m bs mid) (g : Consumes n mid rest) :
    Consumes (m + n) bs rest := by
  obtain ⟨hle, rfl⟩ := h
  obtain ⟨gle, rfl⟩ := g
  rw [List.length_drop] at gle
  exact ⟨by omega, List.drop_drop⟩

/-- What a format's decoder answers for the bytes after the instruction word: a well-formed instruction, with exactly its bytes
beyond the word taken (R70, R79). -/
structure ReadsAfterWord (i : Instr) (bs rest : List Byte) : Prop where
  wellFormed : i.wellFormed = true
  consumes : ∃ n, i.length = n + 2 ∧ Consumes n bs rest

/-! ### Nibbles, size classes and kinds -/

@[simp] theorem lowNibble_ofNibbles (hi lo : Nibble) : lowNibble (ofNibbles hi lo) = lo :=
  (extract_append_low hi lo 0 4 (by omega)).trans (extract_whole lo)

@[simp] theorem highNibble_ofNibbles (hi lo : Nibble) : highNibble (ofNibbles hi lo) = hi :=
  (extract_append_high hi lo 0 4).trans (extract_whole hi)

@[simp] theorem regOfNibble_nibbleOfReg (r : Reg) : regOfNibble (nibbleOfReg r) = r := by decide +revert

/-- A nibble names a floating-point register exactly if it is the register's own (R19). -/
theorem fregOfNibble_eq_some_iff {n : Nibble} {r : FReg} : fregOfNibble n = some r ↔ n = nibbleOfFReg r := by decide +revert

@[simp] theorem fregOfNibble_nibbleOfFReg (r : FReg) : fregOfNibble (nibbleOfFReg r) = some r := fregOfNibble_eq_some_iff.mpr rfl

/-- Each kind has one nibble (R75). -/
theorem kindOfNibble_eq_some_iff {n : Nibble} {k : Kind} : kindOfNibble n = some k ↔ n = k.nibble := by
  cases k <;> decide +revert

@[simp] theorem kindOfNibble_nibble (k : Kind) : kindOfNibble k.nibble = some k := kindOfNibble_eq_some_iff.mpr rfl

theorem kindOfNibble_reserved {n : Nibble} (h : 4 ≤ n.toNat) : kindOfNibble n = none := by decide +revert

/-- Each size class has one nibble; the opflag's upper bits are ignored (R71, R72). -/
theorem decodeSize_ok_iff {opflag : Byte} {sc : SizeClass} : decodeSize opflag = .ok sc ↔ lowNibble opflag = sc.nibble := by
  rw [decodeSize]
  generalize lowNibble opflag = n
  cases sc <;> decide +revert

theorem decodeSize_reserved {opflag : Byte} (h : 3 ≤ (lowNibble opflag).toNat) :
    decodeSize opflag = .error .reservedSizeClass := by
  rw [decodeSize]
  generalize lowNibble opflag = n at h
  decide +revert

theorem decodeSize_defined {opflag : Byte} (h : (lowNibble opflag).toNat < 3) : ∃ sc, decodeSize opflag = .ok sc := by
  simp only [decodeSize_ok_iff]
  generalize lowNibble opflag = n at h
  have hn : n = 0 ∨ n = 1 ∨ n = 2 := by decide +revert
  rcases hn with rfl | rfl | rfl
  · exact ⟨.b, rfl⟩
  · exact ⟨.h, rfl⟩
  · exact ⟨.w, rfl⟩

@[simp] theorem decodeSize_opflagByte (sc : SizeClass) (bit4 bit5 : Bool) : decodeSize (opflagByte sc bit4 bit5) = .ok sc :=
  decodeSize_ok_iff.mpr (lowNibble_ofNibbles _ _)

@[simp] theorem opflagByte_bit4 (sc : SizeClass) (bit4 bit5 : Bool) : (opflagByte sc bit4 bit5)[4] = bit4 := by
  cases sc <;> cases bit4 <;> cases bit5 <;> rfl

@[simp] theorem opflagByte_bit5 (sc : SizeClass) (bit4 bit5 : Bool) : (opflagByte sc bit4 bit5)[5] = bit5 := by
  cases sc <;> cases bit4 <;> cases bit5 <;> rfl

/-- The decoder's modes are the valid ones: 0 and 1 are never reserved (R180, R181). -/
theorem condModeOf_valid (n : Nibble) : (condModeOf n).valid = true := by decide +revert

theorem condModeOf_nibble {mode : CondMode} (h : mode.valid = true) : condModeOf mode.nibble = mode := by
  cases mode with
  | ifAny => rfl
  | ifNone => rfl
  | reserved n => decide +revert

/-! ### Fetched bytes and words -/

theorem takeByte_ok_iff {bs rest : List Byte} {b : Byte} : takeByte bs = .ok (b, rest) ↔ bs = b :: rest := by
  cases bs <;> simp [takeByte]

@[simp] theorem takeByte_cons (b : Byte) (bs : List Byte) : takeByte (b :: bs) = .ok (b, bs) := rfl

theorem takeByte_consumes {bs rest : List Byte} {b : Byte} (h : takeByte bs = .ok (b, rest)) : Consumes 1 bs rest := by
  cases takeByte_ok_iff.mp h
  exact (Consumes.refl rest).cons b

theorem takeWord_ok_iff {n : Nat} {bs rest : List Byte} {w : Word} :
    takeWord n bs = .ok (w, rest) ↔ w = leWord (bs.take n) ∧ Consumes n bs rest := by
  rw [takeWord, Consumes]
  split
  case isTrue hshort => simp [Nat.not_le.mpr hshort]
  case isFalse hlong => simp [Nat.not_lt.mp hlong, eq_comm]

/-- Fitting a size class is being less than the first number its bytes cannot hold (R78). -/
theorem SizeClass.fits_iff_lt {sc : SizeClass} {v : Word} : sc.fits v = true ↔ v.toNat < 256 ^ sc.bytes := by
  rw [SizeClass.fits, beq_iff_eq, ← BitVec.toNat_inj, Machine.toNat_and_mask, pow_mul, Nat.mod_eq_iff_lt (by positivity)]
  rfl

@[simp] theorem takeWord_leBytes_four (v : Word) (rest : List Byte) : takeWord 4 (leBytes 4 v ++ rest) = .ok (v, rest) :=
  takeWord_ok_iff.mpr (by simp [Consumes])

/-- An immediate that fits is read back from its bytes (R78). -/
theorem takeWord_leBytes {sc : SizeClass} {v : Word} (h : sc.fits v = true) (rest : List Byte) :
    takeWord sc.bytes (leBytes sc.bytes v ++ rest) = .ok (v, rest) := by
  have hmask : v &&& sc.mask = v := beq_iff_eq.mp h
  exact takeWord_ok_iff.mpr (by simp [Consumes, hmask])

/-- What is fetched for an immediate fits its size class (R78). -/
theorem takeWord_fits {sc : SizeClass} {bs rest : List Byte} {v : Word} (h : takeWord sc.bytes bs = .ok (v, rest)) :
    sc.fits v = true := by
  obtain ⟨rfl, hle, -⟩ := takeWord_ok_iff.mp h
  have hlen : (bs.take sc.bytes).length = sc.bytes := List.length_take_of_le hle
  have hlt := Machine.toNat_leWord_lt (hlen.trans_le (Laws.bytes_bounds sc).2)
  rwa [hlen, ← SizeClass.fits_iff_lt] at hlt

theorem takeWord_consumes {n : Nat} {bs rest : List Byte} {w : Word} (h : takeWord n bs = .ok (w, rest)) : Consumes n bs rest :=
  (takeWord_ok_iff.mp h).2

/-! ### The ALU format (R74, R120) -/

/-- The instruction of an ALU operation number (R120). -/
def aluInstr (op : Nat) (sc : SizeClass) (a : Reg) (b : AluSrc) : Instr :=
  match op with
  | 0 => .add sc a b
  | 1 => .sub sc a b
  | 2 => .mul sc a b
  | 3 => .div sc a b
  | 4 => .and sc a b
  | 5 => .or sc a b
  | _ => .xor sc a b

theorem aluInstr_wellFormed (op : Nat) (sc : SizeClass) (a : Reg) (b : AluSrc) : (aluInstr op sc a b).wellFormed = b.fits sc := by
  unfold aluInstr
  split <;> rfl

theorem aluInstr_length (op : Nat) (sc : SizeClass) (a : Reg) (b : AluSrc) : (aluInstr op sc a b).length = 4 + b.length sc := by
  unfold aluInstr
  split <;> rfl

/-- The right operand of the ALU format: the register that the high nibble `r` of `io` names, or immediate bytes if `I = 1`
(R74, R120). -/
def decodeAluSrc (sc : SizeClass) (immediate : Bool) (r : Nibble) (bs : List Byte) : Except DecodeReject (AluSrc × List Byte) :=
  if immediate then (takeWord sc.bytes bs).map fun p => (.imm p.1, p.2) else .ok (.reg (regOfNibble r), bs)

section Alu
variable {opflag op : Byte} {sc : SizeClass}

/-- A defined ALU operation decodes to its instruction, once its right operand is fetched (R74, R120). -/
theorem decodeAlu_cons (hsc : decodeSize opflag = .ok sc) (hop : op.toNat ≤ 6) (io : Byte) (bs : List Byte) :
    decodeAlu opflag (op :: io :: bs) = (decodeAluSrc sc (opflag.getLsbD 4) (highNibble io) bs).map fun p =>
      (aluInstr op.toNat sc (regOfNibble (lowNibble io)) p.1, p.2) := by
  simp only [decodeAlu, hsc, ok_bind, takeByte_cons, if_neg (Nat.not_lt.mpr hop), decodeAluSrc, aluInstr]
  generalize op.toNat = n
  cases opflag.getLsbD 4 with
  | false => match n with | 0 | 1 | 2 | 3 | 4 | 5 | _ + 6 => rfl
  | true =>
    rw [if_pos rfl]
    cases takeWord sc.bytes bs with
    | error e => rfl
    | ok p => match n with | 0 | 1 | 2 | 3 | 4 | 5 | _ + 6 => rfl

/-- What the ALU format decodes has a defined size class and operation, and its two fixed bytes (R73, R128). -/
theorem decodeAlu_ok {bs : List Byte} {p : Instr × List Byte} (h : decodeAlu opflag bs = .ok p) :
    ∃ sc op io bs', decodeSize opflag = .ok sc ∧ op.toNat ≤ 6 ∧ bs = op :: io :: bs' := by
  obtain ⟨sc, hsc, h⟩ := bind_ok_iff.mp h
  obtain ⟨⟨op, bs₁⟩, hop, h⟩ := bind_ok_iff.mp h
  dsimp only at h
  split at h
  · cases h
  · rename_i hle
    obtain ⟨⟨io, bs₂⟩, hio, -⟩ := bind_ok_iff.mp h
    cases takeByte_ok_iff.mp hop
    cases takeByte_ok_iff.mp hio
    exact ⟨sc, op, io, bs₂, hsc, Nat.not_lt.mp hle, rfl⟩

end Alu

theorem decodeAluSrc_consumes {sc : SizeClass} {immediate : Bool} {r : Nibble} {bs rest : List Byte} {b : AluSrc}
    (h : decodeAluSrc sc immediate r bs = .ok (b, rest)) : b.fits sc = true ∧ Consumes (b.length sc) bs rest := by
  cases immediate with
  | false =>
    cases h
    exact ⟨rfl, .refl bs⟩
  | true =>
    obtain ⟨⟨v, rest'⟩, htake, heq⟩ := map_ok_iff.mp h
    cases heq
    exact ⟨takeWord_fits htake, takeWord_consumes htake⟩

/-- Every ALU operation's encoding is read back (R74, R120). -/
theorem decode_encodeAlu {op : Byte} (hop : op.toNat ≤ 6) {sc : SizeClass} {b : AluSrc} (hb : b.fits sc = true) (a : Reg)
    (rest : List Byte) : decode (encodeAlu op sc a b ++ rest) = .ok (aluInstr op.toNat sc a b, rest) := by
  cases b with
  | reg r =>
    refine (decodeAlu_cons (decodeSize_opflagByte sc false false) hop _ rest).trans ?_
    simp [decodeAluSrc, Except.map]
  | imm v =>
    refine (decodeAlu_cons (decodeSize_opflagByte sc true false) hop _ (leBytes sc.bytes v ++ rest)).trans ?_
    simp [decodeAluSrc, Except.map, takeWord_leBytes hb]

/-- What the ALU format decodes, and how many bytes after the word it takes (R74, R78). -/
theorem decodeAlu_reads {opflag : Byte} {bs rest : List Byte} {i : Instr} (h : decodeAlu opflag bs = .ok (i, rest)) :
    ReadsAfterWord i bs rest := by
  obtain ⟨sc, op, io, bs, hsc, hop, rfl⟩ := decodeAlu_ok h
  rw [decodeAlu_cons hsc hop] at h
  obtain ⟨⟨b, rest'⟩, hb, heq⟩ := map_ok_iff.mp h
  cases heq
  obtain ⟨hfits, hlen⟩ := decodeAluSrc_consumes hb
  exact ⟨(aluInstr_wellFormed ..).trans hfits, b.length sc + 2, by rw [aluInstr_length, Nat.add_comm], (hlen.cons io).cons op⟩

/-! ### The dual format of MOV and CMP (R74, R77) -/

/-- The nibble that the source's selector byte leaves to a register destination; 0 where there is no such byte (R77). -/
def leftNibble (src : Kind) (n : Nibble) : Nibble := if src.hasSelector then n else 0

section Dual
variable {sc : SizeClass}

/-- The source's bytes are read back, and with them the other nibble of its selector byte (R77). -/
theorem decodeSrc_encodeSrc {src : Operand} (h : src.fits sc = true) (n : Nibble) (rest : List Byte) :
    decodeSrc sc src.kind (encodeSrc sc n src ++ rest) = .ok ((src, leftNibble src.kind n), rest) := by
  cases src with
  | reg r => simp [decodeSrc, encodeSrc, Operand.kind, leftNibble, Kind.hasSelector, Except.map]
  | ind r => simp [decodeSrc, encodeSrc, Operand.kind, leftNibble, Kind.hasSelector, Except.map]
  | mem A => simp [decodeSrc, encodeSrc, Operand.kind, leftNibble, Kind.hasSelector, Except.map]
  | imm v => simp [decodeSrc, encodeSrc, Operand.kind, leftNibble, Kind.hasSelector, Except.map, takeWord_leBytes h]

/-- A register destination is read back from the shared nibble or from a byte of its own (R77). -/
theorem decodeDstReg_encode (src : Kind) (r : Reg) (rest : List Byte) :
    decodeDstReg src (leftNibble src (nibbleOfReg r))
      ((if src.hasSelector then [] else [ofNibbles 0 (nibbleOfReg r)]) ++ rest) = .ok (r, rest) := by
  cases h : src.hasSelector <;> simp [decodeDstReg, leftNibble, h, Except.map]

theorem decodeDst_encodeDst {dst : Operand} (h : dst.fits sc = true) (src : Kind) (rest : List Byte) :
    decodeDst sc src (leftNibble src (sharedNibble dst)) dst.kind (encodeDst sc src dst ++ rest) = .ok (dst, rest) := by
  cases dst with
  | reg r => simp only [decodeDst, encodeDst, sharedNibble, Operand.kind, decodeDstReg_encode, Except.map]
  | ind r => simp only [decodeDst, encodeDst, sharedNibble, Operand.kind, decodeDstReg_encode, Except.map]
  | mem A => simp [decodeDst, encodeDst, Operand.kind, Except.map]
  | imm v => simp [decodeDst, encodeDst, Operand.kind, Except.map, takeWord_leBytes h]

theorem decodeDual_encode {dst src : Operand} (hd : dst.fits sc = true) (hs : src.fits sc = true) (rest : List Byte) :
    decodeDual sc dst.kind src.kind (encodeSrc sc (sharedNibble dst) src ++ encodeDst sc src.kind dst ++ rest) =
      .ok ((dst, src), rest) := by
  rw [decodeDual, List.append_assoc, decodeSrc_encodeSrc hs, ok_bind]
  simp only [decodeDst_encodeDst hd, ok_bind]

theorem decodeSrc_consumes {k : Kind} {bs rest : List Byte} {src : Operand} {n : Nibble}
    (h : decodeSrc sc k bs = .ok ((src, n), rest)) :
    src.kind = k ∧ src.fits sc = true ∧ Consumes (srcLength sc k) bs rest := by
  cases k with
  | reg | ind =>
    obtain ⟨⟨b, bs'⟩, hb, heq⟩ := map_ok_iff.mp h
    cases heq
    exact ⟨rfl, rfl, takeByte_consumes hb⟩
  | mem =>
    obtain ⟨⟨A, bs'⟩, hA, heq⟩ := map_ok_iff.mp h
    cases heq
    exact ⟨rfl, rfl, takeWord_consumes hA⟩
  | imm =>
    obtain ⟨⟨v, bs'⟩, hv, heq⟩ := map_ok_iff.mp h
    cases heq
    exact ⟨rfl, takeWord_fits hv, takeWord_consumes hv⟩

theorem decodeDstReg_consumes {src : Kind} {n : Nibble} {bs rest : List Byte} {r : Reg}
    (h : decodeDstReg src n bs = .ok (r, rest)) : Consumes (if src.hasSelector then 0 else 1) bs rest := by
  rw [decodeDstReg] at h
  split at h
  case isTrue hsel =>
    cases h
    rw [if_pos hsel]
    exact .refl bs
  case isFalse hsel =>
    obtain ⟨⟨b, bs'⟩, hb, heq⟩ := map_ok_iff.mp h
    cases heq
    rw [if_neg hsel]
    exact takeByte_consumes hb

theorem decodeDst_consumes {src k : Kind} {n : Nibble} {bs rest : List Byte} {dst : Operand}
    (h : decodeDst sc src n k bs = .ok (dst, rest)) :
    dst.kind = k ∧ dst.fits sc = true ∧ Consumes (dstLength sc src k) bs rest := by
  cases k with
  | reg | ind =>
    obtain ⟨⟨r, bs'⟩, hr, heq⟩ := map_ok_iff.mp h
    cases heq
    exact ⟨rfl, rfl, decodeDstReg_consumes hr⟩
  | mem =>
    obtain ⟨⟨A, bs'⟩, hA, heq⟩ := map_ok_iff.mp h
    cases heq
    exact ⟨rfl, rfl, takeWord_consumes hA⟩
  | imm =>
    obtain ⟨⟨v, bs'⟩, hv, heq⟩ := map_ok_iff.mp h
    cases heq
    exact ⟨rfl, takeWord_fits hv, takeWord_consumes hv⟩

theorem decodeDual_consumes {dk sk : Kind} {bs rest : List Byte} {dst src : Operand}
    (h : decodeDual sc dk sk bs = .ok ((dst, src), rest)) :
    dst.kind = dk ∧ src.kind = sk ∧ dst.fits sc = true ∧ src.fits sc = true ∧
      Consumes (srcLength sc src.kind + dstLength sc src.kind dst.kind) bs rest := by
  obtain ⟨⟨⟨src', n⟩, bs₁⟩, hsrc, h⟩ := bind_ok_iff.mp h
  obtain ⟨⟨dst', bs₂⟩, hdst, h⟩ := bind_ok_iff.mp h
  cases h
  obtain ⟨rfl, hs, hsrc⟩ := decodeSrc_consumes hsrc
  obtain ⟨rfl, hd, hdst⟩ := decodeDst_consumes hdst
  exact ⟨rfl, rfl, hd, hs, hsrc.trans hdst⟩

end Dual

theorem decodeKinds_ok_iff {io : Byte} {dk sk : Kind} :
    decodeKinds io = .ok (dk, sk) ↔ kindOfNibble (lowNibble io) = some dk ∧ kindOfNibble (highNibble io) = some sk := by
  rw [decodeKinds]
  cases kindOfNibble (lowNibble io) <;> cases kindOfNibble (highNibble io) <;> simp

theorem movLegal_iff {dk sk : Kind} : movLegal dk sk = true ↔ dk ≠ .imm ∧ cmpLegal dk sk = true := by
  simp [movLegal]

/-- MOV decodes exactly from a defined size class, a legal pair of kinds and the operands' bytes (R73, R140, R141). -/
theorem decodeMov_ok_iff {opflag : Byte} {bs rest : List Byte} {i : Instr} :
    decodeMov opflag bs = .ok (i, rest) ↔ ∃ sc io bs' dk sk dst src, decodeSize opflag = .ok sc ∧ bs = io :: bs' ∧
      decodeKinds io = .ok (dk, sk) ∧ movLegal dk sk = true ∧ decodeDual sc dk sk bs' = .ok ((dst, src), rest) ∧
      .mov sc dst src = i := by
  constructor
  · intro h
    obtain ⟨sc, hsc, h⟩ := bind_ok_iff.mp h
    obtain ⟨⟨io, bs'⟩, hio, h⟩ := bind_ok_iff.mp h
    obtain ⟨⟨dk, sk⟩, hk, h⟩ := bind_ok_iff.mp h
    dsimp only at h
    split at h
    · cases h
    · split at h
      · rename_i hlegal
        obtain ⟨⟨⟨dst, src⟩, bs₂⟩, hdual, h⟩ := bind_ok_iff.mp h
        cases h
        exact ⟨sc, io, bs', dk, sk, dst, src, hsc, takeByte_ok_iff.mp hio, hk, hlegal, hdual, rfl⟩
      · cases h
  · rintro ⟨sc, io, bs', dk, sk, dst, src, hsc, rfl, hk, hlegal, hdual, rfl⟩
    simp only [decodeMov, hsc, hk, hdual, takeByte_cons, ok_bind, if_neg (movLegal_iff.mp hlegal).1, if_pos hlegal]

/-- CMP decodes exactly from a defined size class, a legal pair of kinds and the operands' bytes (R73, R195, R196). -/
theorem decodeCmp_ok_iff {opflag : Byte} {bs rest : List Byte} {i : Instr} :
    decodeCmp opflag bs = .ok (i, rest) ↔ ∃ sc io bs' dk sk dst src, decodeSize opflag = .ok sc ∧ bs = io :: bs' ∧
      decodeKinds io = .ok (dk, sk) ∧ cmpLegal dk sk = true ∧ decodeDual sc dk sk bs' = .ok ((dst, src), rest) ∧
      .cmp sc (opflag.getLsbD 4) (opflag.getLsbD 5) dst src = i := by
  constructor
  · intro h
    obtain ⟨sc, hsc, h⟩ := bind_ok_iff.mp h
    obtain ⟨⟨io, bs'⟩, hio, h⟩ := bind_ok_iff.mp h
    obtain ⟨⟨dk, sk⟩, hk, h⟩ := bind_ok_iff.mp h
    dsimp only at h
    split at h
    · rename_i hlegal
      obtain ⟨⟨⟨dst, src⟩, bs₂⟩, hdual, h⟩ := bind_ok_iff.mp h
      cases h
      exact ⟨sc, io, bs', dk, sk, dst, src, hsc, takeByte_ok_iff.mp hio, hk, hlegal, hdual, rfl⟩
    · cases h
  · rintro ⟨sc, io, bs', dk, sk, dst, src, hsc, rfl, hk, hlegal, hdual, rfl⟩
    simp only [decodeCmp, hsc, hk, hdual, takeByte_cons, ok_bind, if_pos hlegal]

/-- The kinds of an encoded pair are read back (R75). -/
theorem decodeKinds_ofNibbles (sk dk : Kind) : decodeKinds (ofNibbles sk.nibble dk.nibble) = .ok (dk, sk) :=
  decodeKinds_ok_iff.mpr (by simp)

theorem decodeMov_reads {opflag : Byte} {bs rest : List Byte} {i : Instr} (h : decodeMov opflag bs = .ok (i, rest)) :
    ReadsAfterWord i bs rest := by
  obtain ⟨sc, io, bs, dk, sk, dst, src, -, rfl, -, hlegal, hdual, rfl⟩ := decodeMov_ok_iff.mp h
  obtain ⟨rfl, rfl, hd, hs, hlen⟩ := decodeDual_consumes hdual
  exact ⟨by simp [Instr.wellFormed, hlegal, hd, hs], _, by simp only [Instr.length, dualLength]; omega, hlen.cons io⟩

theorem decodeCmp_reads {opflag : Byte} {bs rest : List Byte} {i : Instr} (h : decodeCmp opflag bs = .ok (i, rest)) :
    ReadsAfterWord i bs rest := by
  obtain ⟨sc, io, bs, dk, sk, dst, src, -, rfl, -, hlegal, hdual, rfl⟩ := decodeCmp_ok_iff.mp h
  obtain ⟨rfl, rfl, hd, hs, hlen⟩ := decodeDual_consumes hdual
  exact ⟨by simp [Instr.wellFormed, hlegal, hd, hs], _, by simp only [Instr.length, dualLength]; omega, hlen.cons io⟩

theorem decode_encodeMov {sc : SizeClass} {dst src : Operand} (h : (Instr.mov sc dst src).wellFormed = true) (rest : List Byte) :
    decode (encode (.mov sc dst src) ++ rest) = .ok (.mov sc dst src, rest) := by
  simp only [Instr.wellFormed, Bool.and_eq_true] at h
  obtain ⟨⟨hlegal, hd⟩, hs⟩ := h
  exact decodeMov_ok_iff.mpr ⟨sc, _, _, _, _, dst, src, decodeSize_opflagByte .., rfl, decodeKinds_ofNibbles .., hlegal,
    decodeDual_encode hd hs rest, rfl⟩

theorem decode_encodeCmp {sc : SizeClass} {signed keep : Bool} {dst src : Operand}
    (h : (Instr.cmp sc signed keep dst src).wellFormed = true) (rest : List Byte) :
    decode (encode (.cmp sc signed keep dst src) ++ rest) = .ok (.cmp sc signed keep dst src, rest) := by
  simp only [Instr.wellFormed, Bool.and_eq_true] at h
  obtain ⟨⟨hlegal, hd⟩, hs⟩ := h
  exact decodeCmp_ok_iff.mpr ⟨sc, _, _, _, _, dst, src, decodeSize_opflagByte .., rfl, decodeKinds_ofNibbles .., hlegal,
    decodeDual_encode hd hs rest, by simp⟩

/-! ### JMP, CALL and INT (R74, R76, R210) -/

section Single
variable {sc : SizeClass}

theorem lowNibble_amByte (op : Operand) : lowNibble (amByte op) = op.kind.nibble := by
  cases op <;> exact lowNibble_ofNibbles _ _

/-- The operand of JMP and CALL is read back (R76). -/
theorem decodeSingle_encodeSingle {op : Operand} (h : op.fits sc = true) (rest : List Byte) :
    decodeSingle sc op.kind (amByte op) (encodeSingle sc op ++ rest) = .ok (op, rest) := by
  cases op with
  | reg r => simp [decodeSingle, encodeSingle, Operand.kind, amByte]
  | ind r => simp [decodeSingle, encodeSingle, Operand.kind, amByte]
  | mem A => simp [decodeSingle, encodeSingle, Operand.kind, Except.map]
  | imm v => simp [decodeSingle, encodeSingle, Operand.kind, Except.map, takeWord_leBytes h]

theorem decodeSingle_consumes {k : Kind} {am : Byte} {bs rest : List Byte} {op : Operand}
    (h : decodeSingle sc k am bs = .ok (op, rest)) : op.fits sc = true ∧ Consumes (op.singleLength sc) bs rest := by
  cases k with
  | reg | ind =>
    cases h
    exact ⟨rfl, .refl bs⟩
  | mem =>
    obtain ⟨⟨A, bs'⟩, hA, heq⟩ := map_ok_iff.mp h
    cases heq
    exact ⟨rfl, takeWord_consumes hA⟩
  | imm =>
    obtain ⟨⟨v, bs'⟩, hv, heq⟩ := map_ok_iff.mp h
    cases heq
    exact ⟨takeWord_fits hv, takeWord_consumes hv⟩

end Single

/-- JMP decodes exactly from a defined size class, a defined kind, the condition and the operand's bytes (R73, R106, R180). -/
theorem decodeJmp_ok_iff {opflag : Byte} {bs rest : List Byte} {i : Instr} :
    decodeJmp opflag bs = .ok (i, rest) ↔ ∃ sc am cond bs' k op, decodeSize opflag = .ok sc ∧ bs = am :: cond :: bs' ∧
      kindOfNibble (lowNibble am) = some k ∧ decodeSingle sc k am bs' = .ok (op, rest) ∧
      .jmp sc (opflag.getLsbD 4) (opflag.getLsbD 5) (condModeOf (highNibble cond)) (lowNibble cond) op = i := by
  constructor
  · intro h
    obtain ⟨sc, hsc, h⟩ := bind_ok_iff.mp h
    obtain ⟨⟨am, bs₁⟩, ham, h⟩ := bind_ok_iff.mp h
    obtain ⟨⟨cond, bs₂⟩, hcond, h⟩ := bind_ok_iff.mp h
    dsimp only at h
    split at h
    · cases h
    · rename_i k hk
      obtain ⟨⟨op, bs₃⟩, hop, h⟩ := bind_ok_iff.mp h
      cases h
      exact ⟨sc, am, cond, bs₂, k, op, hsc, by rw [takeByte_ok_iff.mp ham, takeByte_ok_iff.mp hcond], hk, hop, rfl⟩
  · rintro ⟨sc, am, cond, bs', k, op, hsc, rfl, hk, hop, rfl⟩
    simp only [decodeJmp, hsc, hk, hop, takeByte_cons, ok_bind]

/-- CALL decodes exactly from a defined size class, a defined kind and the operand's bytes (R73, R106, R232). -/
theorem decodeCall_ok_iff {opflag : Byte} {bs rest : List Byte} {i : Instr} :
    decodeCall opflag bs = .ok (i, rest) ↔ ∃ sc am bs' k op, decodeSize opflag = .ok sc ∧ bs = am :: bs' ∧
      kindOfNibble (lowNibble am) = some k ∧ decodeSingle sc k am bs' = .ok (op, rest) ∧ .call sc op = i := by
  constructor
  · intro h
    obtain ⟨sc, hsc, h⟩ := bind_ok_iff.mp h
    obtain ⟨⟨am, bs₁⟩, ham, h⟩ := bind_ok_iff.mp h
    dsimp only at h
    split at h
    · cases h
    · rename_i k hk
      obtain ⟨⟨op, bs₂⟩, hop, h⟩ := bind_ok_iff.mp h
      cases h
      exact ⟨sc, am, bs₁, k, op, hsc, takeByte_ok_iff.mp ham, hk, hop, rfl⟩
  · rintro ⟨sc, am, bs', k, op, hsc, rfl, hk, hop, rfl⟩
    simp only [decodeCall, hsc, hk, hop, takeByte_cons, ok_bind]

theorem decodeJmp_reads {opflag : Byte} {bs rest : List Byte} {i : Instr} (h : decodeJmp opflag bs = .ok (i, rest)) :
    ReadsAfterWord i bs rest := by
  obtain ⟨sc, am, cond, bs, k, op, -, rfl, -, hop, rfl⟩ := decodeJmp_ok_iff.mp h
  obtain ⟨hfits, hlen⟩ := decodeSingle_consumes hop
  exact ⟨by simp [Instr.wellFormed, condModeOf_valid, hfits], _, by simp only [Instr.length]; omega, (hlen.cons cond).cons am⟩

theorem decodeCall_reads {opflag : Byte} {bs rest : List Byte} {i : Instr} (h : decodeCall opflag bs = .ok (i, rest)) :
    ReadsAfterWord i bs rest := by
  obtain ⟨sc, am, bs, k, op, -, rfl, -, hop, rfl⟩ := decodeCall_ok_iff.mp h
  obtain ⟨hfits, hlen⟩ := decodeSingle_consumes hop
  exact ⟨hfits, _, by simp only [Instr.length]; omega, hlen.cons am⟩

theorem decodeInt_reads {bs rest : List Byte} {i : Instr} (h : decodeInt bs = .ok (i, rest)) : ReadsAfterWord i bs rest := by
  obtain ⟨⟨code, bs'⟩, hcode, heq⟩ := map_ok_iff.mp h
  cases heq
  exact ⟨rfl, 4, rfl, takeWord_consumes hcode⟩

theorem decode_encodeJmp {sc : SizeClass} {absolute negate : Bool} {mode : CondMode} {mask : Nibble} {op : Operand}
    (h : (Instr.jmp sc absolute negate mode mask op).wellFormed = true) (rest : List Byte) :
    decode (encode (.jmp sc absolute negate mode mask op) ++ rest) = .ok (.jmp sc absolute negate mode mask op, rest) := by
  simp only [Instr.wellFormed, Bool.and_eq_true] at h
  obtain ⟨hmode, hop⟩ := h
  exact decodeJmp_ok_iff.mpr ⟨sc, _, _, _, op.kind, op, decodeSize_opflagByte .., rfl, by simp [lowNibble_amByte],
    decodeSingle_encodeSingle hop rest, by simp [condModeOf_nibble hmode]⟩

theorem decode_encodeCall {sc : SizeClass} {op : Operand} (h : op.fits sc = true) (rest : List Byte) :
    decode (encode (.call sc op) ++ rest) = .ok (.call sc op, rest) :=
  decodeCall_ok_iff.mpr ⟨sc, _, _, op.kind, op, decodeSize_opflagByte .., rfl, by simp [lowNibble_amByte],
    decodeSingle_encodeSingle h rest, rfl⟩

theorem decode_encodeInt (code : Word) (rest : List Byte) : decode (encode (.int code) ++ rest) = .ok (.int code, rest) := by
  show decodeInt (leBytes 4 code ++ rest) = _
  rw [decodeInt, takeWord_leBytes_four]
  rfl

/-! ### The floating-point format (R160, R167) -/

/-- What the floating-point format decodes is well-formed and takes one byte after the word (R74, R160). -/
theorem decodeFpu_reads {opflag : Byte} {bs rest : List Byte} {i : Instr} (h : decodeFpu opflag bs = .ok (i, rest)) :
    ReadsAfterWord i bs rest := by
  rw [decodeFpu] at h
  dsimp only at h
  split at h
  · cases h
  split at h
  · cases h
  obtain ⟨⟨io, bs'⟩, hio, h⟩ := bind_ok_iff.mp h
  have hlen := takeByte_consumes hio
  dsimp only at h
  -- every branch after the `io` byte rejects a register index or answers an instruction of three bytes
  repeat' split at h
  all_goals first
    | contradiction
    | (cases h; exact ⟨rfl, 1, rfl, hlen⟩)

theorem decode_encodeFpu (opflag : Byte) (s d : Nibble) (rest : List Byte) :
    decode (encodeFpu opflag s d ++ rest) = decodeFpu opflag (ofNibbles s d :: rest) := rfl

/-! ### The decoder and the encoder -/

/-- Settles O1, format by format: every field of an encoding is read back by the decoder of its format. -/
theorem decodeOfEncodeIsIdentity : Obligations.DecodeOfEncodeIsIdentity := by
  intro i rest h
  cases i with
  | halt => rfl
  | add sc a b => exact decode_encodeAlu (op := 0) (by decide) h a rest
  | sub sc a b => exact decode_encodeAlu (op := 1) (by decide) h a rest
  | mul sc a b => exact decode_encodeAlu (op := 2) (by decide) h a rest
  | div sc a b => exact decode_encodeAlu (op := 3) (by decide) h a rest
  | and sc a b => exact decode_encodeAlu (op := 4) (by decide) h a rest
  | or sc a b => exact decode_encodeAlu (op := 5) (by decide) h a rest
  | xor sc a b => exact decode_encodeAlu (op := 6) (by decide) h a rest
  | mov sc dst src => exact decode_encodeMov h rest
  | itof d s | ftoi d s | fadd d s | fsub d s | fmul d s | fdiv d s =>
    rw [encode, decode_encodeFpu]
    simp [decodeFpu]
  | jmp sc absolute negate mode mask op => exact decode_encodeJmp h rest
  | cmp sc signed keep dst src => exact decode_encodeCmp h rest
  | int code => exact decode_encodeInt code rest
  | call sc op => exact decode_encodeCall h rest
  | ret => rfl

/-- What follows the instruction word is decoded by the opcode's format (R80). -/
theorem decode_reads {opcode opflag : Byte} {bs rest : List Byte} {i : Instr}
    (h : decode (opcode :: opflag :: bs) = .ok (i, rest)) : ReadsAfterWord i bs rest := by
  rw [decode] at h
  split at h
  · cases h
    exact ⟨rfl, 0, rfl, .refl bs⟩
  · exact decodeAlu_reads h
  · exact decodeMov_reads h
  · exact decodeFpu_reads h
  · exact decodeJmp_reads h
  · exact decodeCmp_reads h
  · exact decodeInt_reads h
  · exact decodeCall_reads h
  · cases h
    exact ⟨rfl, 0, rfl, .refl bs⟩
  · cases h

/-- Settles O2: each format's decoder fetches the bytes its fields take, and what it fetches for an immediate fits. -/
theorem decodeYieldsWellFormedAndConsumesItsLength : Obligations.DecodeYieldsWellFormedAndConsumesItsLength := by
  intro bs i rest h
  match bs with
  | [] => cases h
  | [opcode] => cases h
  | opcode :: opflag :: bs =>
    obtain ⟨hwf, n, hn, hlen⟩ := decode_reads h
    obtain ⟨hle, hdrop⟩ := (hlen.cons opflag).cons opcode
    rw [hn]
    exact ⟨hwf, hle, hdrop⟩

/-- Settles O3 by running the decoder on each row: the rows of R87, the forms that R87 leaves out, the don't-care bits. -/
theorem workedEncodingsDecode : Obligations.WorkedEncodingsDecode := ⟨by decide, by decide, by decide⟩

/-! ### Reserved encodings (R73, R81, R106) -/

/-- A reserved size class is rejected by the five formats that use the size class, before anything else is looked at (R73). -/
theorem decode_reservedSizeClass {opcode opflag : Byte} (hop : opcode.toNat ∈ [1, 2, 4, 5, 7])
    (h : 3 ≤ (lowNibble opflag).toNat) (bs : List Byte) :
    decode (opcode :: opflag :: bs) = .error .reservedSizeClass := by
  have hsize := decodeSize_reserved h
  simp only [List.mem_cons, List.not_mem_nil, or_false] at hop
  rcases hop with hop | hop | hop | hop | hop
  · simp only [decode, hop, decodeAlu, hsize, error_bind]
  · simp only [decode, hop, decodeMov, hsize, error_bind]
  · simp only [decode, hop, decodeJmp, hsize, error_bind]
  · simp only [decode, hop, decodeCmp, hsize, error_bind]
  · simp only [decode, hop, decodeCall, hsize, error_bind]

section ReservedKind
variable {opflag am : Byte} (hsize : (lowNibble opflag).toNat < 3) (hkind : 4 ≤ (lowNibble am).toNat)
include hsize hkind

/-- JMP's kind is checked after its condition byte is fetched (R106). -/
theorem decode_reservedJmpKind (cond : Byte) (bs : List Byte) :
    decode (0x04 :: opflag :: am :: cond :: bs) = .error .reservedJmpKind := by
  obtain ⟨sc, hsc⟩ := decodeSize_defined hsize
  show decodeJmp opflag (am :: cond :: bs) = _
  simp only [decodeJmp, hsc, kindOfNibble_reserved hkind, takeByte_cons, ok_bind]

/-- CALL's kind is checked after its `am` byte is fetched (R106). -/
theorem decode_reservedCallKind (bs : List Byte) : decode (0x07 :: opflag :: am :: bs) = .error .reservedCallKind := by
  obtain ⟨sc, hsc⟩ := decodeSize_defined hsize
  show decodeCall opflag (am :: bs) = _
  simp only [decodeCall, hsc, kindOfNibble_reserved hkind, takeByte_cons, ok_bind]

end ReservedKind

namespace Machine

/-- A step whose bytes the decoder rejects aborts at the rejection's point (R81, R108). -/
theorem stepAborts_of_reject {s : State} {e : DecodeReject} (hrun : s.halted = false) (h : decode s.fetchWindow = .error e)
    (he : e ≠ .truncated) : s.StepAborts e.consumed := by
  refine ⟨s.afterFetch.illegalAfter e.consumed, illegalAfter_aborted _ _, ?_⟩
  rw [step, hrun, instructionStep_reject h he]
  rfl

/-- Settles O5: the size class is checked right after the word. -/
theorem reservedSizeClassAborts : Obligations.ReservedSizeClassAborts := by
  intro s opcode opflag bs hrun hwin hop hsize
  exact stepAborts_of_reject (e := .reservedSizeClass) hrun (by rw [hwin, decode_reservedSizeClass hop hsize]) nofun

/-- Settles O10: JMP has fetched its condition byte when its kind is checked, CALL only its `am` byte. -/
theorem reservedSingleKindAborts : Obligations.ReservedSingleKindAborts := by
  intro s opcode opflag am bs hrun hwin hsize hkind
  have hlen := fetchWindow_length s
  refine ⟨?_, ?_⟩
  · rintro rfl
    match bs with
    | [] => rw [hwin] at hlen; cases hlen
    | cond :: bs =>
      exact stepAborts_of_reject (e := .reservedJmpKind) hrun (by rw [hwin, decode_reservedJmpKind hsize hkind]) nofun
  · rintro rfl
    exact stepAborts_of_reject (e := .reservedCallKind) hrun (by rw [hwin, decode_reservedCallKind hsize hkind]) nofun

/-! ### The step on an encoded instruction (R101, R250) -/

/-- Every instruction's encoding has its length, and that is at most the longest window's (R79). -/
theorem encode_length (i : Instr) : Laws.EncodedLength.Statement i := by
  cases i with
  | halt => exact Laws.EncodedLength.halt
  | add sc a b => exact Laws.EncodedLength.add sc a b
  | sub sc a b => exact Laws.EncodedLength.sub sc a b
  | mul sc a b => exact Laws.EncodedLength.mul sc a b
  | div sc a b => exact Laws.EncodedLength.div sc a b
  | and sc a b => exact Laws.EncodedLength.and sc a b
  | or sc a b => exact Laws.EncodedLength.or sc a b
  | xor sc a b => exact Laws.EncodedLength.xor sc a b
  | mov sc dst src => exact Laws.EncodedLength.mov sc dst src
  | itof d s => exact Laws.EncodedLength.itof d s
  | ftoi d s => exact Laws.EncodedLength.ftoi d s
  | fadd d s => exact Laws.EncodedLength.fadd d s
  | fsub d s => exact Laws.EncodedLength.fsub d s
  | fmul d s => exact Laws.EncodedLength.fmul d s
  | fdiv d s => exact Laws.EncodedLength.fdiv d s
  | jmp sc absolute negate mode mask op => exact Laws.EncodedLength.jmp sc absolute negate mode mask op
  | cmp sc signed keep dst src => exact Laws.EncodedLength.cmp sc signed keep dst src
  | int code => exact Laws.EncodedLength.int code
  | call sc op => exact Laws.EncodedLength.call sc op
  | ret => exact Laws.EncodedLength.ret

/-- A shorter load is the beginning of a longer one (R46). -/
theorem Memory.load_take (m : Memory) (p : Place) (A : Word) {n k : Nat} (h : n ≤ k) :
    (m.load p A k).take n = m.load p A n := by
  rw [Memory.load, ← List.map_take, List.take_range, Nat.min_eq_left h]
  rfl

/-- Where the fetch routes, the window is loaded from the place and the fetch changes nothing (R101). -/
theorem fetch_some {s : State} {p : Place} (h : s.readRoute s.own.pc = some p) :
    s.fetchWindow = s.mem.load p s.own.pc maxLength ∧ s.afterFetch = s := by
  simp only [State.fetchWindow, State.readBytes, State.afterFetch, State.afterRead, h, and_self]

/-- A step of a running machine whose fetch routes runs the instruction its bytes decode to (R100, R250). -/
theorem step_of_decode {s : State} {p : Place} {i : Instr} {rest : List Byte} (hrun : s.halted = false)
    (hp : s.readRoute s.own.pc = some p) (h : decode (s.mem.load p s.own.pc maxLength) = .ok (i, rest)) :
    ∃ t, exec i s = .next t ∧ step s = .next (schedulerCheck t) := by
  obtain ⟨hwin, hafter⟩ := fetch_some hp
  obtain ⟨t, ht⟩ := exec_next s i
  refine ⟨t, ht, ?_⟩
  rw [step, hrun, instructionStep_ok (hwin ▸ h), hafter, ht]
  rfl

/-- Settles O12: the window begins with the encoding, and decoding does not depend on what follows it. -/
theorem stepRunsTheEncodedInstruction : Obligations.StepRunsTheEncodedInstruction := by
  intro s p i hrun hp hwf henc
  obtain ⟨-, -, hmax⟩ := encode_length i
  have hwin : s.mem.load p s.own.pc maxLength = encode i ++ (s.mem.load p s.own.pc maxLength).drop i.length := by
    rw [← henc, ← Memory.load_take _ _ _ hmax, List.take_append_drop]
  exact step_of_decode hrun hp (hwin ▸ decodeOfEncodeIsIdentity i _ hwf)

/-! ### Operand values (R75, R106, R107, R120) -/

/-- An unreadable operand is a memory operand whose address routes nowhere (R48). -/
theorem unreadable_iff {s : State} {op : Operand} :
    s.unreadable op = true ↔ ∃ A, s.storeAddress op = some A ∧ s.readRoute A = none := by
  cases op <;> simp [State.unreadable, State.storeAddress]

/-- A memory operand is read at the address its kind gives (R75, R143). -/
theorem readOperand_of_storeAddress {s : State} {op : Operand} {A : Word} (h : s.storeAddress op = some A) (sc : SizeClass) :
    s.readOperand sc op = s.memRead A sc.bytes := by
  cases op with
  | reg r => cases h
  | ind r => cases h; rfl
  | mem B => cases h; rfl
  | imm v => cases h

/-- Settles O23, by the operand's kind: the mask is a remainder, the bytes loaded or drawn are a little-endian sum. -/
theorem operandValues : Obligations.OperandValues := by
  intro s sc
  have hbytes : sc.bytes ≤ 4 := (Laws.bytes_bounds sc).2
  refine ⟨fun r => ⟨toNat_and_mask sc (s.x r), rfl⟩, fun v => rfl, fun op A p hA hp => ?_, fun op hop => ?_, fun r => rfl,
    fun v => rfl⟩
  · rw [readOperand_mem hA hp]
    exact ⟨rfl, toNat_leWord_load s.mem p A hbytes⟩
  · obtain ⟨A, hA, hp⟩ := unreadable_iff.mp hop
    have hlt := toNat_leWord_lt (bs := s.unspecBytes sc.bytes) (by simpa using hbytes)
    rw [readOperand_of_storeAddress hA, memRead_none hp, pow_mul]
    simpa using hlt

end Machine

end Sys2Proof
end

section
/-! The step statements: fetch and dispatch, the undefined opcodes, the failed fetch, HALT (R81, R100 to R105, R250).

A step of a running machine always answers because the longest instruction's bytes are always enough for the decoder.
`Untruncated` says this of one fetch and is carried through the decoder's sequence of fetches. -/

namespace Sys2Proof

/-! ### Fetches that have bytes enough -/

/-- The bytes given were enough: the fetch answers a value with `P`, or rejects the encoding for what it says (R81). -/
def Untruncated {α : Type} (P : α → Prop) : Except DecodeReject α → Prop
  | .ok a => P a
  | .error e => e ≠ .truncated

/-- At least `k` bytes are left after a fetch; `Leaves 0` asks for nothing. -/
def Leaves {α : Type} (k : Nat) (p : α × List Byte) : Prop := k ≤ p.2.length

section Untruncated
variable {α β : Type} {P : α → Prop} {Q : β → Prop} {x : Except DecodeReject α}

theorem Untruncated.ne_truncated (h : Untruncated P x) : x ≠ .error .truncated := by
  rintro rfl
  exact h rfl

theorem Untruncated.bind {f : α → Except DecodeReject β} (h : Untruncated P x) (hf : ∀ a, P a → Untruncated Q (f a)) :
    Untruncated Q (x >>= f) := by
  cases x with
  | ok a => exact hf a h
  | error e => exact h

theorem Untruncated.map {f : α → β} (h : Untruncated P x) (hf : ∀ a, P a → Q (f a)) : Untruncated Q (x.map f) := by
  cases x with
  | ok a => exact hf a h
  | error e => exact h

end Untruncated

section Fetches
variable {k n : Nat} {bs : List Byte}

theorem takeByte_untruncated (h : k + 1 ≤ bs.length) : Untruncated (Leaves k) (takeByte bs) := by
  cases bs with
  | nil => cases h
  | cons b bs => exact Nat.le_of_succ_le_succ h

theorem takeWord_untruncated (h : k + n ≤ bs.length) : Untruncated (Leaves k) (takeWord n bs) := by
  rw [takeWord, if_neg (by omega)]
  show k ≤ (bs.drop n).length
  rw [List.length_drop]
  omega

/-- An immediate has at most four bytes (R72, R78). -/
theorem takeImmediate_untruncated (sc : SizeClass) (h : k + 4 ≤ bs.length) : Untruncated (Leaves k) (takeWord sc.bytes bs) :=
  takeWord_untruncated (by have := (Laws.bytes_bounds sc).2; omega)

end Fetches

theorem decodeSize_untruncated (opflag : Byte) : Untruncated (fun _ => True) (decodeSize opflag) := by
  rw [decodeSize]
  split
  · trivial
  · trivial
  · trivial
  · exact nofun

theorem decodeKinds_untruncated (io : Byte) : Untruncated (fun _ => True) (decodeKinds io) := by
  rw [decodeKinds]
  split
  · trivial
  · exact nofun

/-! ### The formats: nine bytes after the word are enough for each of them (R74, R79) -/

section Formats
variable {bs : List Byte} {opflag : Byte}

/-- An ALU operation takes at most six bytes after the word (R74). -/
theorem decodeAlu_untruncated (h : 6 ≤ bs.length) : Untruncated (Leaves 0) (decodeAlu opflag bs) := by
  refine (decodeSize_untruncated opflag).bind fun sc _ =>
    (takeByte_untruncated (k := 5) h).bind fun ⟨op, bs⟩ h => ?_
  dsimp only
  split
  · exact nofun
  refine (takeByte_untruncated (k := 4) h).bind fun ⟨io, bs⟩ h => ?_
  dsimp only
  split
  · refine Untruncated.bind (P := Leaves 0) ((takeImmediate_untruncated sc h).map fun _ h => h) fun _ _ => ?_
    split <;> exact Nat.zero_le _
  · rw [ok_bind]
    split <;> exact Nat.zero_le _

/-- A source takes at most four bytes (R77). -/
theorem decodeSrc_untruncated (sc : SizeClass) (k : Kind) {n : Nat} (h : n + 4 ≤ bs.length) :
    Untruncated (Leaves n) (decodeSrc sc k bs) := by
  cases k with
  | reg | ind => exact (takeByte_untruncated (by omega)).map fun _ h => h
  | mem => exact (takeWord_untruncated h).map fun _ h => h
  | imm => exact (takeImmediate_untruncated sc h).map fun _ h => h

theorem decodeDstReg_untruncated (src : Kind) (shared : Nibble) (h : 1 ≤ bs.length) :
    Untruncated (Leaves 0) (decodeDstReg src shared bs) := by
  rw [decodeDstReg]
  split
  · exact Nat.zero_le _
  · exact (takeByte_untruncated h).map fun _ h => h

/-- A destination takes at most four bytes (R77). -/
theorem decodeDst_untruncated (sc : SizeClass) (src : Kind) (shared : Nibble) (k : Kind) (h : 4 ≤ bs.length) :
    Untruncated (Leaves 0) (decodeDst sc src shared k bs) := by
  cases k with
  | reg | ind => exact (decodeDstReg_untruncated src shared (by omega)).map fun _ h => h
  | mem => exact (takeWord_untruncated (k := 0) h).map fun _ h => h
  | imm => exact (takeImmediate_untruncated sc (k := 0) h).map fun _ h => h

theorem decodeDual_untruncated (sc : SizeClass) (dk sk : Kind) (h : 8 ≤ bs.length) :
    Untruncated (Leaves 0) (decodeDual sc dk sk bs) :=
  (decodeSrc_untruncated sc sk (n := 4) h).bind fun _ h => (decodeDst_untruncated sc sk _ dk h).bind fun _ _ => Nat.zero_le _

theorem decodeMov_untruncated (h : 9 ≤ bs.length) : Untruncated (Leaves 0) (decodeMov opflag bs) := by
  refine (decodeSize_untruncated opflag).bind fun sc _ =>
    (takeByte_untruncated (k := 8) h).bind fun ⟨io, bs⟩ h =>
    (decodeKinds_untruncated io).bind fun ⟨dk, sk⟩ _ => ?_
  dsimp only
  split
  · exact nofun
  split
  · exact (decodeDual_untruncated sc dk sk h).bind fun _ _ => Nat.zero_le _
  · exact nofun

theorem decodeCmp_untruncated (h : 9 ≤ bs.length) : Untruncated (Leaves 0) (decodeCmp opflag bs) := by
  refine (decodeSize_untruncated opflag).bind fun sc _ =>
    (takeByte_untruncated (k := 8) h).bind fun ⟨io, bs⟩ h =>
    (decodeKinds_untruncated io).bind fun ⟨dk, sk⟩ _ => ?_
  dsimp only
  split
  · exact (decodeDual_untruncated sc dk sk h).bind fun _ _ => Nat.zero_le _
  · exact nofun

/-- A floating-point instruction takes one byte after the word (R160). -/
theorem decodeFpu_untruncated (h : 1 ≤ bs.length) : Untruncated (Leaves 0) (decodeFpu opflag bs) := by
  rw [decodeFpu]
  dsimp only
  split
  · exact nofun
  split
  · exact nofun
  refine (takeByte_untruncated (k := 0) h).bind fun ⟨io, bs⟩ _ => ?_
  dsimp only
  -- every branch after the `io` byte rejects a register index or answers an instruction
  repeat' split
  all_goals first
    | exact Nat.zero_le _
    | exact nofun

/-- The operand of JMP and CALL takes at most four bytes (R76). -/
theorem decodeSingle_untruncated (sc : SizeClass) (k : Kind) (am : Byte) (h : 4 ≤ bs.length) :
    Untruncated (Leaves 0) (decodeSingle sc k am bs) := by
  cases k with
  | reg | ind => exact Nat.zero_le _
  | mem => exact (takeWord_untruncated (k := 0) h).map fun _ h => h
  | imm => exact (takeImmediate_untruncated sc (k := 0) h).map fun _ h => h

theorem decodeJmp_untruncated (h : 6 ≤ bs.length) : Untruncated (Leaves 0) (decodeJmp opflag bs) := by
  refine (decodeSize_untruncated opflag).bind fun sc _ =>
    (takeByte_untruncated (k := 5) h).bind fun ⟨am, bs⟩ h =>
    (takeByte_untruncated (k := 4) h).bind fun ⟨cond, bs⟩ h => ?_
  dsimp only
  split
  · exact nofun
  · exact (decodeSingle_untruncated sc _ am h).bind fun _ _ => Nat.zero_le _

theorem decodeCall_untruncated (h : 5 ≤ bs.length) : Untruncated (Leaves 0) (decodeCall opflag bs) := by
  refine (decodeSize_untruncated opflag).bind fun sc _ =>
    (takeByte_untruncated (k := 4) h).bind fun ⟨am, bs⟩ h => ?_
  dsimp only
  split
  · exact nofun
  · exact (decodeSingle_untruncated sc _ am h).bind fun _ _ => Nat.zero_le _

theorem decodeInt_untruncated (h : 4 ≤ bs.length) : Untruncated (Leaves 0) (decodeInt bs) :=
  (takeWord_untruncated (k := 0) h).map fun _ h => h

end Formats

/-- The longest instruction's bytes are enough for every format (R79; log 8). -/
theorem decode_untruncated {bs : List Byte} (h : maxLength ≤ bs.length) : Untruncated (Leaves 0) (decode bs) := by
  match bs with
  | [] => cases h
  | [_] => simp [maxLength] at h
  | opcode :: opflag :: bs =>
    have h : 9 ≤ bs.length := by simpa [maxLength] using h
    rw [decode]
    split
    · exact Nat.zero_le _
    · exact decodeAlu_untruncated (by omega)
    · exact decodeMov_untruncated h
    · exact decodeFpu_untruncated (by omega)
    · exact decodeJmp_untruncated (by omega)
    · exact decodeCmp_untruncated h
    · exact decodeInt_untruncated (by omega)
    · exact decodeCall_untruncated (by omega)
    · exact Nat.zero_le _
    · exact nofun

/-- Opcodes 9 to 255 are rejected, whatever the opflag is (R105). -/
theorem decode_undefinedOpcode {opcode : Byte} (h : 9 ≤ opcode.toNat) (opflag : Byte) (bs : List Byte) :
    decode (opcode :: opflag :: bs) = .error .undefinedOpcode := by
  rw [decode]
  -- the nine rows of the table contradict `h`, the last answers the rejection
  split <;> first | omega | rfl

namespace Machine

/-! ### One instruction, and the check after it (R100, R250) -/

/-- The bytes fetched always decode or are rejected by one of R81's rows (log 8). -/
theorem decode_fetchWindow_ne_truncated (s : State) : decode s.fetchWindow ≠ .error .truncated :=
  (decode_untruncated (fetchWindow_length s).ge).ne_truncated

/-- Every state's instruction completes, and what it does starts from the state after the fetch (R100, R101). -/
theorem instructionStep_next (s : State) : ∃ u, instructionStep s = .next u ∧ s.afterFetch.Effect u := by
  cases h : decode s.fetchWindow with
  | ok r =>
    obtain ⟨t, ht⟩ := exec_next s.afterFetch r.1
    exact ⟨t, (instructionStep_ok h).trans ht, exec_effect ht⟩
  | error e =>
    have he : e ≠ .truncated := by
      rintro rfl
      exact decode_fetchWindow_ne_truncated s h
    exact ⟨_, instructionStep_reject h he, illegalAfter_effect _ _⟩

theorem step_of_instructionStep {s u : State} (hrun : s.halted = false) (h : instructionStep s = .next u) :
    step s = .next (schedulerCheck u) := by
  rw [step, hrun, h]
  rfl

/-- Settles O13: the instruction of a running machine always completes, and the check follows it. -/
theorem stepAnswersUnlessHalted : Obligations.StepAnswersUnlessHalted := by
  refine ⟨fun s hrun => ?_, fun s hhalt => ?_⟩
  · obtain ⟨u, hu, -⟩ := instructionStep_next s
    exact ⟨_, step_of_instructionStep hrun hu⟩
  · rw [step, if_pos hhalt]

/-- Settles O11: the window is the bytes at `pc`, and `exec` of what they decode to always completes. -/
theorem stepRunsTheDecodedInstruction : Obligations.StepRunsTheDecodedInstruction :=
  fun _ _ _ _ hrun hroute hdecode => step_of_decode hrun hroute hdecode

/-- Settles O4: the opcode is looked at before anything else, and the window holds the whole word. -/
theorem undefinedOpcodeAborts : Obligations.UndefinedOpcodeAborts := by
  intro s opcode bs hrun hwin hop
  match bs with
  | [] =>
    have hlen := fetchWindow_length s
    rw [hwin] at hlen
    cases hlen
  | opflag :: bs =>
    exact stepAborts_of_reject (e := .undefinedOpcode) hrun (by rw [hwin, decode_undefinedOpcode hop]) nofun

/-! ### The failed fetch (R48, R101, R253) -/

/-- Where the fetch does not route, READ_ERROR is raised before the instruction runs (R48, R101; log 8). -/
theorem afterFetch_none {s : State} (h : s.readRoute s.own.pc = none) :
    s.afterFetch = (s.drawn maxLength).raise .readError := by
  simp only [State.afterFetch, State.afterRead, h]

/-- A flag raised before an instruction is set after it (R16). -/
theorem State.Effect.raised_flag {s u : State} {F : Flag} (he : (s.raise F).Effect u) : u.own.flags &&& F.mask = F.mask := by
  obtain ⟨m, hm, -⟩ := he.flags
  rw [hm, raise_own]
  ext i hi
  simp +contextual

/-- Each of the five conditions stops its context (R17). -/
theorem stopping_of_flag {flags : Word} {F : Flag} (h : flags &&& F.mask = F.mask) : stopping flags = true := by
  have hstop : stopMask &&& F.mask = F.mask := by cases F <;> rfl
  have hne : F.mask ≠ 0 := by cases F <;> decide
  by_contra hrun
  rw [Bool.not_eq_true, stopping_eq_false] at hrun
  apply hne
  calc F.mask = flags &&& F.mask := h.symm
    _ = flags &&& stopMask &&& F.mask := by rw [BitVec.and_assoc, hstop]
    _ = 0 := by rw [hrun]; exact BitVec.zero_and

/-- The check ends the quantum of a stopped context and kills it, while context 0 is alive (R253, R279). -/
theorem schedulerCheck_ctx_stopped {u : State} (h0 : (u.ctx 0).alive = true) (hstop : stopping u.own.flags = true) :
    (schedulerCheck u).ctx u.cur = u.own.endQuantum true := by
  rcases schedulerCheck_cases u with ⟨hdead, _⟩ | ⟨_, _, hrun, _⟩ | ⟨_, _, h⟩
  · rw [h0] at hdead
    cases hdead
  · rw [hstop] at hrun
    cases hrun
  · rw [h, switchContext_ctx, ctx_setOwn, if_pos rfl, hstop]

/-- Settles O14: READ_ERROR is raised by the fetch, stays set through whatever the drawn bytes do, and stops the context. -/
theorem failedFetchKillsTheContext : Obligations.FailedFetchKillsTheContext := by
  intro s hrun h0 hroute
  obtain ⟨u, hu, he⟩ := instructionStep_next s
  have hs := instructionStep_effect hu
  rw [afterFetch_none hroute] at he
  have hflag := he.raised_flag
  have hkill := schedulerCheck_ctx_stopped (by rwa [hs.alive_eq]) (stopping_of_flag hflag)
  rw [hs.cur] at hkill
  refine ⟨_, step_of_instructionStep hrun hu, ?_, ?_⟩
  · rw [hkill]
    exact Bool.and_false _
  · rw [hkill]
    exact hflag

/-! ### HALT (R104) -/

theorem exec_halt (s : State) : exec .halt s = .next ((s.advance 2).raise .halt) := rfl

/-- Settles O43: HALT advances over its word and raises its flag, and both touch one field of the current context. -/
theorem haltRaisesHalt : Obligations.HaltRaisesHalt := by
  intro s
  have hframe : s.Frame [] [] ((s.advance 2).raise .halt) :=
    (exec_effect (exec_halt s)).frame (by simp) (by simp)
  exact ⟨_, exec_halt s, by simp [Flag.mask], by simp, hframe, by simp, by simp, fun _ => rfl, rfl, rfl, rfl⟩

end Machine

end Sys2Proof
end

section
/-! The ALU statements: the reserved operations and the results of the seven defined ones (R120 to R130).

The seven operations share `aluFrame`, so what it writes and what it leaves alone is said once; each instruction's statement adds
the arithmetic of its own operation. -/

namespace Sys2Proof

/-- ALU operations 7 to 255 are rejected before the `io` byte is looked at (R128). -/
theorem decode_reservedAluOp {opflag op : Byte} (hsize : (lowNibble opflag).toNat < 3) (hop : 7 ≤ op.toNat) (bs : List Byte) :
    decode (0x01 :: opflag :: op :: bs) = .error .reservedAluOp := by
  obtain ⟨sc, hsc⟩ := decodeSize_defined hsize
  show decodeAlu opflag (op :: bs) = _
  simp only [decodeAlu, hsc, takeByte_cons, ok_bind, if_pos (show 6 < op.toNat from hop)]

/-! ### Arithmetic under the mask -/

/-- A size class's width divides the word's, so the wrap at 32 bits is lost under the mask (R121, R122, R123). -/
theorem SizeClass.width_dvd (sc : SizeClass) : 2 ^ (8 * sc.bytes) ∣ 2 ^ 32 :=
  Nat.pow_dvd_pow 2 (Nat.mul_le_mul_left 8 (Laws.bytes_bounds sc).2)

/-- Masking to a size class keeps the bits of its width (R72). -/
theorem getLsbD_and_mask (sc : SizeClass) (w : Word) (i : Nat) :
    (w &&& sc.mask).getLsbD i = (decide (i < 8 * sc.bytes) && w.getLsbD i) := by
  rw [BitVec.getLsbD, Machine.toNat_and_mask, Nat.testBit_mod_two_pow]
  rfl

/-- A difference of words is the integers' difference modulo the word's width (R122). -/
theorem toNat_sub_eq_emod (u v : Word) : ((u - v).toNat : Int) = ((u.toNat : Int) - v.toNat) % 2 ^ 32 := by
  have h := Machine.toNat_add_ofInt u (-(v.toNat : Int))
  rwa [BitVec.ofInt_neg, BitVec.ofInt_natCast, BitVec.ofNat_toNat, BitVec.setWidth_eq, ← BitVec.sub_eq_add_neg,
    ← sub_eq_add_neg] at h

namespace Machine

/-! ### The common frame (R120) -/

section Frame
variable (op : Word → Word → Word) (n : Nat) (sc : SizeClass) (a : Reg) (b : AluSrc) (s : State)

@[simp] theorem aluFrame_x_same : (aluFrame op n sc a b s).x a = op (s.x a) (s.aluSource b) &&& sc.mask := setX_x_same _ _ _

theorem aluFrame_x_other {r : Reg} (h : r ≠ a) : (aluFrame op n sc a b s).x r = s.x r := by
  simp [aluFrame, setX_x, h]

@[simp] theorem aluFrame_f (r : FReg) : (aluFrame op n sc a b s).f r = s.f r := by simp [aluFrame]

/-- The destination holds the operation's result modulo the size class's width (R120). -/
theorem aluFrame_toNat :
    ((aluFrame op n sc a b s).x a).toNat = (op (s.x a) (s.aluSource b)).toNat % 2 ^ (8 * sc.bytes) := by
  rw [aluFrame_x_same, toNat_and_mask]

/-- The destination holds the bits of the operation's result in the size class's width (R120). -/
theorem aluFrame_getLsbD (i : Nat) : ((aluFrame op n sc a b s).x a).getLsbD i =
    (decide (i < 8 * sc.bytes) && (op (s.x a) (s.aluSource b)).getLsbD i) := by
  rw [aluFrame_x_same, getLsbD_and_mask]

theorem aluFrame_frame : s.Frame [a] [] (aluFrame op n sc a b s) :=
  (aluFrame_effect s op n sc a b).frame (fun _ h => aluFrame_x_other op n sc a b s (List.ne_of_not_mem_cons h))
    fun r _ => aluFrame_f op n sc a b s r

theorem aluFrame_quiet : s.Quiet (aluFrame op n sc a b s) where
  flags := by simp [aluFrame]
  cmp := by simp [aluFrame]
  cp := by simp [aluFrame]
  bytes _ := rfl
  events := ⟨rfl, rfl, rfl⟩

/-- Besides its destination an ALU operation moves `pc` and nothing else (R120). -/
theorem aluFrame_rest : (aluFrame op n sc a b s).own.pc = addrAdd s.own.pc n ∧
    s.Frame [a] [] (aluFrame op n sc a b s) ∧ s.Quiet (aluFrame op n sc a b s) :=
  ⟨by simp [aluFrame], aluFrame_frame .., aluFrame_quiet ..⟩

end Frame

/-! ### What each instruction does (R121 to R127) -/

section Instructions
variable (s : State) (sc : SizeClass) (a : Reg) (b : AluSrc)

theorem exec_add : exec (.add sc a b) s = .next (aluFrame (· + ·) (4 + b.length sc) sc a b s) := rfl
theorem exec_sub : exec (.sub sc a b) s = .next (aluFrame (· - ·) (4 + b.length sc) sc a b s) := rfl
theorem exec_mul : exec (.mul sc a b) s = .next (aluFrame (· * ·) (4 + b.length sc) sc a b s) := rfl
theorem exec_and : exec (.and sc a b) s = .next (aluFrame (· &&& ·) (4 + b.length sc) sc a b s) := rfl
theorem exec_or : exec (.or sc a b) s = .next (aluFrame (· ||| ·) (4 + b.length sc) sc a b s) := rfl
theorem exec_xor : exec (.xor sc a b) s = .next (aluFrame (· ^^^ ·) (4 + b.length sc) sc a b s) := rfl

variable {s b}

theorem exec_div_of_ne_zero (h : s.aluSource b ≠ 0) :
    exec (.div sc a b) s = .next (aluFrame (· / ·) (4 + b.length sc) sc a b s) := if_neg h

/-- A zero divisor is found after all operand bytes (R124). -/
theorem exec_div_of_eq_zero (h : s.aluSource b = 0) : exec (.div sc a b) s = .next (s.illegalAfter (4 + b.length sc)) := if_pos h

variable {sc a}

/-- An ALU instruction that writes its destination runs some operation in the common frame (R120). -/
theorem exec_alu_eq_aluFrame {i : Instr}
    (hi : i ∈ [Instr.add sc a b, .sub sc a b, .mul sc a b, .div sc a b, .and sc a b, .or sc a b, .xor sc a b])
    (hdiv : i = .div sc a b → s.aluSource b ≠ 0) :
    ∃ op, exec i s = .next (aluFrame op (4 + b.length sc) sc a b s) := by
  simp only [List.mem_cons, List.not_mem_nil, or_false] at hi
  rcases hi with rfl | rfl | rfl | rfl | rfl | rfl | rfl
  · exact ⟨_, exec_add s sc a b⟩
  · exact ⟨_, exec_sub s sc a b⟩
  · exact ⟨_, exec_mul s sc a b⟩
  · exact ⟨_, exec_div_of_ne_zero sc a (hdiv rfl)⟩
  · exact ⟨_, exec_and s sc a b⟩
  · exact ⟨_, exec_or s sc a b⟩
  · exact ⟨_, exec_xor s sc a b⟩

end Instructions

/-! ### The statements -/

/-- Settles O6: the operation is checked before the `io` byte is fetched. -/
theorem reservedAluOperationAborts : Obligations.ReservedAluOperationAborts := by
  intro s opflag op bs hrun hwin hsize hop
  exact stepAborts_of_reject (e := .reservedAluOp) hrun (by rw [hwin, decode_reservedAluOp hsize hop]) nofun

/-- Settles O24: the 32-bit result is exact modulo the word's width, which the size class's width divides. -/
theorem addSubMulResults : Obligations.AddSubMulResults := by
  intro s sc a b
  refine ⟨⟨_, exec_add s sc a b, ?_, aluFrame_rest ..⟩, ⟨_, exec_sub s sc a b, ?_, aluFrame_rest ..⟩,
    ⟨_, exec_mul s sc a b, ?_, aluFrame_rest ..⟩⟩
  · rw [aluFrame_toNat, BitVec.toNat_add, Nat.mod_mod_of_dvd _ sc.width_dvd]
  · have hdvd : (2 : Int) ^ (8 * sc.bytes) ∣ 2 ^ 32 := mod_cast sc.width_dvd
    rw [aluFrame_toNat, Int.natCast_mod, toNat_sub_eq_emod, Nat.cast_pow, Nat.cast_ofNat, Int.emod_emod_of_dvd _ hdvd]
  · rw [aluFrame_toNat, BitVec.toNat_mul, Nat.mod_mod_of_dvd _ sc.width_dvd]

/-- Settles O25, bit by bit. -/
theorem andOrXorResults : Obligations.AndOrXorResults := by
  intro s sc a b
  refine ⟨⟨_, exec_and s sc a b, fun i => ?_, aluFrame_rest ..⟩, ⟨_, exec_or s sc a b, fun i => ?_, aluFrame_rest ..⟩,
    ⟨_, exec_xor s sc a b, fun i => ?_, aluFrame_rest ..⟩⟩
  · rw [aluFrame_getLsbD, BitVec.getLsbD_and]
  · rw [aluFrame_getLsbD, BitVec.getLsbD_or]
  · rw [aluFrame_getLsbD, BitVec.getLsbD_xor]

/-- Settles O26: the divisor decides between the common frame and the abort. -/
theorem divResults : Obligations.DivResults := by
  intro s sc a b
  refine ⟨fun h => ⟨_, exec_div_of_ne_zero sc a h, ?_, aluFrame_rest ..⟩,
    fun h => ⟨_, exec_div_of_eq_zero sc a h, illegalAfter_aborted s _⟩⟩
  rw [aluFrame_toNat, BitVec.toNat_udiv]

/-- Settles O27: the common frame masks whatever operation it runs. -/
theorem aluClearsUpperBits : Obligations.AluClearsUpperBits := by
  intro s t sc a b i hi hdiv ht
  obtain ⟨op, hop⟩ := exec_alu_eq_aluFrame hi hdiv
  rw [hop] at ht
  cases ht
  calc (aluFrame op (4 + b.length sc) sc a b s).x a &&& ~~~ sc.mask
      = op (s.x a) (s.aluSource b) &&& (sc.mask &&& ~~~ sc.mask) := by rw [aluFrame_x_same, BitVec.and_assoc]
    _ = 0 := by rw [BitVec.and_not_self]; exact BitVec.and_zero

end Machine

end Sys2Proof
end

section
/-! The MOV statements: the illegal kind pairs, MOV into a register and MOV into memory (R140 to R146).

The decoder rejects an `io` byte exactly by the kinds it names, so the illegal pairs are classified by kind. A MOV that decodes is
one operand read and one destination write; a write to memory touches nothing of the current context but `flags`. -/

namespace Sys2Proof

/-! ### The kinds of the `io` byte (R75, R81, R141) -/

/-- A kind's nibble is below the reserved ones (R75). -/
theorem Kind.nibble_lt (k : Kind) : k.nibble.toNat < 4 := by cases k <;> decide

theorem Kind.eq_imm_of_nibble {k : Kind} (h : k.nibble.toNat = 3) : k = .imm := by
  cases k
  case imm => rfl
  all_goals exact absurd h (by decide)

/-- Nibbles 1 and 2 are those of the memory kinds (R75, R141). -/
theorem Kind.isMem_of_nibble {k : Kind} (h : k.nibble.toNat ∈ [1, 2]) : k.isMem = true := by
  cases k
  case ind | mem => rfl
  all_goals exact absurd h (by decide)

/-- An `io` byte that decodes holds the nibbles of its two kinds (R75). -/
theorem nibbles_of_decodeKinds {io : Byte} {dk sk : Kind} (h : decodeKinds io = .ok (dk, sk)) :
    lowNibble io = dk.nibble ∧ highNibble io = sk.nibble := by
  obtain ⟨hdk, hsk⟩ := decodeKinds_ok_iff.mp h
  exact ⟨kindOfNibble_eq_some_iff.mp hdk, kindOfNibble_eq_some_iff.mp hsk⟩

/-- The only rejection of an `io` byte by itself is that of a reserved kind (R81). -/
theorem eq_reservedDualKind_of_decodeKinds {io : Byte} {e : DecodeReject} (h : decodeKinds io = .error e) :
    e = .reservedDualKind := by
  rw [decodeKinds] at h
  split at h <;> cases h
  rfl

/-- Two memory operands make a pair of kinds illegal, for MOV as for CMP (R141, R196). -/
theorem cmpLegal_of_isMem {dk sk : Kind} (hd : dk.isMem = true) (hs : sk.isMem = true) : cmpLegal dk sk = false := by
  rw [cmpLegal, hd, hs]
  rfl

/-- A source of any kind may be moved into a register (R141). -/
theorem movLegal_reg (sk : Kind) : movLegal .reg sk = true :=
  movLegal_iff.mpr ⟨nofun, by simp [cmpLegal, Kind.isMem]⟩

/-- A register or an immediate may be moved into memory (R141). -/
theorem movLegal_isMem {dk sk : Kind} (hd : dk.isMem = true) (hs : sk.isMem = false) : movLegal dk sk = true := by
  refine movLegal_iff.mpr ⟨?_, by simp [cmpLegal, hs]⟩
  rintro rfl
  cases hd

/-- MOV rejects an `io` byte that names no legal pair of kinds right after fetching it (R81, R141). -/
theorem decode_illegalMovKinds {opflag io : Byte} (hsize : (lowNibble opflag).toNat < 3)
    (hillegal : ∀ dk sk, decodeKinds io = .ok (dk, sk) → ¬ movLegal dk sk = true) (bs : List Byte) :
    ∃ e, decode (0x02 :: opflag :: io :: bs) = .error e ∧ e.consumed = 3 ∧ e ≠ .truncated := by
  obtain ⟨sc, hsc⟩ := decodeSize_defined hsize
  show ∃ e, decodeMov opflag (io :: bs) = .error e ∧ _
  cases hk : decodeKinds io with
  | error e =>
    cases eq_reservedDualKind_of_decodeKinds hk
    exact ⟨.reservedDualKind, by simp only [decodeMov, hsc, hk, takeByte_cons, ok_bind, error_bind], rfl, nofun⟩
  | ok kinds =>
    obtain ⟨dk, sk⟩ := kinds
    by_cases himm : dk = .imm
    · exact ⟨.immediateDestination, by simp only [decodeMov, hsc, hk, takeByte_cons, ok_bind, if_pos himm], rfl, nofun⟩
    · refine ⟨.memoryMemory, ?_, rfl, nofun⟩
      simp only [decodeMov, hsc, hk, takeByte_cons, ok_bind, if_neg himm, if_neg (hillegal dk sk hk)]

/-- A size class's width is one of the three widths of an access (R46, R72). -/
theorem SizeClass.bytes_mem (sc : SizeClass) : sc.bytes ∈ [1, 2, 4] := by cases sc <;> decide

namespace Machine

/-! ### What an operand adds to an access (R46 to R49, R143) -/

section Access
variable (s : State)

@[simp] theorem readErrorBit_advance (n : Nat) (op : Operand) : (s.advance n).readErrorBit op = s.readErrorBit op := by
  rw [State.readErrorBit, unreadable_advance, State.readErrorBit]

@[simp] theorem readDraws_advance (n : Nat) (sc : SizeClass) (op : Operand) :
    (s.advance n).readDraws sc op = s.readDraws sc op := by
  rw [State.readDraws, unreadable_advance, State.readDraws]

/-- Reading a register or an immediate changes nothing (R106, R107). -/
theorem readOperand_state_of_not_isMem {op : Operand} (h : op.kind.isMem = false) (sc : SizeClass) :
    (s.readOperand sc op).2 = s := by
  cases op with
  | reg r => rfl
  | imm v => rfl
  | ind r => cases h
  | mem A => cases h

@[simp] theorem storeAddress_advance (n : Nat) (op : Operand) : (s.advance n).storeAddress op = s.storeAddress op := by
  cases op <;> simp [State.storeAddress]

variable {s}

/-- An operand with a store address is of a memory kind (R143). -/
theorem isMem_of_storeAddress {op : Operand} {A : Word} (h : s.storeAddress op = some A) : op.kind.isMem = true := by
  cases op with
  | ind r => rfl
  | mem B => rfl
  | reg r => cases h
  | imm v => cases h

/-- A destination with a store address is written there (R143). -/
theorem writeDest_of_storeAddress {op : Operand} {A : Word} (h : s.storeAddress op = some A) (sc : SizeClass) (v : Word) :
    s.writeDest sc v op = s.memWrite A sc.bytes v := by
  cases op with
  | ind r => cases h; rfl
  | mem B => cases h; rfl
  | reg r => cases h
  | imm w => cases h

variable (s) (A : Word) (n : Nat) (v : Word)

/-- A write to memory touches no field of the current context but `flags` (R47, R49). -/
theorem memWrite_own_eq : (s.memWrite A n v).own = { s.own with flags := (s.memWrite A n v).own.flags } := by
  rcases memWrite_cases s A n v with ⟨p, -, h⟩ | ⟨-, h⟩
  · rw [h]
    rfl
  · rw [h, raise_own]

@[simp] theorem memWrite_pc : (s.memWrite A n v).own.pc = s.own.pc := by rw [memWrite_own_eq]
@[simp] theorem memWrite_cmp : (s.memWrite A n v).own.cmp = s.own.cmp := by rw [memWrite_own_eq]
@[simp] theorem memWrite_cp : (s.memWrite A n v).own.cp = s.own.cp := by rw [memWrite_own_eq]
@[simp] theorem memWrite_x (r : Reg) : (s.memWrite A n v).x r = s.x r := by rw [State.x, memWrite_own_eq, own_x]
@[simp] theorem memWrite_f (r : FReg) : (s.memWrite A n v).f r = s.f r := by rw [State.f, memWrite_own_eq, own_f]

/-- A write to memory is no event outside the core and draws nothing (R47, R49). -/
theorem memWrite_sameEvents : s.SameEvents (s.memWrite A n v) := by
  rcases memWrite_cases s A n v with ⟨_, _, h⟩ | ⟨_, h⟩ <;> rw [h] <;> exact ⟨rfl, rfl, rfl⟩

end Access

/-! ### What MOV does to each kind of destination (R143) -/

section Mov
variable (s : State) (sc : SizeClass)

/-- MOV into a register is one operand read and one register write (R143). -/
theorem exec_mov_reg (rd : Reg) (src : Operand) :
    exec (.mov sc (.reg rd) src) s =
      .next (((s.advance (dualLength sc (.reg rd) src)).readOperand sc src).2.setX rd (s.readOperand sc src).1) := by
  rw [exec_mov (dst := .reg rd) (movLegal_reg src.kind), readOperand_advance_value]
  rfl

variable {s}

/-- MOV from a register or an immediate into memory is one write at the store address (R143). -/
theorem exec_mov_memory {dst src : Operand} {A : Word} (hdst : s.storeAddress dst = some A) (hsrc : src.kind.isMem = false) :
    exec (.mov sc dst src) s =
      .next ((s.advance (dualLength sc dst src)).memWrite A sc.bytes (s.readOperand sc src).1) := by
  have hdst' : (s.advance (dualLength sc dst src)).storeAddress dst = some A := by rwa [storeAddress_advance]
  rw [exec_mov (movLegal_isMem (isMem_of_storeAddress hdst) hsrc), readOperand_advance_value,
    readOperand_state_of_not_isMem _ hsrc, writeDest_of_storeAddress hdst']

end Mov

/-! ### The statements -/

/-- Settles O7: none of the statement's `io` bytes names a legal pair of kinds. -/
theorem illegalMovOperandsAbort : Obligations.IllegalMovOperandsAbort := by
  intro s opflag io bs hrun hwin hsize hio
  have hillegal : ∀ dk sk, decodeKinds io = .ok (dk, sk) → ¬ movLegal dk sk = true := by
    intro dk sk hk hlegal
    obtain ⟨hlow, hhigh⟩ := nibbles_of_decodeKinds hk
    obtain ⟨himm, hcmp⟩ := movLegal_iff.mp hlegal
    rw [show io.extractLsb' 0 4 = dk.nibble from hlow, show io.extractLsb' 4 4 = sk.nibble from hhigh] at hio
    rcases hio with hsk | hdk | hdk | ⟨hsk, hdk⟩
    · exact absurd sk.nibble_lt (Nat.not_lt.mpr hsk)
    · exact absurd dk.nibble_lt (Nat.not_lt.mpr hdk)
    · exact himm (Kind.eq_imm_of_nibble hdk)
    · rw [cmpLegal_of_isMem (Kind.isMem_of_nibble hdk) (Kind.isMem_of_nibble hsk)] at hcmp
      cases hcmp
  obtain ⟨e, hdecode, hconsumed, hne⟩ := decode_illegalMovKinds hsize hillegal bs
  rw [← hconsumed]
  exact stepAborts_of_reject hrun (hwin ▸ hdecode) hne

/-- Settles O28: reading the operand adds its flag and its draws, and the write touches only the register. -/
theorem movIntoRegister : Obligations.MovIntoRegister := by
  intro s sc rd src
  have hexec := exec_mov_reg s sc rd src
  have hframe := (exec_effect hexec).frame (xs := [rd]) (fs := [])
    (fun r hr => by simp [setX_x, List.ne_of_not_mem_cons hr]) (by simp)
  exact ⟨_, hexec, setX_x_same _ _ _, by simp, hframe, by simp, by simp, by simp, fun _ => by simp, by simp, by simp, by simp⟩

/-- Settles O29: the write's route decides between the stored bytes and WRITE_ERROR; all else is said of both at once. -/
theorem movIntoMemory : Obligations.MovIntoMemory := by
  intro s sc dst src A hdst hsrc
  have hexec := exec_mov_memory sc hdst hsrc
  have hframe := (exec_effect hexec).frame (xs := []) (fs := []) (by simp) (by simp)
  refine ⟨_, hexec, hframe, by simp, by simp, memWrite_sameEvents _ _ _ _, by simp, fun p hp => ?_, fun hp => ?_⟩
  · rw [← writeRoute_advance s (dualLength sc dst src)] at hp
    obtain ⟨-, m, hm, hstored, hkept⟩ := writeStoresLittleEndian _ A sc.bytes (s.readOperand sc src).1 p sc.bytes_mem hp
    refine ⟨?_, fun a ha => ?_, fun i hi => ?_⟩
    · rw [memWrite_own hp, advance_own]
    · rw [hm, hkept a ha, advance_mem]
    · rw [hm, hstored i hi]
  · rw [memWrite_none (by rwa [writeRoute_advance])]
    exact ⟨by simp [Flag.mask], fun a => rfl⟩

end Machine

end Sys2Proof
end

section
/-! The FPU instruction statements: the reserved encodings, the conversions and the four binary operations as instructions
(R160 to R169).

The decoder rejects a floating-point encoding at one of three places. An instruction that decodes writes one register and may
draw the bytes of an open value. What the operations compute is the matter of the sections below. -/

namespace Sys2Proof

/-! ### Reserved encodings (R160, R167) -/

theorem fregOfNibble_reserved {n : Nibble} (h : 4 ≤ n.toNat) : fregOfNibble n = none := dif_neg (Nat.not_lt.mpr h)

section ReservedFpu
variable {opflag io : Byte}

/-- Sub-ops 3 to 7 are rejected before the `io` byte is looked at (R167). -/
theorem decode_reservedFpuSubOp (h : 3 ≤ (opflag.extractLsb' 0 3).toNat) (bs : List Byte) :
    decode (0x03 :: opflag :: bs) = .error .reservedFpuSubOp := by
  show decodeFpu opflag bs = _
  rw [decodeFpu, if_pos (show 2 < (opflag.extractLsb' 0 3).toNat from h)]

/-- Operations 4 to 31 of the binary sub-op are rejected before the `io` byte is looked at (R167). -/
theorem decode_reservedFpuOp (hsub : (opflag.extractLsb' 0 3).toNat = 2) (h : 4 ≤ (opflag.extractLsb' 3 5).toNat)
    (bs : List Byte) : decode (0x03 :: opflag :: bs) = .error .reservedFpuOp := by
  show decodeFpu opflag bs = _
  rw [decodeFpu, if_neg (by omega), if_pos ⟨hsub, h⟩]

/-- The `io` byte's nibbles that name a floating-point register may not exceed 3: the destination of ITOF, the source of FTOI,
both of a binary operation (R167). -/
theorem decode_reservedFpuRegister
    (h : ((opflag.extractLsb' 0 3).toNat = 0 ∧ 4 ≤ (lowNibble io).toNat) ∨
      ((opflag.extractLsb' 0 3).toNat = 1 ∧ 4 ≤ (highNibble io).toNat) ∨
      ((opflag.extractLsb' 0 3).toNat = 2 ∧ (opflag.extractLsb' 3 5).toNat ≤ 3 ∧
        (4 ≤ (lowNibble io).toNat ∨ 4 ≤ (highNibble io).toNat))) (bs : List Byte) :
    decode (0x03 :: opflag :: io :: bs) = .error .reservedFpuRegister := by
  show decodeFpu opflag (io :: bs) = _
  rw [decodeFpu, if_neg (by omega), if_neg (by omega), takeByte_cons, ok_bind]
  rcases h with ⟨hsub, hd⟩ | ⟨hsub, hr⟩ | ⟨hsub, -, hd | hr⟩
  · simp only [hsub, fregOfNibble_reserved hd]
  · simp only [hsub, fregOfNibble_reserved hr]
  · simp only [hsub, fregOfNibble_reserved hd]
  · simp only [hsub, fregOfNibble_reserved hr]
    cases fregOfNibble (lowNibble io) <;> rfl

end ReservedFpu

namespace Machine

/-- Settles O9: sub-op and operation are checked right after the word, the register indices after the `io` byte. -/
theorem reservedFpuEncodingsAbort : Obligations.ReservedFpuEncodingsAbort := by
  intro s opflag io bs hrun hwin
  refine ⟨?_, fun h => ?_⟩
  · rintro (h | ⟨hsub, h⟩)
    · exact stepAborts_of_reject (e := .reservedFpuSubOp) hrun (by rw [hwin, decode_reservedFpuSubOp h]) nofun
    · exact stepAborts_of_reject (e := .reservedFpuOp) hrun (by rw [hwin, decode_reservedFpuOp hsub h]) nofun
  · exact stepAborts_of_reject (e := .reservedFpuRegister) hrun (by rw [hwin, decode_reservedFpuRegister h]) nofun

/-! ### NaN patterns (R168) -/

/-- A NaN pattern is one that stands for a NaN (R168). -/
theorem isNaN_iff_fpUnpack {w : Word} : isNaN w ↔ fpUnpack w = .nan := by
  have hex : w.extractLsb' 23 8 = 0xFF ↔ (w.extractLsb' 23 8).toNat = 255 := BitVec.toNat_inj.symm
  have hfrac : w.extractLsb' 0 23 = 0 ↔ (w.extractLsb' 0 23).toNat = 0 := BitVec.toNat_inj.symm
  rw [isNaN, ne_eq, hex, hfrac, fpUnpack]
  split_ifs with h255 hzero hsub
  · exact iff_of_false (fun h => h.2 hzero) nofun
  · exact iff_of_true ⟨h255, hzero⟩ rfl
  · exact iff_of_false (fun h => h255 h.1) nofun
  · exact iff_of_false (fun h => h255 h.1) nofun

/-- Every pattern made from a free word is a NaN (R168, U5). -/
theorem isNaN_nanFrom (v : Word) : isNaN (nanFrom v) := by
  refine ⟨?_, ?_⟩
  · rw [nanFrom, extract_or, extract_or]
    calc v.extractLsb' 23 8 ||| 0xFF ||| _ = 0xFF ||| _ := congrArg (· ||| _) BitVec.or_allOnes
      _ = 0xFF := by split <;> rfl
  · rw [nanFrom, extract_or, extract_or, show (0x7F800000 : Word).extractLsb' 0 23 = 0#23 from rfl, BitVec.or_zero]
    split
    next h => rw [h]; decide
    next h => rwa [show (0 : Word).extractLsb' 0 23 = 0#23 from rfl, BitVec.or_zero]

/-- A NaN pattern is the one made from itself, so every NaN pattern comes from some word (R168, U5). -/
theorem nanFrom_of_isNaN {w : Word} (h : isNaN w) : nanFrom w = w := by
  obtain ⟨hex, hfrac⟩ := h
  have hones : ∀ i < 32, (0x7F800000 : Word).getLsbD i = true → 23 ≤ i ∧ i < 31 := by decide
  have hset : ∀ i, 23 ≤ i ∧ i < 31 → w.getLsbD i = true := by
    rintro i ⟨h23, h31⟩
    have hbit : (w.extractLsb' 23 8).getLsbD (i - 23) = (BitVec.allOnes 8).getLsbD (i - 23) := by
      rw [hex]
      rfl
    rwa [BitVec.getLsbD_extractLsb', BitVec.getLsbD_allOnes, decide_eq_true (by omega), Bool.true_and,
      Nat.add_sub_cancel' h23] at hbit
  rw [nanFrom, if_neg hfrac, show (0 : Word) = 0#32 from rfl, BitVec.or_zero]
  refine BitVec.eq_of_getLsbD_eq fun i hi => ?_
  rw [BitVec.getLsbD_or, Bool.or_eq_left_iff_imp]
  exact fun h => hset i (hones i hi h)

/-! ### The instructions (R161 to R166) -/

section Instructions
variable (s : State)

theorem exec_itof (d : FReg) (r : Reg) : exec (.itof d r) s = .next ((s.advance 3).setF d (intToFloat (s.x r))) := rfl

/-- FTOI where the conversion has a value (R162). -/
theorem exec_ftoi_some {r : FReg} {v : Word} (d : Reg) (h : floatToInt (s.f r) = some v) :
    exec (.ftoi d r) s = .next ((s.advance 3).setX d v) := by
  show execFtoi d r s = _
  rw [execFtoi, h]
  rfl

/-- FTOI where the spec gives no value: a free word, whose bytes are drawn (R162, U4). -/
theorem exec_ftoi_none {r : FReg} (d : Reg) (h : floatToInt (s.f r) = none) :
    exec (.ftoi d r) s = .next (((s.advance 3).setX d s.unspecWord).drawn 4) := by
  show execFtoi d r s = _
  rw [execFtoi, h]
  rfl

theorem exec_fadd (d r : FReg) : exec (.fadd d r) s = .next (fpuFrame fpAdd 3 d r s) := rfl
theorem exec_fsub (d r : FReg) : exec (.fsub d r) s = .next (fpuFrame fpSub 3 d r s) := rfl
theorem exec_fmul (d r : FReg) : exec (.fmul d r) s = .next (fpuFrame fpMul 3 d r s) := rfl
theorem exec_fdiv (d r : FReg) : exec (.fdiv d r) s = .next (fpuFrame fpDiv 3 d r s) := rfl

/-- The four binary operations are instructions of one frame (R163 to R166). -/
theorem exec_eq_fpuFrame {d r : FReg} {i : Instr} {op : Word → Word → FpResult}
    (h : (i, op) ∈ [(Instr.fadd d r, fpAdd), (.fsub d r, fpSub), (.fmul d r, fpMul), (.fdiv d r, fpDiv)]) :
    exec i s = .next (fpuFrame op 3 d r s) := by
  simp only [List.mem_cons, Prod.mk.injEq, List.not_mem_nil, or_false] at h
  rcases h with ⟨rfl, rfl⟩ | ⟨rfl, rfl⟩ | ⟨rfl, rfl⟩ | ⟨rfl, rfl⟩
  · exact exec_fadd s d r
  · exact exec_fsub s d r
  · exact exec_fmul s d r
  · exact exec_fdiv s d r

end Instructions

section Frame
variable (op : Word → Word → FpResult) (n : Nat) (d r : FReg) (s : State)

theorem fpuFrame_f_same : (fpuFrame op n d r s).f d = (op (s.f d) (s.f r)).value s.unspecWord := setF_f_same _ _ _

theorem fpuFrame_draws : (fpuFrame op n d r s).draws = s.draws + (op (s.f d) (s.f r)).drawCount := rfl

theorem fpuFrame_frame : s.Frame [] [d] (fpuFrame op n d r s) :=
  (fpuFrame_effect s op n d r).frame (fun _ _ => by simp [fpuFrame])
    fun q hq => by simp [fpuFrame, setF_f, List.ne_of_not_mem_cons hq]

end Frame

/-- Settles O32: one register is written, from a conversion that has a value. -/
theorem conversionResults : Obligations.ConversionResults := by
  intro s
  refine ⟨fun d r => ?_, fun d r v hv => ?_⟩
  · have hexec := exec_itof s d r
    refine ⟨_, hexec, setF_f_same _ _ _, by simp, (exec_effect hexec).frame (by simp) fun q hq => ?_, ?_⟩
    · simp [setF_f, List.ne_of_not_mem_cons hq]
    · exact ⟨by simp, by simp, by simp, fun _ => rfl, rfl, rfl, rfl⟩
  · have hexec := exec_ftoi_some s d hv
    refine ⟨_, hexec, setX_x_same _ _ _, by simp, (exec_effect hexec).frame (fun q hq => ?_) (by simp), ?_⟩
    · simp [setX_x, List.ne_of_not_mem_cons hq]
    · exact ⟨by simp, by simp, by simp, fun _ => rfl, rfl, rfl, rfl⟩

/-- Settles O33: a drawn word is written like a converted one. -/
theorem ftoiOutOfRangeCompletes : Obligations.FtoiOutOfRangeCompletes := by
  intro s d r hnone
  have hexec := exec_ftoi_none s d hnone
  have hframe : s.Frame [d] [] (((s.advance 3).setX d s.unspecWord).drawn 4) :=
    (exec_effect hexec).frame (fun q hq => by simp [setX_x, List.ne_of_not_mem_cons hq]) (by simp)
  exact ⟨_, hexec, by simp, hframe, by simp, by simp, by simp, fun _ => rfl, rfl, rfl, rfl⟩

/-- Settles O34: the result decides between the pattern and a NaN made from the bytes drawn. -/
theorem floatInstructionResults : Obligations.FloatInstructionResults := by
  intro s d r i op hi
  refine ⟨_, exec_eq_fpuFrame s hi, by simp [fpuFrame], fpuFrame_frame .., by simp [fpuFrame], by simp [fpuFrame],
    by simp [fpuFrame], fun _ => rfl, rfl, rfl, fun w hw => ?_, fun hnan => ?_⟩
  · rw [fpuFrame_f_same, fpuFrame_draws, hw]
    exact ⟨rfl, rfl⟩
  · rw [fpuFrame_f_same, fpuFrame_draws, hnan]
    exact ⟨isNaN_nanFrom _, rfl⟩

end Machine

end Sys2Proof
end

section
/-! Rounding to binary32: what the finite patterns stand for, and that `fpRound` gives the nearest of them (R168).

A place of exponent `t` is worth `2^t`. The magnitude bits of `n` places of exponent `t`, read as one number, are
`(t + 149) * 2^23 + n`, also where `n = 2^24` carries into the exponent. A finite value is an integer number of places of any
exponent not above its own, and a value of lower exponent lies below the binade that is rounded. So rounding to the nearest
integer number of places is rounding to the nearest finite value. -/

namespace Sys2Proof.Machine

/-! ### The nearest integer, ties to even -/

/-- `n` is an integer nearest to `z`, an even one if there are two. -/
def NearestInt (z : ℚ) (n : ℤ) : Prop := |n - z| ≤ 1 / 2 ∧ (|n - z| = 1 / 2 → Even n)

section NearestInt
variable {z : ℚ} {n : ℤ}

/-- Two different integers are at least 1 apart, so their distances from `z` sum up to at least 1. -/
theorem one_le_dist_add_dist {k : ℤ} (h : k ≠ n) : 1 ≤ |k - z| + |n - z| := by
  have hone : (1 : ℚ) ≤ |(k : ℚ) - n| := mod_cast Int.one_le_abs (sub_ne_zero.mpr h)
  calc (1 : ℚ) ≤ |(k : ℚ) - n| := hone
    _ ≤ |k - z| + |z - n| := abs_sub_le _ _ _
    _ = |k - z| + |n - z| := by rw [abs_sub_comm z]

theorem NearestInt.dist_le (h : NearestInt z n) (k : ℤ) : |n - z| ≤ |k - z| := by
  by_cases hk : k = n
  · rw [hk]
  · linarith [one_le_dist_add_dist (z := z) hk, h.1]

theorem NearestInt.eq_or_even (h : NearestInt z n) {k : ℤ} (hk : |k - z| = |n - z|) : k = n ∨ Even n := by
  by_cases hne : k = n
  · exact .inl hne
  · exact .inr (h.2 (by linarith [one_le_dist_add_dist (z := z) hne, h.1]))

theorem NearestInt.le (h : NearestInt z n) {k : ℤ} (hk : z ≤ k) : n ≤ k := by
  have hdist := h.dist_le k
  rw [abs_of_nonneg (sub_nonneg.mpr hk)] at hdist
  exact_mod_cast (by linarith [le_abs_self (n - z)] : (n : ℚ) ≤ k)

theorem NearestInt.ge (h : NearestInt z n) {k : ℤ} (hk : k ≤ z) : k ≤ n := by
  have hdist := h.dist_le k
  rw [abs_sub_comm (k : ℚ), abs_of_nonneg (sub_nonneg.mpr hk)] at hdist
  exact_mod_cast (by linarith [neg_abs_le (n - z)] : (k : ℚ) ≤ n)

/-- An odd bound is passed exactly from half a place below the next integer on. -/
theorem NearestInt.lt_iff (h : NearestInt z n) {k : ℤ} (hk : ¬ Even k) : k < n ↔ (k : ℚ) + 1 / 2 ≤ z := by
  obtain ⟨hdist, htie⟩ := h
  obtain ⟨hlow, hhigh⟩ := abs_le.mp hdist
  constructor
  · intro hlt
    have : (k : ℚ) + 1 ≤ n := mod_cast hlt
    linarith
  · intro hz
    by_contra hle
    have hnk : (n : ℚ) ≤ k := mod_cast not_lt.mp hle
    have heq : n = k := by exact_mod_cast (by linarith : (n : ℚ) = k)
    refine hk (heq ▸ htie ?_)
    rw [abs_sub_comm, abs_of_nonneg (by linarith)]
    linarith

theorem nearestInt_self (n : ℤ) : NearestInt n n := by simp [NearestInt]

/-- The nearest integer to a quotient, without the division. -/
theorem nearestInt_div_iff {y D : ℚ} (hD : 0 < D) :
    NearestInt (y / D) n ↔ |n * D - y| ≤ D / 2 ∧ (|n * D - y| = D / 2 → Even n) := by
  have hdist : |n * D - y| = |n - y / D| * D := by
    rw [← abs_of_pos hD, ← abs_mul, abs_of_pos hD, sub_mul, div_mul_cancel₀ _ hD.ne']
  have hhalf : D / 2 = 1 / 2 * D := by ring
  rw [NearestInt, hdist, hhalf, mul_le_mul_iff_left₀ hD, mul_left_inj' hD.ne']

end NearestInt

/-! ### Shifting right (R168) -/

/-- `m` and the sticky bit say what is known of the exact value `y`: it is `m`, or lies strictly between `m` and `m + 1`. -/
structure Approximates (y : ℚ) (m : Nat) (sticky : Bool) : Prop where
  exact : sticky = false → y = m
  inexact : sticky = true → (m : ℚ) < y ∧ y < m + 1

theorem Approximates.bounds {y : ℚ} {m : Nat} {sticky : Bool} (h : Approximates y m sticky) : (m : ℚ) ≤ y ∧ y < m + 1 := by
  cases sticky with
  | false => rw [h.exact rfl]; exact ⟨le_rfl, lt_add_one _⟩
  | true => exact (h.inexact rfl).imp_left le_of_lt

/-- The integer nearest to `(q * D + r) / D` for an even `D = 2 * H`: the remainder against the half decides, and at the half
the sticky bit, then evenness. -/
theorem nearestInt_of_remainder {y : ℚ} {q r H : Nat} {sticky : Bool} (h : Approximates y (q * (2 * H) + r) sticky)
    (hr : r < 2 * H) :
    NearestInt (y / (2 * H)) ((if H < r ∨ (r = H ∧ (sticky = true ∨ q % 2 = 1)) then q + 1 else q : Nat) : ℤ) := by
  have hH : (0 : ℚ) < H := by exact_mod_cast (by omega : 0 < H)
  have hr' : (r : ℚ) + 1 ≤ 2 * H := mod_cast hr
  obtain ⟨hlow, hhigh⟩ := h.bounds
  push_cast at hlow hhigh
  rw [nearestInt_div_iff (by positivity)]
  split
  next hup =>
    have hle : (H : ℚ) ≤ r := by exact_mod_cast (by omega : H ≤ r)
    push_cast
    rw [abs_of_pos (by linarith)]
    refine ⟨by linarith, fun htie => ?_⟩
    -- at the tie the value is the half exactly
    have hrH : r = H := le_antisymm (by exact_mod_cast (by linarith : (r : ℚ) ≤ H)) (mod_cast hle)
    rcases hup with hlt | ⟨-, hsticky | hodd⟩
    · omega
    · have hlt := (h.inexact hsticky).1
      push_cast at hlt
      linarith
    · exact_mod_cast (show Even (q + 1) from Nat.even_iff.mpr (by omega))
  next hdown =>
    rw [abs_sub_comm, abs_of_nonneg (by push_cast; linarith)]
    by_cases hlt : r < H
    · have hlt' : (r : ℚ) + 1 ≤ H := mod_cast hlt
      push_cast
      exact ⟨by linarith, fun _ => by linarith⟩
    · obtain ⟨hrH, hexact, heven⟩ : r = H ∧ sticky = false ∧ q % 2 = 0 := by
        cases sticky <;> simp at hdown ⊢ <;> omega
      subst hexact
      have hy := h.exact rfl
      rw [hy, hrH]
      push_cast
      exact ⟨by linarith, fun _ => mod_cast Nat.even_iff.mpr heven⟩

/-- Dropping `k` bits rounds to nearest, ties to even; no bits are dropped only from an exact value (R168). -/
theorem roundShift_nearest {y : ℚ} {m : Nat} {sticky : Bool} (h : Approximates y m sticky) (k : Nat)
    (hk : sticky = true → 0 < k) : NearestInt (y / 2 ^ k) (roundShift m k sticky) := by
  cases k with
  | zero =>
    obtain rfl : sticky = false := by simpa using hk
    have hy := h.exact rfl
    simp [NearestInt, roundShift, Nat.mod_one, hy]
  | succ k =>
    have hhalf : 2 ^ (k + 1) / 2 = 2 ^ k := by rw [pow_succ, Nat.mul_div_cancel _ two_pos]
    have hround := nearestInt_of_remainder (y := y) (q := m / 2 ^ (k + 1)) (r := m % 2 ^ (k + 1)) (H := 2 ^ k)
      (sticky := sticky) (by rwa [← pow_succ', Nat.div_add_mod']) (by rw [← pow_succ']; exact Nat.mod_lt _ (by positivity))
    rw [Nat.cast_pow, Nat.cast_ofNat, ← pow_succ'] at hround
    simpa only [roundShift, hhalf, Nat.shiftRight_eq_div_pow, Nat.succ_pos, true_and] using hround

/-! ### Patterns by their magnitude bits (R168) -/

section Pack
variable {neg : Bool} {B : Nat}

theorem toNat_fpPack (hB : B < 2 ^ 31) : (fpPack neg B).toNat = (if neg then 2 ^ 31 else 0) + B := by
  rw [fpPack, BitVec.toNat_ofNat, Nat.mod_eq_of_lt]
  all_goals cases neg <;> simp <;> omega

theorem getLsbD_fpPack_sign (hB : B < 2 ^ 31) : (fpPack neg B).getLsbD 31 = neg := by
  have hmsb : (fpPack neg B).getLsbD 31 = decide (2 ^ 31 ≤ (fpPack neg B).toNat) := by
    simpa [BitVec.msb, BitVec.getMsbD] using BitVec.msb_eq_decide (fpPack neg B)
  rw [hmsb, toNat_fpPack hB]
  cases neg with
  | false => simpa using hB
  | true => simp

theorem getLsbD_fpPack_zero (hB : B < 2 ^ 31) : (fpPack neg B).getLsbD 0 = decide (B % 2 = 1) := by
  rw [BitVec.getLsbD, toNat_fpPack hB, Nat.testBit_zero]
  cases neg
  · simp
  · simp only [if_true]
    congr 2
    omega

/-- The exponent and the fraction bits of a pattern are its magnitude bits, cut at bit 23 (R168). -/
theorem fields_fpPack (hB : B < 2 ^ 31) : ((fpPack neg B).extractLsb' 23 8).toNat = B / 2 ^ 23 ∧
    ((fpPack neg B).extractLsb' 0 23).toNat = B % 2 ^ 23 := by
  rw [BitVec.extractLsb'_toNat, BitVec.extractLsb'_toNat, toNat_fpPack hB, Nat.shiftRight_eq_div_pow, Nat.shiftRight_zero]
  cases neg <;> simp <;> omega

/-- Magnitude bits below 2^23 are those of a subnormal number or a zero (R168). -/
theorem fpUnpack_fpPack_subnormal (hB : B < 2 ^ 23) : fpUnpack (fpPack neg B) = .finite neg B (-149) := by
  obtain ⟨hex, hfrac⟩ := fields_fpPack (neg := neg) (show B < 2 ^ 31 by omega)
  simp only [fpUnpack, hex, hfrac, getLsbD_fpPack_sign (show B < 2 ^ 31 by omega)]
  rw [if_neg (by omega), if_pos (by omega), Nat.mod_eq_of_lt hB]

/-- Magnitude bits from 2^23 on, below those of an infinity, are those of a normal number (R168). -/
theorem fpUnpack_fpPack_normal (hlow : 2 ^ 23 ≤ B) (hhigh : B < fpInfBits) :
    fpUnpack (fpPack neg B) = .finite neg (2 ^ 23 + B % 2 ^ 23) ((B / 2 ^ 23 : Nat) - 150) := by
  rw [fpInfBits] at hhigh
  obtain ⟨hex, hfrac⟩ := fields_fpPack (neg := neg) (show B < 2 ^ 31 by omega)
  simp only [fpUnpack, hex, hfrac, getLsbD_fpPack_sign (show B < 2 ^ 31 by omega)]
  rw [if_neg (by omega), if_neg (by omega)]
  rfl

/-- The magnitude bits of `n` places of exponent `t` (R168). -/
def placeBits (t : ℤ) (n : Nat) : Nat := (t + 149).toNat * 2 ^ 23 + n

/-- Below the magnitude bits of an infinity, those of `n` places of exponent `t` stand for `n * 2^t`, where `n` fills the
significand or `t` is the exponent of the subnormals; `n = 2^24` is 2^23 places of the next exponent. -/
theorem fpUnpack_fpPack_placeBits {t : ℤ} {n : Nat} (ht : -149 ≤ t) (hn : n ≤ 2 ^ 24) (hnorm : t = -149 ∨ 2 ^ 23 ≤ n)
    (hfin : placeBits t n < fpInfBits) :
    ∃ m e, fpUnpack (fpPack neg (placeBits t n)) = .finite neg m e ∧ (m : ℚ) * 2 ^ e = n * 2 ^ t := by
  obtain ⟨k, hk⟩ := Int.eq_ofNat_of_zero_le (show 0 ≤ t + 149 by omega)
  obtain rfl : t = k - 149 := by omega
  have hbits : placeBits ((k : ℤ) - 149) n = k * 2 ^ 23 + n := by rw [placeBits, hk]; rfl
  rw [hbits] at hfin ⊢
  rcases lt_or_ge n (2 ^ 23) with hsub | hfull
  · obtain rfl : k = 0 := by omega
    exact ⟨n, -149, by simpa using fpUnpack_fpPack_subnormal hsub, by norm_num⟩
  rw [fpUnpack_fpPack_normal (by omega) hfin]
  refine ⟨_, _, rfl, ?_⟩
  rcases hn.lt_or_eq with hlt | rfl
  · rw [show (k * 2 ^ 23 + n) % 2 ^ 23 = n - 2 ^ 23 by omega, show (k * 2 ^ 23 + n) / 2 ^ 23 = k + 1 by omega,
      Nat.add_sub_cancel' hfull]
    congr 2
    push_cast
    ring
  · rw [show (k * 2 ^ 23 + 2 ^ 24) % 2 ^ 23 = 0 by omega, show (k * 2 ^ 23 + 2 ^ 24) / 2 ^ 23 = k + 2 by omega]
    have he : (((k + 2 : Nat) : ℤ) - 150) = (k - 149) + 1 := by push_cast; ring
    rw [he, zpow_add_one₀ two_ne_zero]
    push_cast
    ring

end Pack

/-! ### What the finite patterns stand for (R168) -/

/-- A magnitude with a sign. -/
def applySign (neg : Bool) (x : ℚ) : ℚ := if neg then -x else x

section Sign
variable (neg : Bool) (x y : ℚ)

@[simp] theorem abs_applySign : |applySign neg x| = |x| := by cases neg <;> simp [applySign]

@[simp] theorem applySign_eq_zero : applySign neg x = 0 ↔ x = 0 := by cases neg <;> simp [applySign]

@[simp] theorem applySign_applySign : applySign neg (applySign neg x) = x := by cases neg <;> simp [applySign]

theorem applySign_sub : applySign neg x - applySign neg y = applySign neg (x - y) := by
  cases neg <;> simp [applySign, neg_add_eq_sub]

/-- The sign of a positive magnitude is that of the number. -/
theorem applySign_lt_zero_iff {x : ℚ} (h : 0 < x) : applySign neg x < 0 ↔ neg = true := by
  cases neg <;> simp [applySign, h, h.le]

theorem applySign_mul (neg' : Bool) : applySign neg x * applySign neg' y = applySign (neg != neg') (x * y) := by
  cases neg <;> cases neg' <;> simp [applySign]

theorem applySign_div (neg' : Bool) : applySign neg x / applySign neg' y = applySign (neg != neg') (x / y) := by
  cases neg <;> cases neg' <;> simp [applySign, neg_div, div_neg]

end Sign

theorem cast_signedMagnitude (neg : Bool) (m : Nat) : (signedMagnitude neg m : ℚ) = applySign neg m := by
  cases neg <;> simp [signedMagnitude, applySign]

/-- A finite pattern stands for its magnitude with its sign (R168). -/
theorem fpRat_eq_applySign {w : Word} {neg : Bool} {m : Nat} {e : ℤ} (h : fpUnpack w = .finite neg m e) :
    fpRat w = applySign neg (m * 2 ^ e) := by
  rw [fpRat_finite h, cast_signedMagnitude]
  cases neg <;> simp [applySign]

theorem abs_signedMagnitude (neg : Bool) (m : Nat) : |signedMagnitude neg m| = m := by
  cases neg <;> simp [signedMagnitude]

/-- The significand of a finite pattern has at most 24 bits, and its exponent is not below that of the subnormals (R168). -/
theorem finite_bounds {w : Word} {neg : Bool} {m : Nat} {e : ℤ} (h : fpUnpack w = .finite neg m e) : m < 2 ^ 24 ∧ -149 ≤ e := by
  have hfrac := (w.extractLsb' 0 23).isLt
  simp only [fpUnpack] at h
  split at h
  · split at h <;> cases h
  · split at h <;> cases h <;> omega

/-- A number with a significand of at most 24 bits, at an exponent not below that of the subnormals. -/
def Representable (q : ℚ) : Prop := ∃ (k e : ℤ), |k| < 2 ^ 24 ∧ -149 ≤ e ∧ q = k * 2 ^ e

theorem Representable.applySign {q : ℚ} (h : Representable q) (neg : Bool) : Representable (applySign neg q) := by
  cases neg with
  | false => exact h
  | true =>
    obtain ⟨k, e, hk, he, rfl⟩ := h
    exact ⟨-k, e, by rwa [abs_neg], he, by simp [Machine.applySign]⟩

/-- Finite patterns stand for representable numbers (R168). -/
theorem representable_fpRat {w : Word} (h : fpFinite w) : Representable (fpRat w) := by
  obtain ⟨neg, m, e, hw⟩ := h
  obtain ⟨hm, he⟩ := finite_bounds hw
  exact ⟨signedMagnitude neg m, e, by rw [abs_signedMagnitude]; exact_mod_cast hm, he, fpRat_finite hw⟩

/-! ### Rounding to places of one exponent (R168) -/

/-- A place is 2^d of the places whose exponent is lower by `d`. -/
theorem two_zpow_add (t : ℤ) (d : Nat) : (2 : ℚ) ^ (t + d) = ((2 ^ d : ℤ) : ℚ) * 2 ^ t := by
  rw [zpow_add₀ two_ne_zero, zpow_natCast, mul_comm]
  push_cast
  rfl

section Nearest
variable {t n : ℤ} {x : ℚ}

theorem abs_places_sub (j : ℤ) : |j * 2 ^ t - x| = |j - x / 2 ^ t| * 2 ^ t := by
  have hp : (0 : ℚ) < 2 ^ t := by positivity
  rw [← abs_of_pos hp, ← abs_mul, abs_of_pos hp, sub_mul, div_mul_cancel₀ _ hp.ne']

theorem NearestInt.places_dist_le (hn : NearestInt (x / 2 ^ t) n) (j : ℤ) : |n * 2 ^ t - x| ≤ |j * 2 ^ t - x| := by
  rw [abs_places_sub, abs_places_sub]
  exact mul_le_mul_of_nonneg_right (hn.dist_le j) (by positivity)

/-- An integer number of places nearest to `x` is as near as any representable number, if `x` fills the significand at the
places' exponent or that exponent is the lowest; one equally near differs only if the number of places is even. -/
theorem NearestInt.nearest_representable (hn : NearestInt (x / 2 ^ t) n) (hlow : t = -149 ∨ 2 ^ (t + 23) ≤ x) {q : ℚ}
    (hq : Representable q) : |n * 2 ^ t - x| ≤ |q - x| ∧ (|q - x| = |n * 2 ^ t - x| → q = n * 2 ^ t ∨ Even n) := by
  obtain ⟨k, e, hk, he, rfl⟩ := hq
  rcases le_or_gt t e with hte | hte
  · -- the number is an integer number of places too
    obtain ⟨d, rfl⟩ := Int.le.dest hte
    rw [two_zpow_add, ← mul_assoc, ← Int.cast_mul]
    refine ⟨hn.places_dist_le _, fun htie => ?_⟩
    rw [abs_places_sub, abs_places_sub, mul_left_inj' (by positivity)] at htie
    exact (hn.eq_or_even htie).imp_left (congrArg fun j : ℤ => (j : ℚ) * 2 ^ t)
  · -- the number lies below the binade of `x`, whose lower end is nearer and an integer number of places
    have hx : (2 : ℚ) ^ (t + 23) ≤ x := hlow.resolve_left (by omega)
    have hbelow : (k : ℚ) * 2 ^ e < 2 ^ (t + 23) := by
      calc (k : ℚ) * 2 ^ e < ((2 ^ 24 : ℤ) : ℚ) * 2 ^ e :=
            mul_lt_mul_of_pos_right (by exact_mod_cast (abs_lt.mp hk).2) (by positivity)
        _ = 2 ^ (e + 24) := (two_zpow_add e 24).symm
        _ ≤ 2 ^ (t + 23) := zpow_le_zpow_right₀ one_le_two (by omega)
    have hnear : |n * 2 ^ t - x| ≤ x - 2 ^ (t + 23) := by
      rw [← abs_of_nonneg (sub_nonneg.mpr hx), abs_sub_comm x]
      exact (hn.places_dist_le (2 ^ 23)).trans_eq (by rw [← two_zpow_add]; rfl)
    rw [abs_sub_comm (k * 2 ^ e : ℚ), abs_of_pos (by linarith : 0 < x - k * 2 ^ e)]
    exact ⟨by linarith, fun htie => by linarith⟩

end Nearest

section Places
variable {t : ℤ} {n : Nat} {x : ℚ}

/-- The number of places stays within one significand, the carry included. -/
theorem places_le (hhigh : x < 2 ^ (t + 24)) (hn : NearestInt (x / 2 ^ t) n) : n ≤ 2 ^ 24 := by
  have hz : x / 2 ^ t ≤ ((2 ^ 24 : ℤ) : ℚ) := by
    rw [div_le_iff₀ (by positivity), ← two_zpow_add]
    exact hhigh.le
  exact_mod_cast hn.le hz

theorem le_places (hlow : 2 ^ (t + 23) ≤ x) (hn : NearestInt (x / 2 ^ t) n) : 2 ^ 23 ≤ n := by
  have hz : ((2 ^ 23 : ℤ) : ℚ) ≤ x / 2 ^ t := by
    rw [le_div_iff₀ (by positivity), ← two_zpow_add]
    exact hlow
  exact_mod_cast hn.ge hz

/-- The magnitude bits reach those of an infinity exactly from half a place beyond the largest finite number on (R168). -/
theorem fpInfBits_le_placeBits_iff (ht : -149 ≤ t) (hlow : t = -149 ∨ 2 ^ (t + 23) ≤ x) (hhigh : x < 2 ^ (t + 24))
    (hn : NearestInt (x / 2 ^ t) n) : fpInfBits ≤ placeBits t n ↔ (2 ^ 128 - 2 ^ 103 : ℚ) ≤ x := by
  have hle := places_le hhigh hn
  rw [placeBits, fpInfBits]
  rcases lt_trichotomy t 104 with hsmall | rfl | hlarge
  · have hx : x < 2 ^ 127 := hhigh.trans_le (by
      rw [← zpow_natCast]
      exact zpow_le_zpow_right₀ one_le_two (by push_cast; omega))
    exact iff_of_false (by omega) (by norm_num at hx ⊢; linarith)
  · have hiff := hn.lt_iff (k := 2 ^ 24 - 1) (by decide)
    rw [le_div_iff₀ (by positivity)] at hiff
    norm_num at hiff ⊢
    rw [← hiff]
    omega
  · have hx := hlow.resolve_left (by omega)
    have hge := le_places hx hn
    have hx' : (2 : ℚ) ^ 128 ≤ x := le_trans (by
      rw [← zpow_natCast]
      exact zpow_le_zpow_right₀ one_le_two (by push_cast; omega)) hx
    exact iff_of_true (by omega) (by linarith [show (0 : ℚ) ≤ 2 ^ 103 by positivity])

/-- A pattern that stands for the nearest number of places is a nearest one (R168). -/
theorem nearestEven_places {neg : Bool} {w : Word} (hlow : t = -149 ∨ 2 ^ (t + 23) ≤ x) (hn : NearestInt (x / 2 ^ t) n)
    (hfinite : fpFinite w) (hval : fpRat w = applySign neg (n * 2 ^ t)) (heven : Even n → w.getLsbD 0 = false) :
    NearestEven (applySign neg x) w := by
  refine ⟨hfinite, fun u hu => ?_⟩
  obtain ⟨hdist, htie⟩ := hn.nearest_representable hlow ((representable_fpRat hu).applySign neg)
  have hw : |fpRat w - applySign neg x| = |n * 2 ^ t - x| := by rw [hval, applySign_sub, abs_applySign]
  have hu : |fpRat u - applySign neg x| = |applySign neg (fpRat u) - x| := by
    rw [← abs_applySign neg, ← applySign_sub, applySign_applySign]
  rw [hw, hu]
  refine ⟨hdist, fun h => ?_⟩
  rcases htie h with heq | hparity
  · exact .inl (by rw [hval, ← Int.cast_natCast, ← heq, applySign_applySign])
  · exact .inr (heven (mod_cast hparity))

/-- The pattern of the nearest number of places, or an infinity where its magnitude bits are too large, is the rounded one
(R168). -/
theorem roundedTo_places (neg : Bool) (ht : -149 ≤ t) (hx : 0 ≤ x) (hlow : t = -149 ∨ 2 ^ (t + 23) ≤ x)
    (hhigh : x < 2 ^ (t + 24)) (hn : NearestInt (x / 2 ^ t) n) :
    RoundedTo (applySign neg x) (fpPack neg (if fpInfBits ≤ placeBits t n then fpInfBits else placeBits t n)) := by
  have hover := fpInfBits_le_placeBits_iff ht hlow hhigh hn
  have habs : |applySign neg x| = x := by rw [abs_applySign, abs_of_nonneg hx]
  have hsign : applySign neg x ≠ 0 → (neg = true ↔ applySign neg x < 0) := by
    intro hne
    have hpos : 0 < x := hx.lt_of_ne' fun h => hne ((applySign_eq_zero neg x).mpr h)
    exact (applySign_lt_zero_iff neg hpos).symm
  by_cases hinf : fpInfBits ≤ placeBits t n
  · have hnot : ¬ fpFinite (fpPack neg fpInfBits) := not_fpFinite_of_inf (fpUnpack_inf neg)
    have hbit : (fpPack neg fpInfBits).getLsbD 31 = neg := getLsbD_fpPack_sign (show 0x7F800000 < 2 ^ 31 by norm_num)
    rw [if_pos hinf]
    refine ⟨fun h => absurd h hnot, ?_, fun _ => ?_, ?_⟩
    · rw [habs]
      exact iff_of_true hnot (hover.mp hinf)
    · rw [fpUnpack_inf, hbit]
    · rwa [hbit]
  · have hlt : placeBits t n < fpInfBits := not_le.mp hinf
    have hsmall : placeBits t n < 2 ^ 31 := hlt.trans (show 0x7F800000 < 2 ^ 31 by norm_num)
    obtain ⟨m, e, hw, hval⟩ := fpUnpack_fpPack_placeBits (neg := neg) ht (places_le hhigh hn)
      (hlow.imp_right fun h => le_places h hn) hlt
    have hfinite : fpFinite (fpPack neg (placeBits t n)) := ⟨_, _, _, hw⟩
    rw [if_neg hinf]
    refine ⟨fun _ => nearestEven_places hlow hn hfinite ?_ fun h => ?_, ?_, fun h => absurd hfinite h, ?_⟩
    · rw [fpRat_eq_applySign hw, hval]
    · have hmod := Nat.even_iff.mp h
      rw [getLsbD_fpPack_zero hsmall, placeBits]
      exact decide_eq_false (by omega)
    · rw [habs]
      exact iff_of_false (not_not_intro hfinite) fun h => hinf (hover.mpr h)
    · rwa [getLsbD_fpPack_sign hsmall]

end Places

/-! ### `fpRound` (R168) -/

/-- The number of places of the last place's exponent that `fpRound` rounds `m * 2^e` to. -/
def roundedPlaces (m : Nat) (e : ℤ) (sticky : Bool) : Nat :=
  if e ≤ ulpExponent m e then roundShift m (ulpExponent m e - e).toNat sticky else m <<< (e - ulpExponent m e).toNat

theorem fpRound_of_ne_zero {m : Nat} (hm : m ≠ 0) (neg : Bool) (e : ℤ) (sticky : Bool) : fpRound neg m e sticky =
    fpPack neg (if fpInfBits ≤ placeBits (ulpExponent m e) (roundedPlaces m e sticky) then fpInfBits
      else placeBits (ulpExponent m e) (roundedPlaces m e sticky)) := by
  rw [fpRound, if_neg hm]
  rfl

section Magnitude
variable {y : ℚ} {m : Nat} {sticky : Bool}

/-- The last place is that of the binade of the magnitude, or that of the subnormals (R168). -/
theorem ulpExponent_bounds (hy : Approximates y m sticky) (hm : m ≠ 0) (e : ℤ) :
    (ulpExponent m e = -149 ∨ (2 : ℚ) ^ (ulpExponent m e + 23) ≤ y * 2 ^ e) ∧ y * 2 ^ e < 2 ^ (ulpExponent m e + 24) := by
  obtain ⟨hylow, hyhigh⟩ := hy.bounds
  have hlow : ((2 ^ m.log2 : ℤ) : ℚ) ≤ y := le_trans (mod_cast Nat.log2_self_le hm) hylow
  have hhigh : y < ((2 ^ (m.log2 + 1) : ℤ) : ℚ) := hyhigh.trans_le (mod_cast Nat.lt_log2_self)
  refine ⟨?_, ?_⟩
  · rcases max_choice (e + (m.log2 : ℤ) - 23) (-149) with h | h
    · refine .inr ?_
      rw [ulpExponent, h, sub_add_cancel, two_zpow_add]
      exact mul_le_mul_of_nonneg_right hlow (by positivity)
    · exact .inl h
  · calc y * 2 ^ e < ((2 ^ (m.log2 + 1) : ℤ) : ℚ) * 2 ^ e := mul_lt_mul_of_pos_right hhigh (by positivity)
      _ = 2 ^ (e + (m.log2 + 1 : Nat)) := (two_zpow_add _ _).symm
      _ ≤ 2 ^ (ulpExponent m e + 24) := zpow_le_zpow_right₀ one_le_two (by rw [ulpExponent]; omega)

/-- The number of places is the nearest one to the exact value. -/
theorem roundedPlaces_nearest (hy : Approximates y m sticky) (hlong : sticky = true → 2 ^ 24 ≤ m) (e : ℤ) :
    NearestInt (y * 2 ^ e / 2 ^ ulpExponent m e) (roundedPlaces m e sticky) := by
  have hdrop (h : sticky = true) : e < ulpExponent m e := by
    have hlog : 24 ≤ m.log2 := (Nat.le_log2 (by have := hlong h; omega)).mpr (hlong h)
    rw [ulpExponent]
    omega
  rw [roundedPlaces]
  generalize ulpExponent m e = t at hdrop ⊢
  rcases le_or_gt e t with hle | hlt
  · obtain ⟨d, rfl⟩ := Int.le.dest hle
    have hz : y * 2 ^ e / 2 ^ (e + (d : ℤ)) = y / 2 ^ d := by
      rw [two_zpow_add, mul_div_mul_right _ _ (by positivity)]
      push_cast
      rfl
    rw [if_pos hle, hz, add_sub_cancel_left, Int.toNat_natCast]
    exact roundShift_nearest hy d fun h => by have := hdrop h; omega
  · obtain rfl : sticky = false := by
      cases sticky with
      | false => rfl
      | true => exact absurd (hdrop rfl) hlt.not_gt
    obtain rfl := hy.exact rfl
    obtain ⟨d, rfl⟩ := Int.le.dest hlt.le
    have hz : (m : ℚ) * 2 ^ (t + (d : ℤ)) / 2 ^ t = ((m * 2 ^ d : Nat) : ℤ) := by
      rw [two_zpow_add, ← mul_assoc, mul_div_cancel_right₀ _ (by positivity)]
      push_cast
      rfl
    rw [if_neg hlt.not_ge, hz, add_sub_cancel_left, Int.toNat_natCast, Nat.shiftLeft_eq]
    exact nearestInt_self _

/-- `fpRound` rounds to nearest, ties to even, if an inexact magnitude has more bits than a significand (R161, R165, R168). -/
theorem fpRound_roundedTo (neg : Bool) (e : ℤ) (hy : Approximates y m sticky) (hlong : sticky = true → 2 ^ 24 ≤ m) :
    RoundedTo (applySign neg (y * 2 ^ e)) (fpRound neg m e sticky) := by
  by_cases hm : m = 0
  · obtain rfl : sticky = false := by
      cases sticky with
      | false => rfl
      | true => exact absurd (hlong rfl) (by omega)
    obtain rfl := hy.exact rfl
    have hround := roundedTo_places (t := -149) (n := 0) neg le_rfl le_rfl (.inl rfl) (by positivity)
      (by simpa using nearestInt_self 0)
    simpa [fpRound, hm, placeBits, fpInfBits] using hround
  · obtain ⟨hlow, hhigh⟩ := ulpExponent_bounds hy hm e
    have hnonneg : 0 ≤ y := (Nat.cast_nonneg m).trans hy.bounds.1
    rw [fpRound_of_ne_zero hm]
    exact roundedTo_places neg (le_max_right _ _) (by positivity) hlow hhigh (roundedPlaces_nearest hy hlong e)

end Magnitude

end Sys2Proof.Machine
end

section
/-! The conversions and the four operations of finite numbers (R161 to R166).

Each of them hands `fpRound` the exact magnitude, or for a quotient the bits above a sticky bit, so rounding is said once, in the
section above. -/

namespace Sys2Proof.Machine

/-! ### The conversion of int32 values (R161, R162) -/

/-- Without a sticky bit the magnitude is exact. -/
theorem approximates_exact (m : Nat) : Approximates m m false := ⟨fun _ => rfl, nofun⟩

theorem applySign_natAbs (v : ℤ) : applySign (decide (v < 0)) v.natAbs = v := by
  by_cases h : v < 0
  · rw [applySign, decide_eq_true h, if_pos rfl, Nat.cast_natAbs, abs_of_neg h, Int.cast_neg, neg_neg]
  · rw [applySign, decide_eq_false h, if_neg Bool.false_ne_true, Nat.cast_natAbs, abs_of_nonneg (not_lt.mp h)]

/-- `fpRound` of an integer's sign and magnitude rounds that integer at the exponent given (R168). -/
theorem fpRound_int (v e : ℤ) : RoundedTo (v * 2 ^ e) (fpRound (decide (v < 0)) v.natAbs e false) := by
  have hround := fpRound_roundedTo (decide (v < 0)) e (approximates_exact v.natAbs) nofun
  have hsign : applySign (decide (v < 0)) (v.natAbs * 2 ^ e) = v * 2 ^ e := by
    conv_rhs => rw [← applySign_natAbs v]
    generalize decide (v < 0) = neg
    cases neg <;> simp [applySign]
  rwa [hsign] at hround

theorem RoundedTo.fpFinite {q : ℚ} {w : Word} (h : RoundedTo q w) (hq : |q| < 2 ^ 128 - 2 ^ 103) : fpFinite w :=
  not_not.mp fun hw => absurd (h.overflow.mp hw) hq.not_ge

/-- Settles O36: no int32 value is near the largest finite number. -/
theorem intToFloatRoundsToNearestEven : Obligations.IntToFloatRoundsToNearestEven := by
  refine ⟨fun v => ?_, by decide⟩
  have hround : RoundedTo (v.toInt : ℚ) (intToFloat v) := by
    rw [intToFloat]
    simpa only [zpow_zero, mul_one] using fpRound_int v.toInt 0
  have hbound : |(v.toInt : ℚ)| ≤ 2 ^ 31 :=
    abs_le.mpr ⟨by exact_mod_cast v.le_toInt, by exact_mod_cast v.toInt_lt.le⟩
  exact hround.nearest (hround.fpFinite (hbound.trans_lt (by norm_num)))

/-- A pattern nearest to a number that some pattern stands for stands for that number itself. -/
theorem NearestEven.fpRat_eq {q : ℚ} {u w : Word} (h : NearestEven q w) (hu : Machine.fpFinite u) (hq : fpRat u = q) :
    fpRat w = q := by
  have hdist := (h.2 u hu).1
  rw [hq, sub_self, abs_zero] at hdist
  exact sub_eq_zero.mp (abs_nonpos_iff.mp hdist)

/-- A magnitude of at most 24 bits has a pattern of its own (R168). -/
theorem exists_fpRat_eq (neg : Bool) {m : Nat} (hm : m ≤ 2 ^ 24) : ∃ u, fpFinite u ∧ fpRat u = applySign neg m := by
  rcases m.eq_zero_or_pos with rfl | hpos
  · have hzero : fpUnpack (fpPack neg 0) = .finite neg 0 (-149) := fpUnpack_fpPack_subnormal (by norm_num)
    exact ⟨_, ⟨_, _, _, hzero⟩, by rw [fpRat_eq_applySign hzero, Nat.cast_zero, zero_mul]⟩
  -- shifted left until it fills the significand
  obtain ⟨k, hk, hlow, hhigh⟩ : ∃ k ≤ 23, 2 ^ 23 ≤ m * 2 ^ k ∧ m * 2 ^ k ≤ 2 ^ 24 := by
    have hself := Nat.log2_self_le hpos.ne'
    have hlt : m < 2 ^ (m.log2 + 1) := Nat.lt_log2_self
    rcases hm.lt_or_eq with h | rfl
    · have hlog : m.log2 < 24 := (Nat.log2_lt hpos.ne').mpr h
      have hpow : 2 ^ m.log2 * 2 ^ (23 - m.log2) = 2 ^ 23 := by rw [← pow_add, Nat.add_sub_cancel' (by omega)]
      have hpow' : 2 ^ (m.log2 + 1) * 2 ^ (23 - m.log2) = 2 ^ 24 := by rw [← pow_add]; congr 1; omega
      exact ⟨23 - m.log2, by omega, hpow ▸ Nat.mul_le_mul_right _ hself, hpow' ▸ Nat.mul_le_mul_right _ hlt.le⟩
    · exact ⟨0, by norm_num⟩
  obtain ⟨m', e, hw, hval⟩ := fpUnpack_fpPack_placeBits (neg := neg) (t := -k) (n := m * 2 ^ k) (by omega) hhigh (.inr hlow)
    (by rw [placeBits, fpInfBits]; omega)
  refine ⟨_, ⟨_, _, _, hw⟩, ?_⟩
  rw [fpRat_eq_applySign hw, hval, zpow_neg, zpow_natCast, Nat.cast_mul, Nat.cast_pow, Nat.cast_ofNat,
    mul_inv_cancel_right₀ (by positivity)]

/-! ### The conversion to int32 (R162) -/

/-- The shift rounds a magnitude down (R162). -/
theorem truncMagnitude_eq_floor (m : Nat) (e : ℤ) : (truncMagnitude m e : ℤ) = ⌊(m : ℚ) * 2 ^ e⌋ := by
  rw [truncMagnitude]
  split
  next h =>
    obtain ⟨d, rfl⟩ := Int.eq_ofNat_of_zero_le h
    rw [Int.toNat_natCast, Nat.shiftLeft_eq, zpow_natCast]
    exact_mod_cast (Int.floor_natCast (R := ℚ) (m * 2 ^ d)).symm
  next h =>
    obtain ⟨d, hd⟩ := Int.eq_ofNat_of_zero_le (show 0 ≤ -e by omega)
    obtain rfl : e = -d := by omega
    rw [neg_neg, Int.toNat_natCast, Nat.shiftRight_eq_div_pow, zpow_neg, zpow_natCast, ← div_eq_mul_inv]
    exact_mod_cast (Rat.floor_natCast_div_natCast m (2 ^ d)).symm

/-- Truncation towards zero rounds the magnitude down and keeps the sign (R162). -/
theorem truncZero_applySign (neg : Bool) {x : ℚ} (hx : 0 ≤ x) : truncZero (applySign neg x) = if neg then -⌊x⌋ else ⌊x⌋ := by
  cases neg with
  | false => exact if_neg hx.not_gt
  | true =>
    rw [applySign, if_pos rfl, if_pos rfl, truncZero, Int.ceil_neg]
    split
    · rfl
    next h =>
      obtain rfl : x = 0 := le_antisymm (by linarith) hx
      simp

/-- FTOI's conversion of a finite number in terms of the number (R162). -/
theorem floatToInt_of_finite {w : Word} (h : fpFinite w) : floatToInt w =
    if -0x80000000 ≤ truncZero (fpRat w) ∧ truncZero (fpRat w) ≤ 0x7FFFFFFF then some (BitVec.ofInt 32 (truncZero (fpRat w)))
    else none := by
  obtain ⟨neg, m, e, hw⟩ := h
  rw [fpRat_eq_applySign hw, truncZero_applySign neg (by positivity), ← truncMagnitude_eq_floor]
  simp only [floatToInt, hw]

theorem floatToInt_of_not_finite {w : Word} (h : ¬ fpFinite w) : floatToInt w = none := by
  cases hw : fpUnpack w with
  | nan => simp only [floatToInt, hw]
  | inf neg => simp only [floatToInt, hw]
  | finite neg m e => exact absurd ⟨neg, m, e, hw⟩ h

/-- Settles O60: in range, the word is the one integer's two's complement. -/
theorem floatToIntTruncates : Obligations.FloatToIntTruncates := by
  refine fun w => ⟨fun hw v => ?_, floatToInt_of_not_finite⟩
  rw [floatToInt_of_finite hw]
  generalize truncZero (fpRat w) = k
  by_cases hrange : -0x80000000 ≤ k ∧ k ≤ 0x7FFFFFFF
  · have hk : (BitVec.ofInt 32 k).toInt = k := BitVec.toInt_ofInt_eq_self (by decide) hrange.1 (by omega)
    rw [if_pos hrange, Option.some_inj, ← BitVec.toInt_inj, hk]
    exact ⟨fun h => ⟨hrange.1, hrange.2, h.symm⟩, fun h => h.2.2.symm⟩
  · rw [if_neg hrange]
    exact iff_of_false nofun fun h => hrange ⟨h.1, h.2.1⟩

theorem truncZero_intCast (k : ℤ) : truncZero k = k := by
  rw [truncZero, Int.ceil_intCast, Int.floor_intCast, ite_self]

/-- Settles O37: such an integer is the value of a pattern, so the nearest pattern stands for it. -/
theorem smallIntegersConvertExactly : Obligations.SmallIntegersConvertExactly := by
  intro v hv
  have hnearest := intToFloatRoundsToNearestEven.1 v
  have hval : fpRat (intToFloat v) = v.toInt := by
    obtain ⟨u, hu, hq⟩ := exists_fpRat_eq (decide (v.toInt < 0)) hv
    exact hnearest.fpRat_eq hu (hq.trans (applySign_natAbs v.toInt))
  refine ⟨hval, ((floatToIntTruncates _).1 hnearest.1 v).mpr ?_⟩
  rw [hval, truncZero_intCast]
  exact ⟨by omega, by omega, rfl⟩

/-! ### The operations of finite numbers (R163 to R166) -/

theorem fpFinite_fpNeg {w : Word} (h : fpFinite w) : fpFinite (fpNeg w) := by
  obtain ⟨neg, m, e, hw⟩ := h
  exact ⟨!neg, m, e, by rw [fpUnpack_fpNeg, hw]⟩

theorem getLsbD_fpNeg (w : Word) : (fpNeg w).getLsbD 31 = !w.getLsbD 31 := by simp [fpNeg]

/-- The significand at a lower exponent. -/
theorem fpRat_eq_shifted {w : Word} {neg : Bool} {m : Nat} {e e' : ℤ} (h : fpUnpack w = .finite neg m e) (he : e' ≤ e) :
    fpRat w = signedMagnitude neg (m <<< (e - e').toNat) * 2 ^ e' := by
  obtain ⟨d, rfl⟩ := Int.le.dest he
  rw [fpRat_finite h, add_sub_cancel_left, Int.toNat_natCast, two_zpow_add, Nat.shiftLeft_eq, ← mul_assoc]
  cases neg <;> simp [signedMagnitude]

/-- The sum of finite numbers is an exact integer of some exponent, rounded; an exact zero is negative only if both terms are
(R163, R168). -/
theorem fpAdd_of_finite {a b : Word} (ha : fpFinite a) (hb : fpFinite b) : ∃ v e : ℤ, fpRat a + fpRat b = v * 2 ^ e ∧
    fpAdd a b = .pattern (if v = 0 then fpPack (a.getLsbD 31 && b.getLsbD 31) 0
      else fpRound (decide (v < 0)) v.natAbs e false) := by
  obtain ⟨na, ma, ea, ha⟩ := ha
  obtain ⟨nb, mb, eb, hb⟩ := hb
  refine ⟨signedMagnitude na (ma <<< (ea - min ea eb).toNat) + signedMagnitude nb (mb <<< (eb - min ea eb).toNat),
    min ea eb, ?_, ?_⟩
  · rw [fpRat_eq_shifted ha (min_le_left ea eb), fpRat_eq_shifted hb (min_le_right ea eb), Int.cast_add, add_mul]
  · simp only [fpAdd, ha, hb, getLsbD_of_finite ha, getLsbD_of_finite hb]

/-- The product of finite numbers rounds the product of the significands (R165, R168). -/
theorem fpMul_of_finite {a b : Word} {na nb : Bool} {ma mb : Nat} {ea eb : ℤ} (ha : fpUnpack a = .finite na ma ea)
    (hb : fpUnpack b = .finite nb mb eb) : fpMul a b = .pattern (fpRound (na != nb) (ma * mb) (ea + eb) false) := by
  simp only [fpMul, ha, hb]

/-- The quotient of finite numbers rounds the quotient of the significands, the dividend's first shifted left, with the remainder
in the sticky bit (R166, R168). -/
theorem fpDiv_of_finite {a b : Word} {na nb : Bool} {ma mb : Nat} {ea eb : ℤ} (ha : fpUnpack a = .finite na ma ea)
    (hb : fpUnpack b = .finite nb mb eb) (h : mb ≠ 0) : fpDiv a b =
      .pattern (fpRound (na != nb) (ma <<< divGuardBits / mb) (ea - eb - divGuardBits)
        (decide (ma <<< divGuardBits % mb ≠ 0))) := by
  simp only [fpDiv, ha, hb, if_neg h]

/-- A quotient and whether there is a remainder say between which integers the exact quotient lies. -/
theorem approximates_div (n : Nat) {d : Nat} (hd : d ≠ 0) : Approximates ((n : ℚ) / d) (n / d) (decide (n % d ≠ 0)) := by
  have hpos : (0 : ℚ) < d := mod_cast Nat.pos_of_ne_zero hd
  have hdecomp : (n : ℚ) = (n / d : Nat) * d + (n % d : Nat) := by exact_mod_cast (Nat.div_add_mod' n d).symm
  have hlt : ((n % d : Nat) : ℚ) < d := mod_cast Nat.mod_lt n (Nat.pos_of_ne_zero hd)
  refine ⟨fun h => (div_eq_iff hpos.ne').mpr ?_, fun h => ?_⟩
  · rwa [not_not.mp (of_decide_eq_false h), Nat.cast_zero, add_zero] at hdecomp
  · have hrem : (0 : ℚ) < (n % d : Nat) := mod_cast Nat.pos_of_ne_zero (of_decide_eq_true h)
    exact ⟨(lt_div_iff₀ hpos).mpr (by linarith), (div_lt_iff₀ hpos).mpr (by linarith)⟩

theorem fpAdd_roundedTo {a b : Word} (ha : fpFinite a) (hb : fpFinite b) :
    ∃ w, fpAdd a b = .pattern w ∧ RoundedTo (fpRat a + fpRat b) w := by
  obtain ⟨v, e, hv, hw⟩ := fpAdd_of_finite ha hb
  refine ⟨_, hw, ?_⟩
  rw [hv]
  split
  next hzero =>
    have hround := fpRound_roundedTo (a.getLsbD 31 && b.getLsbD 31) e (approximates_exact 0) nofun
    simpa [hzero, fpRound, applySign] using hround
  next => exact fpRound_int v e

theorem fpMul_roundedTo {a b : Word} (ha : fpFinite a) (hb : fpFinite b) :
    ∃ w, fpMul a b = .pattern w ∧ RoundedTo (fpRat a * fpRat b) w := by
  obtain ⟨na, ma, ea, ha⟩ := ha
  obtain ⟨nb, mb, eb, hb⟩ := hb
  refine ⟨_, fpMul_of_finite ha hb, ?_⟩
  have hround := fpRound_roundedTo (na != nb) (ea + eb) (approximates_exact (ma * mb)) nofun
  rwa [Nat.cast_mul, zpow_add₀ two_ne_zero, mul_mul_mul_comm, ← applySign_mul, ← fpRat_eq_applySign ha,
    ← fpRat_eq_applySign hb] at hround

/-- The bits added below the dividend give an inexact quotient more bits than a significand. -/
theorem two_pow_le_quotient {ma mb : Nat} (hpos : mb ≠ 0) (hmb : mb < 2 ^ 24) (hrem : ma <<< divGuardBits % mb ≠ 0) :
    2 ^ 24 ≤ ma <<< divGuardBits / mb := by
  have hma : ma ≠ 0 := by
    rintro rfl
    exact hrem (by rw [Nat.zero_shiftLeft, Nat.zero_mod])
  rw [Nat.le_div_iff_mul_le (Nat.pos_of_ne_zero hpos), Nat.shiftLeft_eq]
  calc 2 ^ 24 * mb ≤ 2 ^ 24 * 2 ^ 24 := Nat.mul_le_mul_left _ hmb.le
    _ = 2 ^ 48 := by norm_num
    _ ≤ 2 ^ divGuardBits := Nat.pow_le_pow_right two_pos (by decide)
    _ ≤ ma * 2 ^ divGuardBits := Nat.le_mul_of_pos_left _ (Nat.pos_of_ne_zero hma)

/-- The shift of the dividend is undone in the exponent. -/
theorem shifted_quotient (ma mb g : Nat) (ea eb : ℤ) :
    ((ma <<< g : Nat) : ℚ) / mb * 2 ^ (ea - eb - g) = ma * 2 ^ ea / (mb * 2 ^ eb) := by
  have hg : (2 : ℚ) ^ g ≠ 0 := by positivity
  rw [Nat.shiftLeft_eq, zpow_sub₀ two_ne_zero, zpow_sub₀ two_ne_zero, zpow_natCast, Nat.cast_mul, Nat.cast_pow, Nat.cast_ofNat]
  field_simp

theorem fpDiv_roundedTo {a b : Word} (ha : fpFinite a) (hb : fpFinite b) (hne : fpRat b ≠ 0) :
    ∃ w, fpDiv a b = .pattern w ∧ RoundedTo (fpRat a / fpRat b) w := by
  obtain ⟨na, ma, ea, ha⟩ := ha
  obtain ⟨nb, mb, eb, hb⟩ := hb
  have hmb : mb ≠ 0 := fun h => hne ((fpRat_eq_zero hb).mpr h)
  have hround := fpRound_roundedTo (na != nb) (ea - eb - divGuardBits) (approximates_div (ma <<< divGuardBits) hmb)
    fun h => two_pow_le_quotient hmb (finite_bounds hb).1 (of_decide_eq_true h)
  rw [shifted_quotient, ← applySign_div, ← fpRat_eq_applySign ha, ← fpRat_eq_applySign hb] at hround
  exact ⟨_, fpDiv_of_finite ha hb hmb, hround⟩

/-- Settles O35: each operation rounds its exact value once. -/
theorem floatArithmeticRoundsToNearestEven : Obligations.FloatArithmeticRoundsToNearestEven := by
  intro a b ha hb
  refine ⟨fpAdd_roundedTo ha hb, ?_, fpMul_roundedTo ha hb, fpDiv_roundedTo ha hb⟩
  rw [sub_eq_add_neg, ← fpRat_fpNeg]
  exact fpAdd_roundedTo ha (fpFinite_fpNeg hb)

end Sys2Proof.Machine
end

section
/-! The special operands of the floating-point operations: NaNs, infinities and exact zeros (R163 to R166, R168).

What each operation does is said once per pair of kinds of operands; the subtraction's cases are those of the sum with the right
operand's sign flipped. -/

namespace Sys2Proof.Machine

section Operands
variable {a b : Word} {n m : Bool}

/-! ### NaN operands -/

theorem fpAdd_of_nan (h : fpUnpack a = .nan ∨ fpUnpack b = .nan) : fpAdd a b = .nan := by
  rcases h with h | h
  · simp only [fpAdd, h]
  · cases ha : fpUnpack a <;> simp only [fpAdd, ha, h]

theorem fpSub_of_nan (h : fpUnpack a = .nan ∨ fpUnpack b = .nan) : fpSub a b = .nan :=
  fpAdd_of_nan (h.imp_right fun hb => by rw [fpUnpack_fpNeg, hb])

theorem fpMul_of_nan (h : fpUnpack a = .nan ∨ fpUnpack b = .nan) : fpMul a b = .nan := by
  rcases h with h | h
  · simp only [fpMul, h]
  · cases ha : fpUnpack a <;> simp only [fpMul, ha, h]

theorem fpDiv_of_nan (h : fpUnpack a = .nan ∨ fpUnpack b = .nan) : fpDiv a b = .nan := by
  rcases h with h | h
  · simp only [fpDiv, h]
  · cases ha : fpUnpack a <;> simp only [fpDiv, ha, h]

/-! ### Infinite operands -/

theorem fpUnpack_fpNeg_inf (h : fpUnpack a = .inf n) : fpUnpack (fpNeg a) = .inf (!n) := by rw [fpUnpack_fpNeg, h]

/-- Infinities of one sign add up to it, those of two signs to a NaN (R163). -/
theorem fpAdd_inf_inf (ha : fpUnpack a = .inf n) (hb : fpUnpack b = .inf m) :
    fpAdd a b = if n = m then .pattern a else .nan := by
  simp only [fpAdd, ha, hb, ← eq_of_fpUnpack_inf ha]

theorem fpAdd_inf_finite (ha : fpUnpack a = .inf n) (hb : fpFinite b) : fpAdd a b = .pattern a ∧ fpAdd b a = .pattern a := by
  obtain ⟨m, k, e, hb⟩ := hb
  simp only [fpAdd, ha, hb, ← eq_of_fpUnpack_inf ha, and_self]

theorem fpMul_inf_inf (ha : fpUnpack a = .inf n) (hb : fpUnpack b = .inf m) :
    fpMul a b = .pattern (fpPack (n != m) fpInfBits) := by
  simp only [fpMul, ha, hb]

/-- An infinity times a finite number, in either order: a NaN if that is a zero (R165). -/
theorem fpMul_inf_finite {k : Nat} {e : ℤ} (ha : fpUnpack a = .inf n) (hb : fpUnpack b = .finite m k e) :
    fpMul a b = (if k = 0 then .nan else .pattern (fpPack (n != m) fpInfBits)) ∧ fpMul b a = fpMul a b := by
  simp only [fpMul, ha, hb, bne_comm (a := m), and_self]

theorem fpDiv_inf_inf (ha : fpUnpack a = .inf n) (hb : fpUnpack b = .inf m) : fpDiv a b = .nan := by
  simp only [fpDiv, ha, hb]

theorem fpDiv_inf_finite {k : Nat} {e : ℤ} (ha : fpUnpack a = .inf n) (hb : fpUnpack b = .finite m k e) :
    fpDiv a b = .pattern (fpPack (n != m) fpInfBits) := by
  simp only [fpDiv, ha, hb]

theorem fpDiv_finite_inf {k : Nat} {e : ℤ} (ha : fpUnpack a = .finite n k e) (hb : fpUnpack b = .inf m) :
    fpDiv a b = .pattern (signedZero (n != m)) := by
  simp only [fpDiv, ha, hb, fpPack_zero]

/-! ### Zeros -/

/-- Division by a zero: a NaN if the dividend is a zero too, an infinity if not (R166). -/
theorem fpDiv_by_zero {k : Nat} {e e' : ℤ} (ha : fpUnpack a = .finite n k e) (hb : fpUnpack b = .finite m 0 e') :
    fpDiv a b = if k = 0 then .nan else .pattern (fpPack (n != m) fpInfBits) := by
  simp only [fpDiv, ha, hb, if_true]

theorem fpRound_zero (neg : Bool) (e : ℤ) : fpRound neg 0 e false = signedZero neg := by rw [fpRound, if_pos rfl, fpPack_zero]

/-- An exact zero sum is negative only if both terms are (R163). -/
theorem fpAdd_zero (ha : fpFinite a) (hb : fpFinite b) (h : fpRat a + fpRat b = 0) :
    fpAdd a b = .pattern (signedZero (a.getLsbD 31 && b.getLsbD 31)) := by
  obtain ⟨v, e, hv, hadd⟩ := fpAdd_of_finite ha hb
  have hzero : v = 0 := by
    rw [hv, mul_eq_zero, or_iff_left (by positivity)] at h
    exact_mod_cast h
  rw [hadd, if_pos hzero, fpPack_zero]

theorem fpMul_zero (ha : fpFinite a) (hb : fpFinite b) (h : fpRat a * fpRat b = 0) :
    fpMul a b = .pattern (signedZero (a.getLsbD 31 != b.getLsbD 31)) := by
  obtain ⟨na, ma, ea, ha⟩ := ha
  obtain ⟨nb, mb, eb, hb⟩ := hb
  rw [mul_eq_zero, fpRat_eq_zero ha, fpRat_eq_zero hb, ← Nat.mul_eq_zero] at h
  rw [fpMul_of_finite ha hb, h, fpRound_zero, getLsbD_of_finite ha, getLsbD_of_finite hb]

theorem fpDiv_zero (ha : fpFinite a) (hb : fpFinite b) (h : fpRat a = 0) (hne : fpRat b ≠ 0) :
    fpDiv a b = .pattern (signedZero (a.getLsbD 31 != b.getLsbD 31)) := by
  obtain ⟨na, ma, ea, ha⟩ := ha
  obtain ⟨nb, mb, eb, hb⟩ := hb
  obtain rfl : ma = 0 := (fpRat_eq_zero ha).mp h
  have hmb : mb ≠ 0 := fun h => hne ((fpRat_eq_zero hb).mpr h)
  rw [fpDiv_of_finite ha hb hmb, Nat.zero_shiftLeft, Nat.zero_div, Nat.zero_mod, decide_eq_false (not_not_intro rfl),
    fpRound_zero, getLsbD_of_finite ha, getLsbD_of_finite hb]

end Operands

/-- Settles O38: each clause is the case of the operation that its operands' kinds select. -/
theorem specialFloatOperands : Obligations.SpecialFloatOperands := by
  refine ⟨?_, ?_, ?_, ?_, ?_, ?_, ?_, ?_, ?_, ?_, ?_, ?_, ?_⟩
  · exact fun a b h => ⟨fpAdd_of_nan h, fpSub_of_nan h, fpMul_of_nan h, fpDiv_of_nan h⟩
  · intro a b n m ha hb
    refine ⟨fun h => by rw [fpAdd_inf_inf ha hb, if_neg h], fun h => ?_, fpDiv_inf_inf ha hb⟩
    rw [fpSub, fpAdd_inf_inf ha (fpUnpack_fpNeg_inf hb), if_neg (by rw [h]; exact (Bool.not_ne_self m).symm)]
  · intro a b n m e ha hb
    obtain ⟨hmul, hcomm⟩ := fpMul_inf_finite ha hb
    exact ⟨hmul, hcomm.trans hmul⟩
  · exact fun a b n m e e' ha hb => fpDiv_by_zero ha hb
  · intro a b n m k e e' ha hk hb
    exact ⟨_, by rw [fpDiv_by_zero ha hb, if_neg hk], fpUnpack_inf _⟩
  · rintro a b n ha (hb | hb)
    · obtain rfl : a = b := (eq_of_fpUnpack_inf ha).trans (eq_of_fpUnpack_inf hb).symm
      rw [fpAdd_inf_inf ha ha, if_pos rfl]
      exact ⟨rfl, rfl⟩
    · exact fpAdd_inf_finite ha hb
  · rintro a b n ha (hb | hb)
    · rw [fpSub, fpAdd_inf_inf ha (fpUnpack_fpNeg_inf hb), if_pos (Bool.not_not n).symm]
    · exact (fpAdd_inf_finite ha (fpFinite_fpNeg hb)).1
  · exact fun a b n ha hb => (fpAdd_inf_finite (fpUnpack_fpNeg_inf ha) hb).2
  · rintro a b n m ha (hb | ⟨k, e, hb, hk⟩)
    · exact ⟨_, fpMul_inf_inf ha hb, by rw [fpMul_inf_inf hb ha, bne_comm], fpUnpack_inf _⟩
    · obtain ⟨hmul, hcomm⟩ := fpMul_inf_finite ha hb
      rw [if_neg hk] at hmul
      exact ⟨_, hmul, hcomm.trans hmul, fpUnpack_inf _⟩
  · intro a b n m k e ha hb
    exact ⟨⟨_, fpDiv_inf_finite ha hb, fpUnpack_inf _⟩, by rw [fpDiv_finite_inf hb ha, bne_comm]⟩
  · intro a b ha hb
    refine ⟨fpAdd_zero ha hb, fun h => ?_, fpMul_zero ha hb, fpDiv_zero ha hb⟩
    rw [fpSub, fpAdd_zero ha (fpFinite_fpNeg hb) (by rw [fpRat_fpNeg, ← sub_eq_add_neg, h]), getLsbD_fpNeg]
  · exact fun w => isNaN_iff_fpUnpack
  · exact fun w => ⟨fun h => ⟨w, (nanFrom_of_isNaN h).symm⟩, fun ⟨v, hv⟩ => hv ▸ isNaN_nanFrom v⟩

end Sys2Proof.Machine
end

section
/-! The JMP statements: where a legal condition mode leaves `pc`, and what a reserved one raises (R180 to R183).

Both follow the resolved operand with one update of one field: `pc` for a legal mode, `flags` for a reserved one. A jump that is not
taken rewrites `pc` with the value it has. -/

namespace Sys2Proof.Machine

/-! ### The condition and the target (R180 to R182) -/

/-- JMP jumps on a masked comparison bit under one legal mode, and on none under the other (R180, R181). -/
theorem condTaken_iff {mode : CondMode} {mask : Nibble} {cmp : Byte} : condTaken mode mask cmp = true ↔
    (mode = .ifAny ∧ cmp &&& mask.setWidth 8 ≠ 0) ∨ (mode = .ifNone ∧ cmp &&& mask.setWidth 8 = 0) := by
  cases mode <;> simp [condTaken]

/-- The target is the base with the offset added or taken away (R180, R182). -/
theorem jumpTarget_eq (absolute negate : Bool) (base offset : Word) : jumpTarget absolute negate base offset =
    if negate then (if absolute then 0 else base) - offset else (if absolute then 0 else base) + offset := by
  cases negate with
  | false => rfl
  | true => exact (BitVec.sub_eq_add_neg ..).symm

/-! ### What JMP does under each kind of mode (R180, R183) -/

section Jmp
variable (s : State)

@[simp] theorem setPc_own_pc : s.setPc s.own.pc = s := setOwn_own s

/-- Under a legal mode JMP writes `pc`, with its old value where the condition fails (R180, R183). -/
theorem jumpOn_legal {mode : CondMode} (h : mode = .ifAny ∨ mode = .ifNone) (mask : Nibble) (target : Word) :
    jumpOn mode mask target s = s.setPc (if condTaken mode mask s.own.cmp then target else s.own.pc) := by
  rcases h with rfl | rfl <;> rw [apply_ite s.setPc, setPc_own_pc] <;> rfl

variable (sc : SizeClass) (absolute negate : Bool) (mask : Nibble) (op : Operand)

/-- JMP with a legal mode is one operand read and one write of `pc` (R180, R183). -/
theorem exec_jmp_legal {mode : CondMode} (h : mode = .ifAny ∨ mode = .ifNone) :
    exec (.jmp sc absolute negate mode mask op) s =
      .next (((s.advance (4 + op.singleLength sc)).readOperand sc op).2.setPc
        (if condTaken mode mask s.own.cmp then jumpTarget absolute negate (jumpBase s) (s.readOperand sc op).1
          else addrAdd s.own.pc (4 + op.singleLength sc : Nat))) := by
  show Host.Outcome.next (jumpOn mode mask _ _) = _
  rw [jumpOn_legal _ h, readOperand_own, advance_own, Instr.length, readOperand_advance_value]

/-- JMP with a reserved mode is one operand read and the raise of ILLEGAL_INSTRUCTION (R180, R183). -/
theorem exec_jmp_reserved (mode : Nibble) :
    exec (.jmp sc absolute negate (.reserved mode) mask op) s =
      .next (((s.advance (4 + op.singleLength sc)).readOperand sc op).2.raise .illegalInstruction) := rfl

end Jmp

/-! ### The statements -/

/-- Settles O39: the operand's read leaves `pc` behind the instruction, and the condition decides what is written over it. -/
theorem jmpResult : Obligations.JmpResult := by
  intro s sc absolute negate mode mask op hmode offset base target hit
  have hexec := exec_jmp_legal s sc absolute negate mask op hmode
  have hframe := (exec_effect hexec).frame (xs := []) (fs := []) (by simp) (by simp)
  have htarget : jumpTarget absolute negate (jumpBase s) offset = target := jumpTarget_eq ..
  refine ⟨_, hexec, ?_, hframe, by simp, by simp, by simp, fun _ => by simp, by simp, by simp, by simp⟩
  rw [setPc_own]
  exact if_congr condTaken_iff htarget rfl

/-- Settles O40: the raise touches only `flags`, so `pc` stays behind the operand. -/
theorem jmpReservedModeIsIllegal : Obligations.JmpReservedModeIsIllegal := by
  intro s sc absolute negate mode mask op
  have hexec := exec_jmp_reserved s sc absolute negate mask op mode
  have hframe := (exec_effect hexec).frame (xs := []) (fs := []) (by simp) (by simp)
  exact ⟨_, hexec, by simp, by simp [Flag.mask], hframe, by simp, by simp, fun _ => by simp, by simp, by simp, by simp⟩

end Sys2Proof.Machine
end

section
/-! The CMP statements: the illegal kind pairs, and the outcome of a legal comparison (R195 to R198).

A CMP that decodes is two operand reads and one write of `cmp`. A read can change what a later one yields only by drawing bytes, and
of a legal pair at most one operand is in memory, so each operand has the value that it has before the instruction. -/

namespace Sys2Proof

/-! ### The kinds of the `io` byte (R81, R196) -/

/-- A legal pair has at most one operand in memory (R196). -/
theorem cmpLegal_iff {dk sk : Kind} : cmpLegal dk sk = true ↔ sk.isMem = false ∨ dk.isMem = false := by
  simp [cmpLegal]

/-- An `io` byte with a reserved nibble or two memory nibbles names no legal pair of kinds (R81, R196). -/
theorem not_cmpLegal_of_decodeKinds {io : Byte} {dk sk : Kind} (hk : decodeKinds io = .ok (dk, sk))
    (hio : 3 < (highNibble io).toNat ∨ 3 < (lowNibble io).toNat ∨
      ((highNibble io).toNat ∈ [1, 2] ∧ (lowNibble io).toNat ∈ [1, 2])) : ¬ cmpLegal dk sk = true := by
  obtain ⟨hlow, hhigh⟩ := nibbles_of_decodeKinds hk
  rw [hlow, hhigh] at hio
  rcases hio with hsk | hdk | ⟨hsk, hdk⟩
  · exact absurd sk.nibble_lt (Nat.not_lt.mpr hsk)
  · exact absurd dk.nibble_lt (Nat.not_lt.mpr hdk)
  · rw [cmpLegal_of_isMem (Kind.isMem_of_nibble hdk) (Kind.isMem_of_nibble hsk)]
    exact Bool.false_ne_true

/-- CMP rejects an `io` byte that names no legal pair of kinds right after fetching it (R81, R196). -/
theorem decode_illegalCmpKinds {opflag io : Byte} (hsize : (lowNibble opflag).toNat < 3)
    (hillegal : ∀ dk sk, decodeKinds io = .ok (dk, sk) → ¬ cmpLegal dk sk = true) (bs : List Byte) :
    ∃ e, decode (0x05 :: opflag :: io :: bs) = .error e ∧ e.consumed = 3 ∧ e ≠ .truncated := by
  obtain ⟨sc, hsc⟩ := decodeSize_defined hsize
  show ∃ e, decodeCmp opflag (io :: bs) = .error e ∧ _
  cases hk : decodeKinds io with
  | error e =>
    cases eq_reservedDualKind_of_decodeKinds hk
    exact ⟨.reservedDualKind, by simp only [decodeCmp, hsc, hk, takeByte_cons, ok_bind, error_bind], rfl, nofun⟩
  | ok kinds =>
    obtain ⟨dk, sk⟩ := kinds
    refine ⟨.memoryMemory, ?_, rfl, nofun⟩
    simp only [decodeCmp, hsc, hk, takeByte_cons, ok_bind, if_neg (hillegal dk sk hk)]

namespace Machine

/-! ### One operand read after another (R195) -/

section TwoReads
variable (s : State) (sc : SizeClass) (op' op : Operand)

@[simp] theorem unreadable_readOperand : (s.readOperand sc op').2.unreadable op = s.unreadable op := by
  cases op <;> simp [State.unreadable]

@[simp] theorem readErrorBit_readOperand : (s.readOperand sc op').2.readErrorBit op = s.readErrorBit op := by
  rw [State.readErrorBit, unreadable_readOperand, State.readErrorBit]

@[simp] theorem readDraws_readOperand : (s.readOperand sc op').2.readDraws sc op = s.readDraws sc op := by
  rw [State.readDraws, unreadable_readOperand, State.readDraws]

variable {s op' op}

/-- The value of a register or an immediate does not depend on an earlier read (R106, R107). -/
theorem readOperand_value_of_not_isMem (h : op.kind.isMem = false) :
    ((s.readOperand sc op').2.readOperand sc op).1 = (s.readOperand sc op).1 := by
  cases op with
  | reg r => exact congrArg (· &&& sc.mask) (readOperand_x s sc op' r)
  | imm v => rfl
  | ind r => cases h
  | mem A => cases h

/-- In a legal pair the source's read does not change the destination-position operand's value (R195, R196). -/
theorem readOperand_value_of_cmpLegal {dst src : Operand} (h : cmpLegal dst.kind src.kind = true) :
    ((s.readOperand sc src).2.readOperand sc dst).1 = (s.readOperand sc dst).1 := by
  rcases cmpLegal_iff.mp h with hsrc | hdst
  · rw [readOperand_state_of_not_isMem s hsrc]
  · exact readOperand_value_of_not_isMem sc hdst

end TwoReads

/-! ### What CMP does (R195 to R198) -/

/-- The outcome bit says how the operands compare under either reading of their bits (R197). -/
theorem compareBits_eq (sc : SizeClass) (signed : Bool) (vD vS : Word) :
    compareBits sc signed vD vS = compareInts (if signed then sc.signedValue vD else vD.toNat)
      (if signed then sc.signedValue vS else vS.toNat) := by
  cases signed <;> rfl

/-- CMP of a legal pair is a read of the source, a read of the destination-position operand and one write of `cmp`
(R195, R197, R198). -/
theorem exec_cmp {dst src : Operand} (h : cmpLegal dst.kind src.kind = true) (s : State) (sc : SizeClass) (signed keep : Bool) :
    exec (.cmp sc signed keep dst src) s =
      .next ((((s.advance (dualLength sc dst src)).readOperand sc src).2.readOperand sc dst).2.setCmp
        ((if keep then s.own.cmp else 0) ||| compareBits sc signed (s.readOperand sc dst).1 (s.readOperand sc src).1)) := by
  show execCmp sc signed keep dst src s = _
  rw [execCmp, if_pos h]
  simp only [Instr.length, readOperand_value_of_cmpLegal sc h, readOperand_advance_value, readOperand_own, advance_own]

/-! ### The statements -/

/-- Settles O8: none of the statement's `io` bytes names a legal pair of kinds. -/
theorem illegalCmpOperandsAbort : Obligations.IllegalCmpOperandsAbort := by
  intro s opflag io bs hrun hwin hsize hio
  obtain ⟨e, hdecode, hconsumed, hne⟩ := decode_illegalCmpKinds hsize (fun _ _ hk => not_cmpLegal_of_decodeKinds hk hio) bs
  rw [← hconsumed]
  exact stepAborts_of_reject hrun (hwin ▸ hdecode) hne

/-- Settles O31: the two reads add their flags and their draws, and the write touches only `cmp`. -/
theorem cmpOutcome : Obligations.CmpOutcome := by
  intro s sc signed keep dst src hlegal vD vS l r
  have hexec := exec_cmp hlegal s sc signed keep
  have hframe := (exec_effect hexec).frame (xs := []) (fs := []) (by simp) (by simp)
  have hbits : compareBits sc signed vD vS = if l = r then 0x01 else if l < r then 0x02 else 0x04 := compareBits_eq ..
  exact ⟨_, hexec, by rw [← hbits, setCmp_own], by simp, hframe, by simp, by simp, fun _ => by simp, by simp, by simp,
    by simp⟩

end Machine

end Sys2Proof
end

section
/-! The INT statements: the calls that draw, the calls that answer, and the codes without effect (R210 to R219).

INT is the advance over its six bytes and then what the code asks for. No request touches more than the registers RA and RB and one of
the two peripheral records, and none depends on `pc`, so each is said of the state before the instruction. -/

namespace Sys2Proof.Machine

/-! ### What a code asks for (R210, R211) -/

/-- A code without a peripheral call asks for nothing, whether the range test or the dispatch on the low byte turns it away
(R217, R218). -/
theorem periphRequest_eq_nothing {code : Word} (h : code ∉ [(0xFF00 : Word), 0xFF01, 0xFF0F, 0xFF10, 0xFF11]) :
    periphRequest code = .nothing := by
  simp only [List.mem_cons, List.not_mem_nil, or_false, not_or] at h
  obtain ⟨hglyph, hpixel, hflush, hkey, hkeys⟩ := h
  rw [periphRequest]
  split
  next hrange =>
    have hcode {n : Nat} (hlow : code.toNat - 0xFF00 = n) : code = BitVec.ofNat 32 (0xFF00 + n) := by
      rw [← hlow, Nat.add_sub_cancel' hrange.1, BitVec.ofNat_toNat, BitVec.setWidth_eq]
    split
    next hlow => exact absurd (hcode hlow) hglyph
    next hlow => exact absurd (hcode hlow) hpixel
    next hlow => exact absurd (hcode hlow) hflush
    next hlow => exact absurd (hcode hlow) hkey
    next hlow => exact absurd (hcode hlow) hkeys
    next => rfl
  next => rfl

/-- The drawing codes ask for their output event (R212 to R214). -/
theorem periphRequest_drawing {code : Word} {fn : PeriphFn}
    (h : (code, fn) ∈ [((0xFF00 : Word), PeriphFn.drawGlyph), (0xFF01, .drawPixel), (0xFF0F, .flush)]) :
    periphRequest code = .emit fn := by
  simp only [List.mem_cons, Prod.mk.injEq, List.not_mem_nil, or_false] at h
  rcases h with ⟨rfl, rfl⟩ | ⟨rfl, rfl⟩ | ⟨rfl, rfl⟩ <;> rfl

/-! ### The arguments and the answers (R211, R219) -/

section Boundary
variable (s : State)

theorem periphArgs_getElem (i : Fin 8) : s.periphArgs[i.val] = s.x ⟨i.val, by omega⟩ := Vector.getElem_ofFn _

@[simp] theorem advance_periphArgs (n : Nat) : (s.advance n).periphArgs = s.periphArgs := by
  simp only [State.periphArgs, advance_x]

@[simp] theorem advance_periphAnswer (n i : Nat) : (s.advance n).periphAnswer i = s.periphAnswer i := rfl

/-! ### What INT does (R210) -/

/-- A drawing code is the advance and one output event (R212 to R214). -/
theorem exec_int_drawing {code : Word} {fn : PeriphFn}
    (h : (code, fn) ∈ [((0xFF00 : Word), PeriphFn.drawGlyph), (0xFF01, .drawPixel), (0xFF0F, .flush)]) :
    exec (.int code) s = .next ((s.advance 6).periphCall fn) := by
  show execInt code s = _
  rw [execInt, periphRequest_drawing h]
  rfl

/-- Pulling the last key writes the next answer to RA (R215). -/
theorem exec_int_lastKey :
    exec (.int 0xFF10) s = .next (((s.advance 6).setX 0 (s.periphAnswer 0)).periphTaken 1) := rfl

/-- Pulling the pressed keys writes the next two answers to RA and RB (R216). -/
theorem exec_int_pressedKeys :
    exec (.int 0xFF11) s =
      .next ((((s.advance 6).setX 0 (s.periphAnswer 0)).setX 1 (s.periphAnswer 1)).periphTaken 2) := rfl

/-- Every other code is the advance alone (R217, R218). -/
theorem exec_int_other {code : Word} (h : code ∉ [(0xFF00 : Word), 0xFF01, 0xFF0F, 0xFF10, 0xFF11]) :
    exec (.int code) s = .next (s.advance 6) := by
  show execInt code s = _
  rw [execInt, periphRequest_eq_nothing h]
  rfl

end Boundary

/-! ### The statements -/

/-- Settles O44: the event carries the registers RA to RH, which the advance leaves alone. -/
theorem intDrawingCalls : Obligations.IntDrawingCalls := by
  intro s code fn hcode
  have hexec := exec_int_drawing s hcode
  have hframe := (exec_effect hexec).frame (xs := []) (fs := []) (by simp) (by simp)
  exact ⟨_, s.periphArgs, hexec, by simp, periphArgs_getElem s, by simp, hframe, by simp, by simp, by simp, fun _ => rfl,
    rfl, rfl⟩

/-- Settles O46: the advance touches only `pc`. -/
theorem intReservedCodesDoNothing : Obligations.IntReservedCodesDoNothing := by
  intro s code hcode
  have hexec := exec_int_other s hcode
  have hframe := (exec_effect hexec).frame (xs := []) (fs := []) (by simp) (by simp)
  exact ⟨_, hexec, by simp, hframe, by simp, by simp, by simp, fun _ => rfl, rfl, rfl, rfl⟩

/-- Settles O45: of the two answers the second goes to another register, so it leaves the first in RA. -/
theorem intInputCalls : Obligations.IntInputCalls := by
  intro s
  refine ⟨?_, ?_⟩
  · have hexec := exec_int_lastKey s
    have hframe := (exec_effect hexec).frame (xs := [0]) (fs := [])
      (fun q hq => by simp [setX_x, List.ne_of_not_mem_cons hq]) (by simp)
    exact ⟨_, hexec, by simp, rfl, hframe, by simp, by simp, by simp, by simp, fun _ => rfl, rfl, rfl⟩
  · have hexec := exec_int_pressedKeys s
    have hframe := (exec_effect hexec).frame (xs := [0, 1]) (fs := []) (fun q hq => by
      simp [setX_x, List.ne_of_not_mem_cons hq, List.ne_of_not_mem_cons (List.not_mem_of_not_mem_cons hq)]) (by simp)
    exact ⟨_, hexec, by simp [setX_x], by simp, rfl, hframe, by simp, by simp, by simp, by simp, fun _ => rfl, rfl, rfl⟩

end Sys2Proof.Machine
end

section
/-! The CALL and RET statements: what each does to `pc`, `cp` and the stack, and that the second undoes the first (R230 to R234).

A push is one write to memory and one move of its pointer. A pop is the move back and a read of the four bytes there, which for RET is
the read of an absolute operand. The moves stay inside the offset field, so both accesses take one route, and they cancel. -/

namespace Sys2Proof.Machine

/-! ### Moving a pointer (R14, R45) -/

/-- A move up and the same move down cancel, also where the offset wraps (R45). -/
@[simp] theorem addrAdd_neg_cancel (A : Word) (d : Int) : addrAdd (addrAdd A d) (-d) = A := by
  rw [addrAdd_addrAdd, add_neg_cancel, addrAdd_zero]

section Pointer
variable (s : State) (P : StackPointer)

@[simp] theorem readRoute_setPointer (t A : Word) : (s.setPointer P t).readRoute A = s.readRoute A :=
  readRoute_congr (setPointer_cur s P t) (setPointer_space s P t) A

@[simp] theorem pointer_setPointer (t : Word) : (s.setPointer P t).pointer P = t := by
  cases P <;> simp [State.pointer, State.setPointer]

@[simp] theorem setPointer_setPointer (t u : Word) : (s.setPointer P t).setPointer P u = s.setPointer P u := by
  cases P <;> simp [State.setPointer, State.setCp, State.setSp]

@[simp] theorem pointer_memWrite (A : Word) (n : Nat) (v : Word) : (s.memWrite A n v).pointer P = s.pointer P := by
  cases P <;> rw [State.pointer, memWrite_own_eq] <;> rfl

variable {s P}

theorem setPointer_eq_self {t : Word} (h : s.pointer P = t) : s.setPointer P t = s := by
  subst h
  cases P <;> exact setOwn_own s

end Pointer

/-! ### What a push leaves for a pop (R234) -/

/-- A pop reads where the push before it wrote, and takes the pointer back: only the write is left (R234). -/
theorem pop_push {s : State} {P : StackPointer} {p : Place} (h : s.writeRoute (s.pointer P) = some p) {n : Nat} (hn : n < 65536)
    (v : Word) : (s.push P n v).pop P n = (leWord (leBytes n v), s.memWrite (s.pointer P) n v) := by
  have hroute : (s.push P n v).readRoute ((s.push P n v).pointer P) = some p := by
    simp [State.push, readRoute_of_writeRoute h]
  have hback : (s.memWrite (s.pointer P) n v).setPointer P (s.pointer P) = s.memWrite (s.pointer P) n v :=
    setPointer_eq_self (pointer_memWrite s P _ n v)
  rw [pop_some hroute]
  simp [State.push, load_memWrite h hn, hback]

/-- A load depends on the bytes it reads alone (R46). -/
theorem Memory.load_congr {m m' : Memory} {p : Place} {A : Word} {n : Nat}
    (h : ∀ i < n, m'.read (p.addr (addrAdd A (i : Nat))) = m.read (p.addr (addrAdd A (i : Nat)))) : m'.load p A n = m.load p A n :=
  List.map_congr_left fun i hi => h i (List.mem_range.mp hi)

/-! ### What CALL and RET do (R232, R233) -/

section Events
variable (s : State) (A : Word) (n : Nat) (v : Word)

@[simp] theorem memWrite_periphCalls : (s.memWrite A n v).periphCalls = s.periphCalls := (memWrite_sameEvents s A n v).1
@[simp] theorem memWrite_periphReads : (s.memWrite A n v).periphReads = s.periphReads := (memWrite_sameEvents s A n v).2.1
@[simp] theorem memWrite_draws : (s.memWrite A n v).draws = s.draws := (memWrite_sameEvents s A n v).2.2

end Events

section CallRet
variable (s : State) (sc : SizeClass) (op : Operand)

/-- CALL is one operand read, one write of the next instruction's address, and the moves of `cp` and `pc` (R230, R232). -/
theorem exec_call : exec (.call sc op) s =
    .next (((((s.advance (3 + op.singleLength sc)).readOperand sc op).2.memWrite s.own.cp 4
      (addrAdd s.own.pc (3 + op.singleLength sc : Nat))).setCp (addrAdd s.own.cp 4)).setPc (s.readOperand sc op).1) := by
  show execCall sc op s = _
  simp only [execCall, State.push, State.pointer, State.setPointer, Instr.length, readOperand_own, advance_own,
    readOperand_advance_value]
  rfl

/-- RET is one move of `cp` and the read of an absolute operand into `pc` (R231, R233). -/
theorem exec_ret : exec .ret s =
    .next ((((s.advance 2).setCp (addrAdd s.own.cp (-4))).readOperand .w (.mem (addrAdd s.own.cp (-4)))).2.setPc
      (((s.advance 2).setCp (addrAdd s.own.cp (-4))).readOperand .w (.mem (addrAdd s.own.cp (-4)))).1) := by
  show execRet s = _
  simp only [execRet, State.pop, State.pointer, State.setPointer, Instr.length, advance_own]
  rfl

@[simp] theorem readRoute_setCp (t A : Word) : (s.setCp t).readRoute A = s.readRoute A :=
  readRoute_setPointer s .cp t A

variable {s}

/-- RET where `cp` routes: `pc` is the little-endian word below `cp` (R46, R231, R233). -/
theorem exec_ret_some {p : Place} (h : s.readRoute s.own.cp = some p) : exec .ret s =
    .next (((s.advance 2).setCp (addrAdd s.own.cp (-4))).setPc (leWord (s.mem.load p (addrAdd s.own.cp (-4)) 4))) := by
  rw [exec_ret, readOperand_mem rfl (p := p) (by simpa using h)]
  rfl

end CallRet

/-! ### The statements -/

/-- Settles O41: the write's route decides between the stored address and WRITE_ERROR; all else is said of both at once. -/
theorem callResult : Obligations.CallResult := by
  intro s sc op
  have hexec := exec_call s sc op
  have hframe := (exec_effect hexec).frame (xs := []) (fs := []) (by simp) (by simp)
  have hroute : ((s.advance (3 + op.singleLength sc)).readOperand sc op).2.writeRoute s.own.cp = s.writeRoute s.own.cp := by
    simp
  refine ⟨_, hexec, by simp, by simp, hframe, by simp, by simp, by simp, by simp, fun p hp => ?_, fun hp => ?_⟩
  · rw [← hroute] at hp
    obtain ⟨-, m, hm, hstored, hkept⟩ := writeStoresLittleEndian _ s.own.cp 4 (addrAdd s.own.pc (3 + op.singleLength sc : Nat)) p
      (by decide) hp
    refine ⟨by simp [memWrite_own hp], fun a ha => ?_, fun i hi => ?_⟩
    · rw [setPc_mem, setCp_mem, hm, hkept a ha, readOperand_memory, advance_mem]
    · rw [setPc_mem, setCp_mem, hm, hstored i hi]
  · rw [← hroute] at hp
    rw [memWrite_none hp]
    exact ⟨by simp [Flag.mask], fun a => by simp⟩

/-- Settles O42: the read of the four bytes below `cp` decides the flag and the draws; the move and `pc` are the same for both. -/
theorem retResult : Obligations.RetResult := by
  intro s
  have hexec := exec_ret s
  have hframe := (exec_effect hexec).frame (xs := []) (fs := []) (by simp) (by simp)
  refine ⟨_, hexec, by simp, hframe, by simp, fun _ => by simp, by simp, by simp, fun p hp => ?_, fun hp => ?_⟩
  · rw [readOperand_mem rfl (p := p) (by simpa using hp)]
    exact ⟨by simp, by simp, by rw [setPc_own]; exact toNat_leWord_load s.mem p _ (n := 4) (by decide)⟩
  · simp [State.readErrorBit, State.readDraws, State.unreadable, hp, SizeClass.bytes]

/-- Settles O22: the pop reads the bytes of the push, and RET those of CALL, as the four stack bytes are still there. -/
theorem stackRoundTrip : Obligations.StackRoundTrip := by
  refine ⟨fun s P v p hp => ?_, fun s t u sc op p hp ht hcur hspace hcp hbytes => ?_⟩
  · obtain ⟨-, m, hm, -, hkept⟩ := writeStoresLittleEndian s (s.pointer P) 4 v p (by decide) hp
    rw [pop_push hp (by decide), leWord_leBytes_four]
    exact ⟨rfl, m, hm, hkept⟩
  · rw [exec_call] at ht
    cases ht
    have hcp' : u.own.cp = addrAdd s.own.cp 4 := by simpa using hcp
    have hback : addrAdd u.own.cp (-4) = s.own.cp := by rw [hcp', addrAdd_neg_cancel]
    have hroute : u.readRoute u.own.cp = some p := by
      rw [hcp', readRoute_addrAdd, readRoute_congr hcur hspace, readRoute_of_writeRoute hp]
    have hload : u.mem.load p s.own.cp 4 = leBytes 4 (addrAdd s.own.pc (3 + op.singleLength sc : Nat)) :=
      (Memory.load_congr hbytes).trans (load_memWrite (by simpa using hp) (by decide) _)
    refine ⟨_, exec_ret_some hroute, ?_, by simpa using hback⟩
    rw [setPc_own, hback, hload, leWord_leBytes_four]

end Sys2Proof.Machine
end

section
/-! The scheduler statements: a trap's kill, the end of a quantum, the count within it, and the halt (R250 to R256, R279, R306).

The check has three outcomes and the switch two; each gets an equation under the condition that selects it. A statement names the
condition of its outcome, so its proof picks the equations and says whether context 0 survives the end of the quantum. -/

namespace Sys2Proof.Machine

variable {s : State}

/-! ### The end of a quantum (R253, R279) -/

theorem stopping_eq_true {flags : Word} : stopping flags = true ↔ flags &&& stopMask ≠ 0 := by
  rw [← Bool.not_eq_false, stopping_eq_false.not]

theorem Context.endQuantum_true (k : Context) : k.endQuantum true = { k with alive := false, quantumCount := 0 } := by
  simp [Context.endQuantum]

theorem Context.endQuantum_false (k : Context) : k.endQuantum false = { k with quantumCount := 0 } := by
  simp [Context.endQuantum]

/-! ### The switch (R252, R254) -/

/-- With context 0 alive the switch changes only `cur`, to the first alive context after it (R254, R255). -/
theorem switchContext_firstAliveAfter (h0 : (s.ctx 0).alive = true) :
    ∃ next, switchContext s = { s with cur := next } ∧ s.FirstAliveAfter next := by
  obtain ⟨d, hd, hd', h0'⟩ := ctx_reachable s.cur 0
  obtain ⟨k, hk, hk', hfound, halive, hdead⟩ := searchAlive_first s (n := 256) ⟨d, hd, hd', by rwa [h0']⟩
  refine ⟨searchAlive s 256 s.cur, if_pos h0, k, hk, hk', hfound, ?_, hdead⟩
  rwa [hfound]

/-- With context 0 dead the switch halts and leaves `cur` (R252). -/
theorem switchContext_halts (h0 : (s.ctx 0).alive = false) : switchContext s = { s with halted := true } := by
  simp [switchContext, h0]

/-- The search looks only at `cur` and at which contexts are alive (R254). -/
theorem State.FirstAliveAfter.congr {t : State} {next : CtxId} (h : t.FirstAliveAfter next) (hcur : t.cur = s.cur)
    (halive : ∀ c, (t.ctx c).alive = (s.ctx c).alive) : s.FirstAliveAfter next := by
  simpa only [State.FirstAliveAfter, hcur, halive] using h

theorem setOwn_alive {k : Context} (hk : k.alive = s.own.alive) (c : CtxId) :
    ((s.setOwn k).ctx c).alive = (s.ctx c).alive := by
  rw [ctx_setOwn]
  split
  · next hc => rw [hk, hc, ctx_cur]
  · rfl

/-! ### The check's three outcomes (R250, R252, R253) -/

/-- With context 0 dead the check halts at once: it counts nothing (R252). -/
theorem schedulerCheck_halts (h0 : (s.ctx 0).alive = false) : schedulerCheck s = { s with halted := true } := by
  simp [schedulerCheck, h0]

/-- A STOP flag kills the current context, and then the switch is made, whatever the count is (R253, R279). -/
theorem schedulerCheck_stop (h0 : (s.ctx 0).alive = true) (hflags : s.own.flags &&& stopMask ≠ 0) :
    schedulerCheck s = switchContext (s.setOwn { s.own with alive := false, quantumCount := 0 }) := by
  have hstop := stopping_eq_true.mpr hflags
  rw [schedulerCheck, if_pos h0, if_pos (.inr hstop), hstop, Context.endQuantum_true]

/-- The last instruction of a quantum without a STOP flag resets the count, and then the switch is made (R253). -/
theorem schedulerCheck_expiry (h0 : (s.ctx 0).alive = true) (hflags : s.own.flags &&& stopMask = 0)
    (hcount : s.own.quantumCount + 1 = Config.quantum) :
    schedulerCheck s = switchContext (s.setOwn { s.own with quantumCount := 0 }) := by
  rw [schedulerCheck, if_pos h0, if_pos (.inl hcount), stopping_eq_false.mpr hflags, Context.endQuantum_false]

/-- Any other instruction without a STOP flag is counted (R253). -/
theorem schedulerCheck_count (h0 : (s.ctx 0).alive = true) (hflags : s.own.flags &&& stopMask = 0)
    (hcount : s.own.quantumCount + 1 ≠ Config.quantum) :
    schedulerCheck s = s.setOwn { s.own with quantumCount := s.own.quantumCount + 1 } := by
  have hrun := stopping_eq_false.mpr hflags
  rw [schedulerCheck, if_pos h0, if_neg (not_or.mpr ⟨hcount, by simp [hrun]⟩)]

/-! ### The host's kill (R306) -/

theorem hostKill_bootDead (s : State) : (s.hostKill.ctx 0).alive = false := by
  rw [State.hostKill, ctx_setCtx_same]

theorem hostKill_quantumCount (s : State) : s.hostKill.own.quantumCount = s.own.quantumCount := by
  change ((s.setCtx 0 _).ctx s.cur).quantumCount = (s.ctx s.cur).quantumCount
  rw [ctx_setCtx]
  split
  · next hc => rw [hc]
  · rfl

/-! ### The statements -/

/-- Settles O47: the kill leaves context 0 as it was, so the search after it finds an alive context. -/
theorem stopFlagKillsTheContext : Obligations.StopFlagKillsTheContext := by
  intro s h0 hcur hflags
  rw [schedulerCheck_stop h0 hflags]
  exact switchContext_firstAliveAfter (by rwa [ctx_setOwn_other s _ 0 hcur.symm])

/-- Settles O49: the reset of the count changes no context's `alive`, so the search is that of the state before it. -/
theorem quantumExpirySwitches : Obligations.QuantumExpirySwitches := by
  intro s h0 hflags hcount
  have halive := setOwn_alive (s := s) (k := { s.own with quantumCount := 0 }) rfl
  obtain ⟨next, hswitch, hfirst⟩ := switchContext_firstAliveAfter ((halive 0).trans h0)
  rw [schedulerCheck_expiry h0 hflags (by rw [hcount]; rfl)]
  exact ⟨next, hswitch, hfirst.congr rfl halive⟩

/-- Settles O48: the context killed is context 0 itself, so the switch halts. -/
theorem kernelDeathHaltsTheMachine : Obligations.KernelDeathHaltsTheMachine := by
  intro s h0 hcur hflags
  rw [schedulerCheck_stop h0 hflags]
  exact switchContext_halts (by rw [ctx_setOwn, if_pos hcur.symm])

/-- Settles O50: a count below 15 is not the quantum's last, and adding 1 to it does not wrap. -/
theorem withinTheQuantumOnlyTheCountMoves : Obligations.WithinTheQuantumOnlyTheCountMoves := by
  intro s h0 hflags hcount
  have hlast : s.own.quantumCount + 1 ≠ Config.quantum := by
    simp only [Config.quantum]
    bv_omega
  refine ⟨_, rfl, schedulerCheck_count h0 hflags hlast, ?_⟩
  rw [schedulerCheck_count h0 hflags hlast, own_setOwn]
  bv_omega

/-- Settles O51: an instruction brings no context back to life and counts nothing, so the check after it finds context 0 dead. -/
theorem hostKillHaltsAfterOneInstruction : Obligations.HostKillHaltsAfterOneInstruction := by
  intro s hrun
  obtain ⟨u, hu, -⟩ := instructionStep_next s.hostKill
  have he := instructionStep_effect hu
  have hdead : (u.ctx 0).alive = false := (he.alive_eq 0).trans (hostKill_bootDead s)
  refine ⟨u, hu, ?_, he.quantumCount.trans (hostKill_quantumCount s)⟩
  rw [step_of_instructionStep (s := s.hostKill) hrun hu, schedulerCheck_halts hdead]

end Sys2Proof.Machine
end
